-- ==== Sys2Proof/Word.lean ====
section
/-! DEFINITION. The machine's values (`00_scope.md` R5, R7; `20_memory.md` R41): bytes of 8 bits, halves of 16,
words of 32. Signedness belongs to an operation, never to a value (R8). -/

namespace Sys2Proof

/-- A byte, the smallest addressable unit (R5). -/
abbrev Byte := BitVec 8

/-- A half (halfword), 16 bits (R41). -/
abbrev Half := BitVec 16

/-- A word, an address or a register value, 32 bits (R5). `+` and `-` on it are modulo 2^32 (R11). -/
abbrev Word := BitVec 32

end Sys2Proof
end

