-- ==== Sys2Proof/Machine/Flags.lean ====
section
/-! DEFINITION. The hardware has no flags, condition codes or predicate registers, and no instruction records carry or
overflow (`10_state.md` R29): there is no flag computation. What stands in their place are the comparisons, which
decide a branch inside one instruction or go to a register as a word (`00_scope.md` R12). -/

namespace Sys2Proof.Machine

/-- `bool(c)`: 1 or 0 as a word (R12; the spec's G2, UNVERIFIED, entry 14). -/
def boolWord (c : Bool) : Word := if c then 0x00000001#32 else 0x00000000#32

/-- `a <s b`: less than as two's complement numbers (R8, R12; the spec's G3, UNVERIFIED, entry 14). -/
def ltSigned (a b : Word) : Bool := decide (a.toInt < b.toInt)

/-- `a <u b`: less than as unsigned numbers (R8, R12). -/
def ltUnsigned (a b : Word) : Bool := decide (a.toNat < b.toNat)

/-- `a >=s b`, the negation of `a <s b` (R12). -/
def geSigned (a b : Word) : Bool := !ltSigned a b

/-- `a >=u b`, the negation of `a <u b` (R12). -/
def geUnsigned (a b : Word) : Bool := !ltUnsigned a b

/-- `a == b` on bit patterns (R12). -/
def eqWords (a b : Word) : Bool := decide (a = b)

/-- `a != b` on bit patterns (R12). -/
def neWords (a b : Word) : Bool := !eqWords a b

end Sys2Proof.Machine
end

