-- ==== Sys2Proof/Syntax.lean ====
section
/-! DEFINITION. The 37 instructions, one constructor for each row of spec/opcode_table.json, in the table's order.
Operands are the fields as the rules read them: registers by number, immediates at their field width, branch and jump
offsets as byte offsets (`30_encoding.md` R83, R85; `90_conflicts.md` C1). -/

namespace Sys2Proof

/-- The number of an integer register: a "5-bit unsigned number encoding register number" (`30_encoding.md` R80). -/
abbrev RegIdx := BitVec 5

/-- An instruction of the machine (`00_scope.md` R3). -/
inductive Instr where
  /-- `lb rd, imm(rs1)` (R151) -/
  | lb (rd rs1 : RegIdx) (imm : BitVec 12)
  /-- `lh rd, imm(rs1)` (R152) -/
  | lh (rd rs1 : RegIdx) (imm : BitVec 12)
  /-- `lw rd, imm(rs1)` (R153) -/
  | lw (rd rs1 : RegIdx) (imm : BitVec 12)
  /-- `lbu rd, imm(rs1)` (R154) -/
  | lbu (rd rs1 : RegIdx) (imm : BitVec 12)
  /-- `lhu rd, imm(rs1)` (R155) -/
  | lhu (rd rs1 : RegIdx) (imm : BitVec 12)
  /-- `addi rd, rs1, imm` (R131) -/
  | addi (rd rs1 : RegIdx) (imm : BitVec 12)
  /-- `slli rd, rs1, uimm` (R137) -/
  | slli (rd rs1 : RegIdx) (uimm : BitVec 5)
  /-- `slti rd, rs1, imm` (R132) -/
  | slti (rd rs1 : RegIdx) (imm : BitVec 12)
  /-- `sltiu rd, rs1, imm` (R133) -/
  | sltiu (rd rs1 : RegIdx) (imm : BitVec 12)
  /-- `xori rd, rs1, imm` (R134) -/
  | xori (rd rs1 : RegIdx) (imm : BitVec 12)
  /-- `srli rd, rs1, uimm` (R138) -/
  | srli (rd rs1 : RegIdx) (uimm : BitVec 5)
  /-- `srai rd, rs1, uimm` (R139) -/
  | srai (rd rs1 : RegIdx) (uimm : BitVec 5)
  /-- `ori rd, rs1, imm` (R135) -/
  | ori (rd rs1 : RegIdx) (imm : BitVec 12)
  /-- `andi rd, rs1, imm` (R136) -/
  | andi (rd rs1 : RegIdx) (imm : BitVec 12)
  /-- `auipc rd, upimm` (R191) -/
  | auipc (rd : RegIdx) (upimm : BitVec 20)
  /-- `sb rs2, imm(rs1)` (R161) -/
  | sb (rs1 rs2 : RegIdx) (imm : BitVec 12)
  /-- `sh rs2, imm(rs1)` (R162) -/
  | sh (rs1 rs2 : RegIdx) (imm : BitVec 12)
  /-- `sw rs2, imm(rs1)` (R163) -/
  | sw (rs1 rs2 : RegIdx) (imm : BitVec 12)
  /-- `add rd, rs1, rs2` (R111) -/
  | add (rd rs1 rs2 : RegIdx)
  /-- `sub rd, rs1, rs2` (R112) -/
  | sub (rd rs1 rs2 : RegIdx)
  /-- `sll rd, rs1, rs2` (R113) -/
  | sll (rd rs1 rs2 : RegIdx)
  /-- `slt rd, rs1, rs2` (R114) -/
  | slt (rd rs1 rs2 : RegIdx)
  /-- `sltu rd, rs1, rs2` (R115) -/
  | sltu (rd rs1 rs2 : RegIdx)
  /-- `xor rd, rs1, rs2` (R116) -/
  | xor (rd rs1 rs2 : RegIdx)
  /-- `srl rd, rs1, rs2` (R117) -/
  | srl (rd rs1 rs2 : RegIdx)
  /-- `sra rd, rs1, rs2` (R118) -/
  | sra (rd rs1 rs2 : RegIdx)
  /-- `or rd, rs1, rs2` (R119) -/
  | or (rd rs1 rs2 : RegIdx)
  /-- `and rd, rs1, rs2` (R120) -/
  | and (rd rs1 rs2 : RegIdx)
  /-- `lui rd, upimm` (R190) -/
  | lui (rd : RegIdx) (upimm : BitVec 20)
  /-- `beq rs1, rs2, label` (R171), the offset in bytes -/
  | beq (rs1 rs2 : RegIdx) (offset : BitVec 13)
  /-- `bne rs1, rs2, label` (R172) -/
  | bne (rs1 rs2 : RegIdx) (offset : BitVec 13)
  /-- `blt rs1, rs2, label` (R173) -/
  | blt (rs1 rs2 : RegIdx) (offset : BitVec 13)
  /-- `bge rs1, rs2, label` (R174) -/
  | bge (rs1 rs2 : RegIdx) (offset : BitVec 13)
  /-- `bltu rs1, rs2, label` (R175) -/
  | bltu (rs1 rs2 : RegIdx) (offset : BitVec 13)
  /-- `bgeu rs1, rs2, label` (R176) -/
  | bgeu (rs1 rs2 : RegIdx) (offset : BitVec 13)
  /-- `jalr rd, rs1, imm` (R181) -/
  | jalr (rd rs1 : RegIdx) (imm : BitVec 12)
  /-- `jal rd, label` (R180), the offset in bytes -/
  | jal (rd : RegIdx) (offset : BitVec 21)
  deriving DecidableEq, Repr

end Sys2Proof
end

