-- ==== Sys2Proof/WellFormed.lean ====
section
/-! DEFINITION. Which instructions have an encoding. Field widths are in the types; what is left is that the byte
offset of a branch or of `jal` is even, its bit 0 being stored nowhere (`30_encoding.md` R83, R85, R101). -/

namespace Sys2Proof

/-- A byte offset that an encoding can hold: bit 0 is zero ("m even", R101). -/
def evenOffset {w : Nat} (offset : BitVec w) : Bool := !offset.getLsbD 0

/-- The instruction has an encoding (R101). -/
def Instr.wellFormed : Instr → Bool
  | .lb _ _ _ => true
  | .lh _ _ _ => true
  | .lw _ _ _ => true
  | .lbu _ _ _ => true
  | .lhu _ _ _ => true
  | .addi _ _ _ => true
  | .slli _ _ _ => true
  | .slti _ _ _ => true
  | .sltiu _ _ _ => true
  | .xori _ _ _ => true
  | .srli _ _ _ => true
  | .srai _ _ _ => true
  | .ori _ _ _ => true
  | .andi _ _ _ => true
  | .auipc _ _ => true
  | .sb _ _ _ => true
  | .sh _ _ _ => true
  | .sw _ _ _ => true
  | .add _ _ _ => true
  | .sub _ _ _ => true
  | .sll _ _ _ => true
  | .slt _ _ _ => true
  | .sltu _ _ _ => true
  | .xor _ _ _ => true
  | .srl _ _ _ => true
  | .sra _ _ _ => true
  | .or _ _ _ => true
  | .and _ _ _ => true
  | .lui _ _ => true
  | .beq _ _ offset => evenOffset offset
  | .bne _ _ offset => evenOffset offset
  | .blt _ _ offset => evenOffset offset
  | .bge _ _ offset => evenOffset offset
  | .bltu _ _ offset => evenOffset offset
  | .bgeu _ _ offset => evenOffset offset
  | .jalr _ _ _ => true
  | .jal _ offset => evenOffset offset

end Sys2Proof
end

