-- ==== Sys2Proof/Decode.lean ====
section
/-! DEFINITION. From bits to instructions and back (`30_encoding.md`): the fields, the immediates, the opcode map of
R89, the decoder of R90 (which rejects by the classes of R91), the encoder of R101, and the decoding of bytes (R44). -/

namespace Sys2Proof

/-! ### Fields (R71) -/

/-- `op = inst[6:0]` (R71). -/
def fieldOp (inst : Word) : BitVec 7 := inst.extractLsb' 0 7

/-- `rd = inst[11:7]` (R71). -/
def fieldRd (inst : Word) : RegIdx := inst.extractLsb' 7 5

/-- `funct3 = inst[14:12]` (R71). -/
def fieldFunct3 (inst : Word) : BitVec 3 := inst.extractLsb' 12 3

/-- `rs1 = inst[19:15]` (R71). -/
def fieldRs1 (inst : Word) : RegIdx := inst.extractLsb' 15 5

/-- `rs2 = inst[24:20]` (R71). -/
def fieldRs2 (inst : Word) : RegIdx := inst.extractLsb' 20 5

/-- `funct7 = inst[31:25]` (R71). -/
def fieldFunct7 (inst : Word) : BitVec 7 := inst.extractLsb' 25 7

/-- `uimm = inst[24:20]`, the shift amount (R86). -/
def fieldUimm (inst : Word) : BitVec 5 := inst.extractLsb' 20 5

/-! ### Immediates, at their field width; Machine/Operands.lean extends them to 32 bits -/

/-- The I immediate `inst[31:20]` (R81). -/
def fieldImmI (inst : Word) : BitVec 12 := inst.extractLsb' 20 12

/-- The S immediate `{inst[31:25], inst[11:7]}` (R82). -/
def fieldImmS (inst : Word) : BitVec 12 := inst.extractLsb' 25 7 ++ inst.extractLsb' 7 5

/-- The B byte offset `{inst[31], inst[7], inst[30:25], inst[11:8], 1'b0}` (R83). -/
def fieldImmB (inst : Word) : BitVec 13 :=
  inst.extractLsb' 31 1 ++ inst.extractLsb' 7 1 ++ inst.extractLsb' 25 6 ++ inst.extractLsb' 8 4 ++ 0#1

/-- The U field `inst[31:12]` (R84). -/
def fieldUpimm (inst : Word) : BitVec 20 := inst.extractLsb' 12 20

/-- The J byte offset `{inst[31], inst[19:12], inst[20], inst[30:21], 1'b0}` (R85). -/
def fieldImmJ (inst : Word) : BitVec 21 :=
  inst.extractLsb' 31 1 ++ inst.extractLsb' 12 8 ++ inst.extractLsb' 20 1 ++ inst.extractLsb' 21 10 ++ 0#1

/-- The fields of the recorded R4 format; no instruction has it and the decoder never uses it (R79). -/
structure FieldsR4 where
  fs3 : BitVec 5
  funct2 : BitVec 2
  fs2 : BitVec 5
  fs1 : BitVec 5
  funct3 : BitVec 3
  fd : BitVec 5
  op : BitVec 7
  deriving DecidableEq, Repr

/-- A word cut as the R4 row cuts it (R79). -/
def fieldsR4 (inst : Word) : FieldsR4 where
  fs3 := inst.extractLsb' 27 5
  funct2 := inst.extractLsb' 25 2
  fs2 := inst.extractLsb' 20 5
  fs1 := inst.extractLsb' 15 5
  funct3 := inst.extractLsb' 12 3
  fd := inst.extractLsb' 7 5
  op := inst.extractLsb' 0 7

/-! ### The opcode map (R88, R89) -/

/-- The mnemonics of the 37 rows (R89). -/
inductive Mnemonic where
  | lb | lh | lw | lbu | lhu
  | addi | slli | slti | sltiu | xori | srli | srai | ori | andi
  | auipc
  | sb | sh | sw
  | add | sub | sll | slt | sltu | xor | srl | sra | or | and
  | lui
  | beq | bne | blt | bge | bltu | bgeu
  | jalr
  | jal
  deriving DecidableEq, Repr

/-- The six formats in use, and the shift variant of I (R72 to R78). -/
inductive Format where
  | R | I | Ishift | S | B | U | J
  deriving DecidableEq, Repr

/-- A row of the map: the word is this instruction when `(inst & mask) == pattern` (R89; the table calls `pattern`
"match"). `none` stands for the table's `-`. -/
structure OpcodeRow where
  mnemonic : Mnemonic
  format : Format
  op : BitVec 7
  funct3 : Option (BitVec 3)
  funct7 : Option (BitVec 7)
  pattern : Word
  mask : Word
  deriving DecidableEq, Repr

/-- The mask that tests `op` only (R89). -/
def maskOp : Word := 0x0000007F#32

/-- The mask that tests `op` and `funct3` (R89). -/
def maskOpFunct3 : Word := 0x0000707F#32

/-- The mask that tests `op`, `funct3` and `funct7` (R89). -/
def maskAll : Word := 0xFE00707F#32

/-- The rows of the five loads (R89). -/
def rowsLoad : List OpcodeRow :=
  [⟨.lb,  .I, 0b0000011#7, some 0b000#3, none, 0x00000003#32, maskOpFunct3⟩,
   ⟨.lh,  .I, 0b0000011#7, some 0b001#3, none, 0x00001003#32, maskOpFunct3⟩,
   ⟨.lw,  .I, 0b0000011#7, some 0b010#3, none, 0x00002003#32, maskOpFunct3⟩,
   ⟨.lbu, .I, 0b0000011#7, some 0b100#3, none, 0x00004003#32, maskOpFunct3⟩,
   ⟨.lhu, .I, 0b0000011#7, some 0b101#3, none, 0x00005003#32, maskOpFunct3⟩]

/-- The rows of the nine register-immediate instructions (R89). -/
def rowsAluImm : List OpcodeRow :=
  [⟨.addi,  .I,      0b0010011#7, some 0b000#3, none,             0x00000013#32, maskOpFunct3⟩,
   ⟨.slli,  .Ishift, 0b0010011#7, some 0b001#3, some 0b0000000#7, 0x00001013#32, maskAll⟩,
   ⟨.slti,  .I,      0b0010011#7, some 0b010#3, none,             0x00002013#32, maskOpFunct3⟩,
   ⟨.sltiu, .I,      0b0010011#7, some 0b011#3, none,             0x00003013#32, maskOpFunct3⟩,
   ⟨.xori,  .I,      0b0010011#7, some 0b100#3, none,             0x00004013#32, maskOpFunct3⟩,
   ⟨.srli,  .Ishift, 0b0010011#7, some 0b101#3, some 0b0000000#7, 0x00005013#32, maskAll⟩,
   ⟨.srai,  .Ishift, 0b0010011#7, some 0b101#3, some 0b0100000#7, 0x40005013#32, maskAll⟩,
   ⟨.ori,   .I,      0b0010011#7, some 0b110#3, none,             0x00006013#32, maskOpFunct3⟩,
   ⟨.andi,  .I,      0b0010011#7, some 0b111#3, none,             0x00007013#32, maskOpFunct3⟩]

/-- The rows of the three stores (R89). -/
def rowsStore : List OpcodeRow :=
  [⟨.sb, .S, 0b0100011#7, some 0b000#3, none, 0x00000023#32, maskOpFunct3⟩,
   ⟨.sh, .S, 0b0100011#7, some 0b001#3, none, 0x00001023#32, maskOpFunct3⟩,
   ⟨.sw, .S, 0b0100011#7, some 0b010#3, none, 0x00002023#32, maskOpFunct3⟩]

/-- The rows of the ten register-register instructions (R89). -/
def rowsAluReg : List OpcodeRow :=
  [⟨.add,  .R, 0b0110011#7, some 0b000#3, some 0b0000000#7, 0x00000033#32, maskAll⟩,
   ⟨.sub,  .R, 0b0110011#7, some 0b000#3, some 0b0100000#7, 0x40000033#32, maskAll⟩,
   ⟨.sll,  .R, 0b0110011#7, some 0b001#3, some 0b0000000#7, 0x00001033#32, maskAll⟩,
   ⟨.slt,  .R, 0b0110011#7, some 0b010#3, some 0b0000000#7, 0x00002033#32, maskAll⟩,
   ⟨.sltu, .R, 0b0110011#7, some 0b011#3, some 0b0000000#7, 0x00003033#32, maskAll⟩,
   ⟨.xor,  .R, 0b0110011#7, some 0b100#3, some 0b0000000#7, 0x00004033#32, maskAll⟩,
   ⟨.srl,  .R, 0b0110011#7, some 0b101#3, some 0b0000000#7, 0x00005033#32, maskAll⟩,
   ⟨.sra,  .R, 0b0110011#7, some 0b101#3, some 0b0100000#7, 0x40005033#32, maskAll⟩,
   ⟨.or,   .R, 0b0110011#7, some 0b110#3, some 0b0000000#7, 0x00006033#32, maskAll⟩,
   ⟨.and,  .R, 0b0110011#7, some 0b111#3, some 0b0000000#7, 0x00007033#32, maskAll⟩]

/-- The rows of the six branches (R89). -/
def rowsBranch : List OpcodeRow :=
  [⟨.beq,  .B, 0b1100011#7, some 0b000#3, none, 0x00000063#32, maskOpFunct3⟩,
   ⟨.bne,  .B, 0b1100011#7, some 0b001#3, none, 0x00001063#32, maskOpFunct3⟩,
   ⟨.blt,  .B, 0b1100011#7, some 0b100#3, none, 0x00004063#32, maskOpFunct3⟩,
   ⟨.bge,  .B, 0b1100011#7, some 0b101#3, none, 0x00005063#32, maskOpFunct3⟩,
   ⟨.bltu, .B, 0b1100011#7, some 0b110#3, none, 0x00006063#32, maskOpFunct3⟩,
   ⟨.bgeu, .B, 0b1100011#7, some 0b111#3, none, 0x00007063#32, maskOpFunct3⟩]

/-- The rows of the jumps and of the upper-immediate instructions (R89). -/
def rowsJumpUpper : List OpcodeRow :=
  [⟨.auipc, .U, 0b0010111#7, none,         none, 0x00000017#32, maskOp⟩,
   ⟨.lui,   .U, 0b0110111#7, none,         none, 0x00000037#32, maskOp⟩,
   ⟨.jalr,  .I, 0b1100111#7, some 0b000#3, none, 0x00000067#32, maskOpFunct3⟩,
   ⟨.jal,   .J, 0b1101111#7, none,         none, 0x0000006F#32, maskOp⟩]

/-- The complete map, 37 rows (R89). -/
def opcodeTable : List OpcodeRow :=
  rowsLoad ++ rowsAluImm ++ rowsStore ++ rowsAluReg ++ rowsBranch ++ rowsJumpUpper

/-- The instruction's row name (R89). -/
def Instr.mnemonic : Instr → Mnemonic
  | .lb _ _ _ => .lb
  | .lh _ _ _ => .lh
  | .lw _ _ _ => .lw
  | .lbu _ _ _ => .lbu
  | .lhu _ _ _ => .lhu
  | .addi _ _ _ => .addi
  | .slli _ _ _ => .slli
  | .slti _ _ _ => .slti
  | .sltiu _ _ _ => .sltiu
  | .xori _ _ _ => .xori
  | .srli _ _ _ => .srli
  | .srai _ _ _ => .srai
  | .ori _ _ _ => .ori
  | .andi _ _ _ => .andi
  | .auipc _ _ => .auipc
  | .sb _ _ _ => .sb
  | .sh _ _ _ => .sh
  | .sw _ _ _ => .sw
  | .add _ _ _ => .add
  | .sub _ _ _ => .sub
  | .sll _ _ _ => .sll
  | .slt _ _ _ => .slt
  | .sltu _ _ _ => .sltu
  | .xor _ _ _ => .xor
  | .srl _ _ _ => .srl
  | .sra _ _ _ => .sra
  | .or _ _ _ => .or
  | .and _ _ _ => .and
  | .lui _ _ => .lui
  | .beq _ _ _ => .beq
  | .bne _ _ _ => .bne
  | .blt _ _ _ => .blt
  | .bge _ _ _ => .bge
  | .bltu _ _ _ => .bltu
  | .bgeu _ _ _ => .bgeu
  | .jalr _ _ _ => .jalr
  | .jal _ _ => .jal

/-! ### The decoder (R90) -/

/-- Why a word is no instruction: the classes of R91, and, for a list of bytes, that fewer than four are left. -/
inductive DecodeError where
  /-- R91 (a): `op` is none of the nine values of R88. -/
  | opcode
  /-- R91 (b): a load with `funct3` 011, 110 or 111. -/
  | loadFunct3
  /-- R91 (c): a shift by an immediate whose `inst[31:25]` is not a listed code. -/
  | shiftFunct7
  /-- R91 (d): a store with `funct3` 011 to 111. -/
  | storeFunct3
  /-- R91 (e): a register-register word whose `funct7` and `funct3` are no listed pair. -/
  | regFunct7
  /-- R91 (f): a branch with `funct3` 010 or 011. -/
  | branchFunct3
  /-- R91 (g): `jalr`'s opcode with `funct3` not 000. -/
  | jalrFunct3
  /-- Fewer than the four bytes of an instruction (R70). DESIGN CHOICE, safe: the machine always fetches four; entry 22. -/
  | tooFewBytes
  deriving DecidableEq, Repr

/-- R90 step 3 for `op` 0000011. -/
def decodeLoad (inst : Word) : Except DecodeError Instr :=
  match fieldFunct3 inst with
  | 0b000#3 => .ok (.lb (fieldRd inst) (fieldRs1 inst) (fieldImmI inst))
  | 0b001#3 => .ok (.lh (fieldRd inst) (fieldRs1 inst) (fieldImmI inst))
  | 0b010#3 => .ok (.lw (fieldRd inst) (fieldRs1 inst) (fieldImmI inst))
  | 0b100#3 => .ok (.lbu (fieldRd inst) (fieldRs1 inst) (fieldImmI inst))
  | 0b101#3 => .ok (.lhu (fieldRd inst) (fieldRs1 inst) (fieldImmI inst))
  | _ => .error .loadFunct3

/-- R90 step 4, `op` 0010011: `funct3` selects, and for the shifts `inst[31:25]` too. -/
def decodeAluImm (inst : Word) : Except DecodeError Instr :=
  match fieldFunct3 inst with
  | 0b000#3 => .ok (.addi (fieldRd inst) (fieldRs1 inst) (fieldImmI inst))
  | 0b010#3 => .ok (.slti (fieldRd inst) (fieldRs1 inst) (fieldImmI inst))
  | 0b011#3 => .ok (.sltiu (fieldRd inst) (fieldRs1 inst) (fieldImmI inst))
  | 0b100#3 => .ok (.xori (fieldRd inst) (fieldRs1 inst) (fieldImmI inst))
  | 0b110#3 => .ok (.ori (fieldRd inst) (fieldRs1 inst) (fieldImmI inst))
  | 0b111#3 => .ok (.andi (fieldRd inst) (fieldRs1 inst) (fieldImmI inst))
  | 0b001#3 =>
    if fieldFunct7 inst = 0b0000000#7 then .ok (.slli (fieldRd inst) (fieldRs1 inst) (fieldUimm inst))
    else .error .shiftFunct7
  | _ =>
    if fieldFunct7 inst = 0b0000000#7 then .ok (.srli (fieldRd inst) (fieldRs1 inst) (fieldUimm inst))
    else if fieldFunct7 inst = 0b0100000#7 then .ok (.srai (fieldRd inst) (fieldRs1 inst) (fieldUimm inst))
    else .error .shiftFunct7

/-- R90 step 3 for `op` 0100011. -/
def decodeStore (inst : Word) : Except DecodeError Instr :=
  match fieldFunct3 inst with
  | 0b000#3 => .ok (.sb (fieldRs1 inst) (fieldRs2 inst) (fieldImmS inst))
  | 0b001#3 => .ok (.sh (fieldRs1 inst) (fieldRs2 inst) (fieldImmS inst))
  | 0b010#3 => .ok (.sw (fieldRs1 inst) (fieldRs2 inst) (fieldImmS inst))
  | _ => .error .storeFunct3

/-- R90 step 5, `op` 0110011 with `funct7` 0000000. -/
def decodeAluRegPlain (inst : Word) : Instr :=
  match fieldFunct3 inst with
  | 0b000#3 => .add (fieldRd inst) (fieldRs1 inst) (fieldRs2 inst)
  | 0b001#3 => .sll (fieldRd inst) (fieldRs1 inst) (fieldRs2 inst)
  | 0b010#3 => .slt (fieldRd inst) (fieldRs1 inst) (fieldRs2 inst)
  | 0b011#3 => .sltu (fieldRd inst) (fieldRs1 inst) (fieldRs2 inst)
  | 0b100#3 => .xor (fieldRd inst) (fieldRs1 inst) (fieldRs2 inst)
  | 0b101#3 => .srl (fieldRd inst) (fieldRs1 inst) (fieldRs2 inst)
  | 0b110#3 => .or (fieldRd inst) (fieldRs1 inst) (fieldRs2 inst)
  | _ => .and (fieldRd inst) (fieldRs1 inst) (fieldRs2 inst)

/-- R90 step 5, `op` 0110011: the pair of `funct7` and `funct3` is one of ten. -/
def decodeAluReg (inst : Word) : Except DecodeError Instr :=
  if fieldFunct7 inst = 0b0000000#7 then .ok (decodeAluRegPlain inst)
  else if fieldFunct7 inst = 0b0100000#7 then
    match fieldFunct3 inst with
    | 0b000#3 => .ok (.sub (fieldRd inst) (fieldRs1 inst) (fieldRs2 inst))
    | 0b101#3 => .ok (.sra (fieldRd inst) (fieldRs1 inst) (fieldRs2 inst))
    | _ => .error .regFunct7
  else .error .regFunct7

/-- R90 step 3 for `op` 1100011. -/
def decodeBranch (inst : Word) : Except DecodeError Instr :=
  match fieldFunct3 inst with
  | 0b000#3 => .ok (.beq (fieldRs1 inst) (fieldRs2 inst) (fieldImmB inst))
  | 0b001#3 => .ok (.bne (fieldRs1 inst) (fieldRs2 inst) (fieldImmB inst))
  | 0b100#3 => .ok (.blt (fieldRs1 inst) (fieldRs2 inst) (fieldImmB inst))
  | 0b101#3 => .ok (.bge (fieldRs1 inst) (fieldRs2 inst) (fieldImmB inst))
  | 0b110#3 => .ok (.bltu (fieldRs1 inst) (fieldRs2 inst) (fieldImmB inst))
  | 0b111#3 => .ok (.bgeu (fieldRs1 inst) (fieldRs2 inst) (fieldImmB inst))
  | _ => .error .branchFunct3

/-- R90 step 3 for `op` 1100111. -/
def decodeJalr (inst : Word) : Except DecodeError Instr :=
  if fieldFunct3 inst = 0b000#3 then .ok (.jalr (fieldRd inst) (fieldRs1 inst) (fieldImmI inst))
  else .error .jalrFunct3

/-- The instruction of a word, or the class of R91 that makes it illegal (R90). -/
def decode (inst : Word) : Except DecodeError Instr :=
  match fieldOp inst with
  | 0b0000011#7 => decodeLoad inst
  | 0b0010011#7 => decodeAluImm inst
  | 0b0010111#7 => .ok (.auipc (fieldRd inst) (fieldUpimm inst))
  | 0b0100011#7 => decodeStore inst
  | 0b0110011#7 => decodeAluReg inst
  | 0b0110111#7 => .ok (.lui (fieldRd inst) (fieldUpimm inst))
  | 0b1100011#7 => decodeBranch inst
  | 0b1100111#7 => decodeJalr inst
  | 0b1101111#7 => .ok (.jal (fieldRd inst) (fieldImmJ inst))
  | _ => .error .opcode

/-! ### The encoder (R101) -/

/-- R: `{f7, rs2, rs1, f3, rd, op}` (R101). -/
def encodeR (f7 : BitVec 7) (rs2 rs1 : RegIdx) (f3 : BitVec 3) (rd : RegIdx) (op : BitVec 7) : Word :=
  f7 ++ rs2 ++ rs1 ++ f3 ++ rd ++ op

/-- I: `{m[11:0], rs1, f3, rd, op}` (R101). -/
def encodeI (m : BitVec 12) (rs1 : RegIdx) (f3 : BitVec 3) (rd : RegIdx) (op : BitVec 7) : Word :=
  m ++ rs1 ++ f3 ++ rd ++ op

/-- S: `{m[11:5], rs2, rs1, f3, m[4:0], op}` (R101). -/
def encodeS (m : BitVec 12) (rs2 rs1 : RegIdx) (f3 : BitVec 3) (op : BitVec 7) : Word :=
  m.extractLsb' 5 7 ++ rs2 ++ rs1 ++ f3 ++ m.extractLsb' 0 5 ++ op

/-- B: `{m[12], m[10:5], rs2, rs1, f3, m[4:1], m[11], op}` (R101). -/
def encodeB (m : BitVec 13) (rs2 rs1 : RegIdx) (f3 : BitVec 3) (op : BitVec 7) : Word :=
  m.extractLsb' 12 1 ++ m.extractLsb' 5 6 ++ rs2 ++ rs1 ++ f3 ++ m.extractLsb' 1 4 ++ m.extractLsb' 11 1 ++ op

/-- U: `{upimm[19:0], rd, op}` (R101). -/
def encodeU (upimm : BitVec 20) (rd : RegIdx) (op : BitVec 7) : Word :=
  upimm ++ rd ++ op

/-- J: `{m[20], m[10:1], m[11], m[19:12], rd, op}` (R101). -/
def encodeJ (m : BitVec 21) (rd : RegIdx) (op : BitVec 7) : Word :=
  m.extractLsb' 20 1 ++ m.extractLsb' 1 10 ++ m.extractLsb' 11 1 ++ m.extractLsb' 12 8 ++ rd ++ op

/-- The word of an instruction (R101 with the constants of R89). An odd offset of an ill-formed branch or `jal` loses
its bit 0. -/
def encode : Instr → Word
  | .lb rd rs1 imm => encodeI imm rs1 0b000#3 rd 0b0000011#7
  | .lh rd rs1 imm => encodeI imm rs1 0b001#3 rd 0b0000011#7
  | .lw rd rs1 imm => encodeI imm rs1 0b010#3 rd 0b0000011#7
  | .lbu rd rs1 imm => encodeI imm rs1 0b100#3 rd 0b0000011#7
  | .lhu rd rs1 imm => encodeI imm rs1 0b101#3 rd 0b0000011#7
  | .addi rd rs1 imm => encodeI imm rs1 0b000#3 rd 0b0010011#7
  | .slli rd rs1 uimm => encodeR 0b0000000#7 uimm rs1 0b001#3 rd 0b0010011#7
  | .slti rd rs1 imm => encodeI imm rs1 0b010#3 rd 0b0010011#7
  | .sltiu rd rs1 imm => encodeI imm rs1 0b011#3 rd 0b0010011#7
  | .xori rd rs1 imm => encodeI imm rs1 0b100#3 rd 0b0010011#7
  | .srli rd rs1 uimm => encodeR 0b0000000#7 uimm rs1 0b101#3 rd 0b0010011#7
  | .srai rd rs1 uimm => encodeR 0b0100000#7 uimm rs1 0b101#3 rd 0b0010011#7
  | .ori rd rs1 imm => encodeI imm rs1 0b110#3 rd 0b0010011#7
  | .andi rd rs1 imm => encodeI imm rs1 0b111#3 rd 0b0010011#7
  | .auipc rd upimm => encodeU upimm rd 0b0010111#7
  | .sb rs1 rs2 imm => encodeS imm rs2 rs1 0b000#3 0b0100011#7
  | .sh rs1 rs2 imm => encodeS imm rs2 rs1 0b001#3 0b0100011#7
  | .sw rs1 rs2 imm => encodeS imm rs2 rs1 0b010#3 0b0100011#7
  | .add rd rs1 rs2 => encodeR 0b0000000#7 rs2 rs1 0b000#3 rd 0b0110011#7
  | .sub rd rs1 rs2 => encodeR 0b0100000#7 rs2 rs1 0b000#3 rd 0b0110011#7
  | .sll rd rs1 rs2 => encodeR 0b0000000#7 rs2 rs1 0b001#3 rd 0b0110011#7
  | .slt rd rs1 rs2 => encodeR 0b0000000#7 rs2 rs1 0b010#3 rd 0b0110011#7
  | .sltu rd rs1 rs2 => encodeR 0b0000000#7 rs2 rs1 0b011#3 rd 0b0110011#7
  | .xor rd rs1 rs2 => encodeR 0b0000000#7 rs2 rs1 0b100#3 rd 0b0110011#7
  | .srl rd rs1 rs2 => encodeR 0b0000000#7 rs2 rs1 0b101#3 rd 0b0110011#7
  | .sra rd rs1 rs2 => encodeR 0b0100000#7 rs2 rs1 0b101#3 rd 0b0110011#7
  | .or rd rs1 rs2 => encodeR 0b0000000#7 rs2 rs1 0b110#3 rd 0b0110011#7
  | .and rd rs1 rs2 => encodeR 0b0000000#7 rs2 rs1 0b111#3 rd 0b0110011#7
  | .lui rd upimm => encodeU upimm rd 0b0110111#7
  | .beq rs1 rs2 offset => encodeB offset rs2 rs1 0b000#3 0b1100011#7
  | .bne rs1 rs2 offset => encodeB offset rs2 rs1 0b001#3 0b1100011#7
  | .blt rs1 rs2 offset => encodeB offset rs2 rs1 0b100#3 0b1100011#7
  | .bge rs1 rs2 offset => encodeB offset rs2 rs1 0b101#3 0b1100011#7
  | .bltu rs1 rs2 offset => encodeB offset rs2 rs1 0b110#3 0b1100011#7
  | .bgeu rs1 rs2 offset => encodeB offset rs2 rs1 0b111#3 0b1100011#7
  | .jalr rd rs1 imm => encodeI imm rs1 0b000#3 rd 0b1100111#7
  | .jal rd offset => encodeJ offset rd 0b1101111#7

/-! ### Bytes (R44) -/

/-- The four bytes of a word at increasing addresses: `w[7:0], w[15:8], w[23:16], w[31:24]` (R43, R44, R264). -/
def wordBytes (w : Word) : List Byte :=
  [w.extractLsb' 0 8, w.extractLsb' 8 8, w.extractLsb' 16 8, w.extractLsb' 24 8]

/-- The word whose byte at the lowest address is `b0`: `{b3, b2, b1, b0}` (R44). -/
def wordOfBytes (b0 b1 b2 b3 : Byte) : Word := b3 ++ b2 ++ b1 ++ b0

/-- The first instruction of a list of bytes, with the bytes after it (R44, R70). -/
def decodeBytes : List Byte → Except DecodeError (Instr × List Byte)
  | b0 :: b1 :: b2 :: b3 :: rest =>
    match decode (wordOfBytes b0 b1 b2 b3) with
    | .ok i => .ok (i, rest)
    | .error e => .error e
  | _ => .error .tooFewBytes

/-- The word an opcode-table row and its operand bits make: the low `nbits` bits of `w`, zeros above. -/
def tableWord (nbits w : Nat) : Word := BitVec.ofNat 32 (w % 2 ^ nbits)

/-- What the decoder reads from that word, laid out as the hardware stores it. -/
def decodeTableWord (nbits w : Nat) : Option Instr :=
  match decodeBytes (wordBytes (tableWord nbits w)) with
  | .ok (i, _) => some i
  | .error _ => none

end Sys2Proof
end

