-- ==== Sys2Proof/Machine/Operands.lean ====
section
/-! DEFINITION. Every operand form: the immediates extended to 32 bits (`30_encoding.md` R81 to R86), the effective
address (`20_memory.md` R51), the targets of branches and jumps (R83, R85), shift amounts and shifts (`00_scope.md`
R13), and the extension of loaded data (R52). -/

namespace Sys2Proof.Machine

/-- `imm_I = sext_12(inst[31:20])` (R81). -/
def immI (imm : BitVec 12) : Word := imm.signExtend 32

/-- `imm_S`, the same extension of the S field (R82). -/
def immS (imm : BitVec 12) : Word := imm.signExtend 32

/-- `imm_B = sext_13(...)`, an even byte offset (R83). -/
def immB (offset : BitVec 13) : Word := offset.signExtend 32

/-- `imm_U = {upimm, 12'b0}` (R84). -/
def immU (upimm : BitVec 20) : Word := upimm ++ 0#12

/-- `imm_J = sext_21(...)`, an even byte offset (R85). -/
def immJ (offset : BitVec 21) : Word := offset.signExtend 32

/-- `Address` of a load: `x[rs1] + imm_I` modulo 2^32 (R51). -/
def loadAddress (base : Word) (imm : BitVec 12) : Word := base + immI imm

/-- `Address` of a store: `x[rs1] + imm_S` modulo 2^32 (R51). -/
def storeAddress (base : Word) (imm : BitVec 12) : Word := base + immS imm

/-- `BTA = pc + imm_B` modulo 2^32 (`44_branches.md` R170). -/
def branchTarget (pc : Word) (offset : BitVec 13) : Word := pc + immB offset

/-- `JTA = pc + imm_J` modulo 2^32 (`45_jumps.md` R180). -/
def jalTarget (pc : Word) (offset : BitVec 21) : Word := pc + immJ offset

/-- The target of `jalr`, `x[rs1] + imm_I` exactly: bit 0 is not cleared (`45_jumps.md` R181, R185). -/
def jalrTarget (base : Word) (imm : BitVec 12) : Word := base + immI imm

/-- The amount of a shift by a register: its low five bits (R113, R117, R118). -/
def shiftAmount (v : Word) : BitVec 5 := v.extractLsb' 0 5

/-- `a << s` (R13). -/
def shiftLeft (a : Word) (s : BitVec 5) : Word := a <<< s.toNat

/-- `a >>u s`, zeros entering at the top (R13). -/
def shiftRightLogical (a : Word) (s : BitVec 5) : Word := a >>> s.toNat

/-- `a >>s s`, copies of bit 31 entering at the top (R13; the spec's G4, UNVERIFIED, entry 14). -/
def shiftRightArith (a : Word) (s : BitVec 5) : Word := a.sshiftRight s.toNat

/-- `sext_8` (R52). -/
def signExtByte (v : Byte) : Word := v.signExtend 32

/-- `zext_8` (R52). -/
def zeroExtByte (v : Byte) : Word := v.setWidth 32

/-- `sext_16` (R52). -/
def signExtHalf (v : Half) : Word := v.signExtend 32

/-- `zext_16` (R52). -/
def zeroExtHalf (v : Half) : Word := v.setWidth 32

/-- The byte a store of one byte moves: `x[rs2][7:0]` (R52, R161). -/
def storeByteOf (v : Word) : List Byte := [v.extractLsb' 0 8]

/-- The bytes of a store of a half, lowest address first: `x[rs2][7:0]`, `x[rs2][15:8]` (R43, R162). -/
def storeHalfOf (v : Word) : List Byte := [v.extractLsb' 0 8, v.extractLsb' 8 8]

/-- The bytes of a store of a word, lowest address first (R43, R163). -/
def storeWordOf (v : Word) : List Byte := [v.extractLsb' 0 8, v.extractLsb' 8 8, v.extractLsb' 16 8, v.extractLsb' 24 8]

end Sys2Proof.Machine
end

