-- ==== Sys2Proof/Config.lean ====
section
/-! DEFINITION. What an implementation and a launch fix: the platform's memory map as plain data (`20_memory.md` R55),
and the five open parameters of `00_scope.md` R6 as a `Launch`, with the launch that State.reset uses (entries 1 to 5).
The spec leaves no value free (`93_implementation_defined.md` section 1), so there is no opaque constant here. -/

namespace Sys2Proof

/-- The kind of an access, the third argument of `MemAdmits` (R6). -/
inductive AccessKind where
  | fetch | load | store
  deriving DecidableEq, Repr

/-- The size of an access, the second argument of `MemAdmits` (R6): 1, 2 or 4 bytes. -/
inductive AccessSize where
  | byte | half | word
  deriving DecidableEq, Repr

/-- A range of addresses and the kinds and sizes of access the platform accepts at them. -/
structure MemRegion where
  first : Word
  last : Word
  kinds : List AccessKind
  sizes : List AccessSize
  deriving DecidableEq, Repr

/-- The parameter `MemAdmits` as plain data: an access is accepted when some region accepts it at its address (R55).
Every predicate of the three arguments is such a list (Laws/Platform.lean, `memMap_represents_every_predicate`). -/
abbrev MemMap := List MemRegion

/-- The parameters a run starts from (`00_scope.md` R6, `92_eei_decisions.md` "Open parameters"). `initRegs` and
`initMem` are partial maps, written as lists of pairs in which the first entry for a key counts. -/
structure Launch where
  resetPc : Word
  exitPc : Word
  initRegs : List (RegIdx × Word)
  initMem : List (Word × Byte)
  memMap : MemMap
  deriving DecidableEq, Repr

/-- "Every aligned access is admitted": the default of R55, a flat 4 GiB memory. DESIGN CHOICE, unsafe; entry 4. -/
def Config.flatMemMap : MemMap :=
  [⟨0x00000000#32, 0xFFFFFFFF#32, [.fetch, .load, .store], [.byte, .half, .word]⟩]

/-- `RESET_PC` of State.reset, the parameter being open (R6). DESIGN CHOICE, unsafe; entry 1. -/
def Config.resetPc : Word := 0x00000000#32

/-- `EXIT_PC` of State.reset, the parameter being open (R6). DESIGN CHOICE, unsafe; entry 5. -/
def Config.exitPc : Word := 0xFFFFFFFC#32

/-- `InitRegs` of State.reset: 0 for each of x1 to x31. DESIGN CHOICE, unsafe; entry 2. -/
def Config.zeroRegs : List (RegIdx × Word) :=
  (List.range 32).map fun i => (BitVec.ofNat 5 i, 0#32)

/-- The launch of State.reset: nothing in memory (entry 3). -/
def Config.resetLaunch : Launch where
  resetPc := Config.resetPc
  exitPc := Config.exitPc
  initRegs := Config.zeroRegs
  initMem := []
  memMap := Config.flatMemMap

end Sys2Proof
end

