-- ==== Sys2Proof/Machine/Memory.lean ====
section
/-! DEFINITION. Memory as a canonical list of address and byte pairs (`10_state.md` R32), sets of addresses as rising
lists (R34), the reads and writes of one, two and four bytes in the one byte order (`20_memory.md` R43), and the
platform's predicate `MemAdmits` (R55). -/

namespace Sys2Proof.Machine

/-- `Mem`: the bytes that hold a value, at strictly rising addresses. An unlisted byte reads as no value (R35, R63). -/
abbrev Memory := List Host.Cell

/-- A set of byte addresses, strictly rising. -/
abbrev AddrSet := List Nat

/-- The address is in the set. -/
def AddrSet.has : AddrSet → Nat → Bool
  | [], _ => false
  | b :: l, a => a == b || AddrSet.has l a

/-- The set with one address more. -/
def AddrSet.add : AddrSet → Nat → AddrSet
  | [], a => [a]
  | b :: l, a => if a < b then a :: b :: l else if a = b then b :: l else b :: AddrSet.add l a

/-- The canonical form of a set of addresses: strictly rising, below 2^32. -/
abbrev AddrSet.wf (l : AddrSet) : Prop := l.Pairwise (· < ·) ∧ ∀ a ∈ l, a < 2 ^ 32

/-- The byte at an address, or no value (R35, R63). -/
def Memory.read : Memory → Nat → Option Byte
  | [], _ => none
  | (b, v) :: m, a => if a = b then some v else Memory.read m a

/-- The byte at an address becomes `v` and holds a value (R35). -/
def Memory.write : Memory → Nat → Byte → Memory
  | [], a, v => [(a, v)]
  | (b, u) :: m, a, v =>
    if a < b then (a, v) :: (b, u) :: m else if a = b then (a, v) :: m else (b, u) :: Memory.write m a v

/-- The canonical form of memory: strictly rising addresses of the 32-bit space (R32). No entry equals what an unlisted
address reads as, which is no value at all. -/
abbrev Memory.wf (m : Memory) : Prop := (m.map Prod.fst).Pairwise (· < ·) ∧ ∀ c ∈ m, c.1 < 2 ^ 32

/-- The memory of a launch: `InitMem`, the first entry for an address counting (`70_reset_and_hazards.md` R262). -/
def Memory.ofList (l : List (Word × Byte)) : Memory :=
  l.foldr (fun e m => Memory.write m e.1.toNat e.2) []

/-- The bytes of a list stored at increasing addresses from `a` (R43, R47 step 3). -/
def Memory.writeBytes : Memory → Nat → List Byte → Memory
  | m, _, [] => m
  | m, a, b :: bs => Memory.writeBytes (Memory.write m a b) (a + 1) bs

/-- The `n` addresses from `a` join a set (R47 step 3, for `Stored`). -/
def AddrSet.addRange : AddrSet → Nat → Nat → AddrSet
  | l, _, 0 => l
  | l, a, n + 1 => AddrSet.addRange (AddrSet.add l a) (a + 1) n

/-- The `n` addresses from `a` leave a set. -/
def AddrSet.dropRange (l : AddrSet) (a n : Nat) : AddrSet := l.filter fun b => !(decide (a ≤ b) && decide (b < a + n))

/-- One of the `n` addresses from `a` is in the set (R48 step 2). -/
def AddrSet.meets : AddrSet → Nat → Nat → Bool
  | _, _, 0 => false
  | l, a, n + 1 => AddrSet.has l a || AddrSet.meets l (a + 1) n

/-- The byte at `a`, if it holds a value (R46 steps 3 and 4, n = 1). -/
def Memory.readByte (m : Memory) (a : Nat) : Option Byte := Memory.read m a

/-- The half at `a`, `{Mem[a+1], Mem[a]}`, if both bytes hold a value (R46 steps 3 and 4, n = 2; R43). -/
def Memory.readHalf (m : Memory) (a : Nat) : Option Half :=
  match Memory.read m a, Memory.read m (a + 1) with
  | some b0, some b1 => some (b1 ++ b0)
  | _, _ => none

/-- The word at `a`, `{Mem[a+3], Mem[a+2], Mem[a+1], Mem[a]}`, if all four bytes hold a value (R46, n = 4; R43). -/
def Memory.readWord (m : Memory) (a : Nat) : Option Word :=
  match Memory.read m a, Memory.read m (a + 1), Memory.read m (a + 2), Memory.read m (a + 3) with
  | some b0, some b1, some b2, some b3 => some (b3 ++ b2 ++ b1 ++ b0)
  | _, _, _, _ => none

/-- The number of bytes of an access (R41, R52). -/
def AccessSize.bytes : AccessSize → Nat
  | .byte => 1
  | .half => 2
  | .word => 4

/-- Natural alignment: `addr mod n = 0` (R49). -/
def aligned (addr : Word) (n : AccessSize) : Bool := addr.toNat % AccessSize.bytes n == 0

/-- The region accepts an access of this kind and size at this address. -/
def regionAdmits (r : MemRegion) (addr : Word) (n : AccessSize) (kind : AccessKind) : Bool :=
  decide (r.first.toNat ≤ addr.toNat) && decide (addr.toNat ≤ r.last.toNat) && r.sizes.contains n && r.kinds.contains kind

/-- `MemAdmits(addr, n, kind)`: the platform's memory accepts the access (R6, R55). It sees its three arguments and the
run's fixed map, nothing of the run so far. -/
def memAdmits (map : MemMap) (addr : Word) (n : AccessSize) (kind : AccessKind) : Bool :=
  map.any fun r => regionAdmits r addr n kind

end Sys2Proof.Machine
end

