-- ==== Sys2Proof/Machine/Registers.lean ====
section
/-! DEFINITION. The integer registers (`10_state.md` R20 to R22) with the bookkeeping of which of them hold a value
(R34 (b), R35). `x[0]` has no storage: one operation reads registers and one writes them. -/

namespace Sys2Proof.Machine

/-- `x[1]` to `x[31]` and, for each, whether it is in `HasValue`. The value kept for a register that holds none is never
read by an instruction (R229). -/
structure RegFile where
  values : Vector Word 31
  valued : Vector Bool 31
  deriving DecidableEq, Repr

/-- Where register `i`, 1 to 31, is kept. -/
def regSlot (i : RegIdx) : Fin 31 := ⟨i.toNat - 1, by have := i.isLt; omega⟩

/-- No register holds a value (R35 with an empty `InitRegs`). -/
def RegFile.empty : RegFile := ⟨Vector.replicate 31 0#32, Vector.replicate 31 false⟩

/-- `x[i]`; `x[0]` is always zero (R15, R22). -/
def RegFile.read (r : RegFile) (i : RegIdx) : Word := if i = 0#5 then 0#32 else r.values.get (regSlot i)

/-- `x[i]` holds a value; `x[0]` always does (R35, R229). -/
def RegFile.hasValue (r : RegFile) (i : RegIdx) : Bool := if i = 0#5 then true else r.valued.get (regSlot i)

/-- `x[i] <- v`: discarded for `x[0]` (R22), else the register joins `HasValue` (R35). -/
def RegFile.write (r : RegFile) (i : RegIdx) (v : Word) : RegFile :=
  if i = 0#5 then r else ⟨r.values.set (regSlot i) v, r.valued.set (regSlot i) true⟩

/-- The registers of a launch: `InitRegs` over registers that hold no value; the first entry for a register counts
(`70_reset_and_hazards.md` R262). -/
def RegFile.ofList (l : List (RegIdx × Word)) : RegFile :=
  l.foldr (fun e r => r.write e.1 e.2) RegFile.empty

end Sys2Proof.Machine
end

