-- ==== Sys2Proof/Machine/State.lean ====
section
/-! DEFINITION. The state of the machine (`10_state.md` R20, R34), the reasons a step can stop (`60_exceptions.md`
R220 to R229), and the state a run starts from (`70_reset_and_hazards.md` R260 to R263). -/

namespace Sys2Proof.Machine

/-- What an instruction read that holds no value (R229). -/
inductive ReadTarget where
  | reg (i : RegIdx)
  | mem (addr : Word)
  deriving DecidableEq, Repr

/-- The seven faults (R221 to R227). `pc` is the address of the instruction being executed; the last field is R221 to
R227's info. All are terminal and nothing is written (R17, R233). -/
inductive Fault where
  /-- R221: a taken branch, `jal` or `jalr` whose target is not a multiple of 4, or a step whose `pc` is not. Safe. -/
  | instructionAddressMisaligned (pc target : Word)
  /-- R222: the fetch of a step, refused by the platform; info is `pc`. Safe. -/
  | instructionAccessFault (pc addr : Word)
  /-- R223: the fetched word matches no row of the opcode table; info is the word. Safe. -/
  | illegalInstruction (pc inst : Word)
  /-- R224: `lh`, `lhu` at an odd address, `lw` at one that is not a multiple of 4. Safe. -/
  | loadAddressMisaligned (pc addr : Word)
  /-- R225: an aligned load the platform refuses. Safe. -/
  | loadAccessFault (pc addr : Word)
  /-- R226: `sh` at an odd address, `sw` at one that is not a multiple of 4. Safe. -/
  | storeAddressMisaligned (pc addr : Word)
  /-- R227: an aligned store the platform refuses. Safe. -/
  | storeAccessFault (pc addr : Word)
  deriving DecidableEq, Repr

/-- The two refusals of the spec (R228, R229), and the one of the interface. All are terminal, as the faults are. -/
inductive Refusal where
  /-- Raised by an arm of exec whose instruction has no meaning; no arm is such. Safe. -/
  | notModelled (mnemonic : String)
  /-- R228: the fetch of a step covers a byte that a store wrote since the launch; info is `pc`. Safe. -/
  | fetchAfterStore (pc addr : Word)
  /-- R229: a source register, or a byte of a load or a fetch, that holds no value is read. Safe. -/
  | uninitialisedRead (pc : Word) (what : ReadTarget)
  deriving DecidableEq, Repr

/-- A fault record (kind, pc, info): which of the nine faults stopped the hart (R233, R34 (a)). -/
inductive FaultRecord where
  | fault (f : Fault)
  | refusal (r : Refusal)
  deriving DecidableEq, Repr

/-- The state. `regs`, `pc` and `mem` are the hart's (R20); `fault` and `stored` are the spec's bookkeeping (R34);
`memMap` and `exitPc` are the launch parameters `MemAdmits` and `EXIT_PC` (`00_scope.md` R6), which no step changes.
The set `HasValue` is `regs.valued` and the addresses `mem` lists. -/
structure State where
  /-- `x[1]` to `x[31]` (R20, R21) and which of them hold a value (R34). -/
  regs : RegFile
  /-- The address of the instruction being executed (R25). -/
  pc : Word
  /-- `Mem` (R32). -/
  mem : Memory
  /-- `Stored`: the bytes written by a store since the launch (R34 (c), R61). -/
  stored : AddrSet
  /-- The fault record: empty, or what stopped the hart (R34 (a), R233). -/
  fault : Option FaultRecord
  /-- `MemAdmits` (R55). -/
  memMap : MemMap
  /-- `EXIT_PC` (R266). -/
  exitPc : Word
  deriving DecidableEq, Repr

/-- The state at the start of a run (R35, R260 to R263). -/
def State.launch (l : Launch) : State where
  regs := RegFile.ofList l.initRegs
  pc := l.resetPc
  mem := Memory.ofList l.initMem
  stored := []
  fault := none
  memMap := l.memMap
  exitPc := l.exitPc

/-- The machine right after reset: the start of a run under the launch of Config.resetLaunch (entries 1 to 5). -/
def State.reset : State := State.launch Config.resetLaunch

end Sys2Proof.Machine
end

