-- ==== Sys2Proof/Machine/Ops.lean ====
section
/-! DEFINITION. The named operations an instruction's rule is written with: registers (`00_scope.md` R15), `MemRead`
and `MemWrite` (`20_memory.md` R46, R47), the change of `pc` (`10_state.md` R26, R27), and taking an exception
(`60_exceptions.md` R233). An operation that can raise takes what comes after it as its last argument, so that every
check of a rule stands before every write (R17, R234). -/

namespace Sys2Proof.Machine

/-- The outcome of a step. -/
abbrev Result := Host.Outcome State Fault Refusal

/-- Taking an exception: `raise F(info)`. The step ends at once with the record (F, pc, info) and writes nothing else;
control goes nowhere (R17, R220, R233). The seven faults are the outcome fault, the two refusals the outcome refused, as
R220 allows. There is no return from an exception (R235). -/
def raise : FaultRecord → Result
  | .fault f => .fault f
  | .refusal r => .refused r

/-- `fault <- (F, pc, info)`, every other part of the state as before; a record already there is never overwritten
(R233). -/
def State.recordFault (s : State) (r : FaultRecord) : State :=
  match s.fault with
  | none => { s with fault := some r }
  | some _ => s

/-- `x[i]` (R15). -/
def State.reg (s : State) (i : RegIdx) : Word := s.regs.read i

/-- `x[i]` holds a value (R34, R35). -/
def State.hasReg (s : State) (i : RegIdx) : Bool := s.regs.hasValue i

/-- `x[i] <- v` (R15, R22). -/
def State.setReg (s : State) (i : RegIdx) (v : Word) : State := { s with regs := s.regs.write i v }

/-- `pc <- t`. -/
def State.setPc (s : State) (t : Word) : State := { s with pc := t }

/-- `pc <- pc + 4` modulo 2^32 (R26, R28). -/
def State.advance (s : State) : State := s.setPc (s.pc + 4#32)

/-- The value of source register `i`, or `UninitialisedRead(reg i)` (R229, R35). -/
def readReg (s : State) (i : RegIdx) (k : Word → Result) : Result :=
  if s.hasReg i then k (s.reg i) else raise (.refusal (.uninitialisedRead s.pc (.reg i)))

/-- `MemRead(addr, n)` (R46): alignment, then `MemAdmits`, then `HasValue`, then the value that `get` reads. -/
def memRead {w : Nat} (s : State) (addr : Word) (n : AccessSize) (get : Memory → Nat → Option (BitVec w))
    (k : BitVec w → Result) : Result :=
  if aligned addr n then
    if memAdmits s.memMap addr n .load then
      match get s.mem addr.toNat with
      | some v => k v
      | none => raise (.refusal (.uninitialisedRead s.pc (.mem addr)))
    else raise (.fault (.loadAccessFault s.pc addr))
  else raise (.fault (.loadAddressMisaligned s.pc addr))

/-- The bytes written from `addr` on, and those addresses in `Stored` (R47 step 3). -/
def State.storeBytes (s : State) (addr : Word) (bytes : List Byte) : State :=
  { s with
    mem := Memory.writeBytes s.mem addr.toNat bytes
    stored := AddrSet.addRange s.stored addr.toNat bytes.length }

/-- `MemWrite(addr, n, v)` (R47), `bytes` the n bytes of v, lowest address first: alignment, then `MemAdmits`, then the
writes. -/
def memWrite (s : State) (addr : Word) (n : AccessSize) (bytes : List Byte) (k : State → Result) : Result :=
  if aligned addr n then
    if memAdmits s.memMap addr n .store then k (s.storeBytes addr bytes)
    else raise (.fault (.storeAccessFault s.pc addr))
  else raise (.fault (.storeAddressMisaligned s.pc addr))

/-- `pc <- t` if `t` is a multiple of 4, else `InstructionAddressMisaligned(t)` (R27, R177, R183). -/
def jumpTo (s : State) (t : Word) : Result :=
  if aligned t .word then .next (s.setPc t) else raise (.fault (.instructionAddressMisaligned s.pc t))

/-- The common rule of the ten R-type instructions: `x[rd] <- f(x[rs1], x[rs2]); pc <- pc + 4` (`40_r_type_alu.md` R110). -/
def aluReg (f : Word → Word → Word) (rd rs1 rs2 : RegIdx) (s : State) : Result :=
  readReg s rs1 fun a => readReg s rs2 fun b => .next (s.setReg rd (f a b)).advance

/-- The common rule of the nine I-type arithmetic instructions: `x[rd] <- f(x[rs1]); pc <- pc + 4` (`41_i_type_alu.md`
R130). -/
def aluImm (f : Word → Word) (rd rs1 : RegIdx) (s : State) : Result :=
  readReg s rs1 fun a => .next (s.setReg rd (f a)).advance

/-- The common rule of the five loads (`42_loads.md` R150): the access is made whatever `rd` is. -/
def loadInto {w : Nat} (n : AccessSize) (get : Memory → Nat → Option (BitVec w)) (ext : BitVec w → Word)
    (rd rs1 : RegIdx) (imm : BitVec 12) (s : State) : Result :=
  readReg s rs1 fun base =>
    memRead s (loadAddress base imm) n get fun v => .next (s.setReg rd (ext v)).advance

/-- The common rule of the three stores (`43_stores.md` R160). -/
def storeFrom (n : AccessSize) (bytesOf : Word → List Byte) (rs1 rs2 : RegIdx) (imm : BitVec 12) (s : State) : Result :=
  readReg s rs1 fun base => readReg s rs2 fun v =>
    memWrite s (storeAddress base imm) n (bytesOf v) fun t => .next t.advance

/-- The common rule of the six branches (`44_branches.md` R170): taken, `pc <- BTA`; else `pc <- pc + 4`. -/
def branchIf (cond : Word → Word → Bool) (rs1 rs2 : RegIdx) (offset : BitVec 13) (s : State) : Result :=
  readReg s rs1 fun a => readReg s rs2 fun b =>
    if cond a b then jumpTo s (branchTarget s.pc offset) else .next s.advance

/-- The common end of the two jumps: the link value `pc + 4` to `x[rd]` and `pc <- t`; a misaligned target raises and
writes neither (`45_jumps.md` R180 to R183). -/
def linkAndJump (rd : RegIdx) (t : Word) (s : State) : Result :=
  jumpTo (s.setReg rd (s.pc + 4#32)) t

/-- The common end of the two upper-immediate instructions: `x[rd] <- v; pc <- pc + 4` (`46_upper_immediate.md`). -/
def writeAndAdvance (rd : RegIdx) (v : Word) (s : State) : Result :=
  .next (s.setReg rd v).advance

end Sys2Proof.Machine
end

