-- ==== Sys2Proof/Machine/AluImm.lean ====
section
/-! DEFINITION. The nine register-immediate instructions (`41_i_type_alu.md`). -/

namespace Sys2Proof.Machine

/-- `addi rd, rs1, imm`: `x[rd] <- x[rs1] + imm_I` (R131). -/
def execAddi (rd rs1 : RegIdx) (imm : BitVec 12) (s : State) : Result :=
  aluImm (fun a => a + immI imm) rd rs1 s

/-- `slti rd, rs1, imm`: `x[rd] <- bool(x[rs1] <s imm_I)` (R132). -/
def execSlti (rd rs1 : RegIdx) (imm : BitVec 12) (s : State) : Result :=
  aluImm (fun a => boolWord (ltSigned a (immI imm))) rd rs1 s

/-- `sltiu rd, rs1, imm`: `x[rd] <- bool(x[rs1] <u imm_I)`, the immediate sign-extended first (R133). -/
def execSltiu (rd rs1 : RegIdx) (imm : BitVec 12) (s : State) : Result :=
  aluImm (fun a => boolWord (ltUnsigned a (immI imm))) rd rs1 s

/-- `xori rd, rs1, imm`: `x[rd] <- x[rs1] ^ imm_I` (R134). -/
def execXori (rd rs1 : RegIdx) (imm : BitVec 12) (s : State) : Result :=
  aluImm (fun a => a ^^^ immI imm) rd rs1 s

/-- `ori rd, rs1, imm`: `x[rd] <- x[rs1] | imm_I` (R135). -/
def execOri (rd rs1 : RegIdx) (imm : BitVec 12) (s : State) : Result :=
  aluImm (fun a => a ||| immI imm) rd rs1 s

/-- `andi rd, rs1, imm`: `x[rd] <- x[rs1] & imm_I` (R136). -/
def execAndi (rd rs1 : RegIdx) (imm : BitVec 12) (s : State) : Result :=
  aluImm (fun a => a &&& immI imm) rd rs1 s

/-- `slli rd, rs1, uimm`: `x[rd] <- x[rs1] << uimm` (R137). -/
def execSlli (rd rs1 : RegIdx) (uimm : BitVec 5) (s : State) : Result :=
  aluImm (fun a => shiftLeft a uimm) rd rs1 s

/-- `srli rd, rs1, uimm`: `x[rd] <- x[rs1] >>u uimm` (R138). -/
def execSrli (rd rs1 : RegIdx) (uimm : BitVec 5) (s : State) : Result :=
  aluImm (fun a => shiftRightLogical a uimm) rd rs1 s

/-- `srai rd, rs1, uimm`: `x[rd] <- x[rs1] >>s uimm` (R139). -/
def execSrai (rd rs1 : RegIdx) (uimm : BitVec 5) (s : State) : Result :=
  aluImm (fun a => shiftRightArith a uimm) rd rs1 s

end Sys2Proof.Machine
end

