-- ==== Sys2Proof/Machine/AluReg.lean ====
section
/-! DEFINITION. The ten register-register instructions (`40_r_type_alu.md`). -/

namespace Sys2Proof.Machine

/-- `add rd, rs1, rs2`: `x[rd] <- x[rs1] + x[rs2]` (R111). -/
def execAdd (rd rs1 rs2 : RegIdx) (s : State) : Result :=
  aluReg (fun a b => a + b) rd rs1 rs2 s

/-- `sub rd, rs1, rs2`: `x[rd] <- x[rs1] - x[rs2]` (R112). -/
def execSub (rd rs1 rs2 : RegIdx) (s : State) : Result :=
  aluReg (fun a b => a - b) rd rs1 rs2 s

/-- `sll rd, rs1, rs2`: `x[rd] <- x[rs1] << x[rs2][4:0]` (R113). -/
def execSll (rd rs1 rs2 : RegIdx) (s : State) : Result :=
  aluReg (fun a b => shiftLeft a (shiftAmount b)) rd rs1 rs2 s

/-- `slt rd, rs1, rs2`: `x[rd] <- bool(x[rs1] <s x[rs2])` (R114). -/
def execSlt (rd rs1 rs2 : RegIdx) (s : State) : Result :=
  aluReg (fun a b => boolWord (ltSigned a b)) rd rs1 rs2 s

/-- `sltu rd, rs1, rs2`: `x[rd] <- bool(x[rs1] <u x[rs2])` (R115). -/
def execSltu (rd rs1 rs2 : RegIdx) (s : State) : Result :=
  aluReg (fun a b => boolWord (ltUnsigned a b)) rd rs1 rs2 s

/-- `xor rd, rs1, rs2`: `x[rd] <- x[rs1] ^ x[rs2]` (R116). -/
def execXor (rd rs1 rs2 : RegIdx) (s : State) : Result :=
  aluReg (fun a b => a ^^^ b) rd rs1 rs2 s

/-- `srl rd, rs1, rs2`: `x[rd] <- x[rs1] >>u x[rs2][4:0]` (R117). -/
def execSrl (rd rs1 rs2 : RegIdx) (s : State) : Result :=
  aluReg (fun a b => shiftRightLogical a (shiftAmount b)) rd rs1 rs2 s

/-- `sra rd, rs1, rs2`: `x[rd] <- x[rs1] >>s x[rs2][4:0]` (R118). -/
def execSra (rd rs1 rs2 : RegIdx) (s : State) : Result :=
  aluReg (fun a b => shiftRightArith a (shiftAmount b)) rd rs1 rs2 s

/-- `or rd, rs1, rs2`: `x[rd] <- x[rs1] | x[rs2]` (R119). -/
def execOr (rd rs1 rs2 : RegIdx) (s : State) : Result :=
  aluReg (fun a b => a ||| b) rd rs1 rs2 s

/-- `and rd, rs1, rs2`: `x[rd] <- x[rs1] & x[rs2]` (R120). -/
def execAnd (rd rs1 rs2 : RegIdx) (s : State) : Result :=
  aluReg (fun a b => a &&& b) rd rs1 rs2 s

end Sys2Proof.Machine
end

