-- ==== Sys2Proof/Machine/Branch.lean ====
section
/-! DEFINITION. The six conditional branches (`44_branches.md`). -/

namespace Sys2Proof.Machine

/-- `beq rs1, rs2, label`: branch if equal (R171). -/
def execBeq (rs1 rs2 : RegIdx) (offset : BitVec 13) (s : State) : Result :=
  branchIf eqWords rs1 rs2 offset s

/-- `bne rs1, rs2, label`: branch if not equal (R172). -/
def execBne (rs1 rs2 : RegIdx) (offset : BitVec 13) (s : State) : Result :=
  branchIf neWords rs1 rs2 offset s

/-- `blt rs1, rs2, label`: branch if less than, signed (R173). -/
def execBlt (rs1 rs2 : RegIdx) (offset : BitVec 13) (s : State) : Result :=
  branchIf ltSigned rs1 rs2 offset s

/-- `bge rs1, rs2, label`: branch if greater than or equal, signed (R174). -/
def execBge (rs1 rs2 : RegIdx) (offset : BitVec 13) (s : State) : Result :=
  branchIf geSigned rs1 rs2 offset s

/-- `bltu rs1, rs2, label`: branch if less than, unsigned (R175). -/
def execBltu (rs1 rs2 : RegIdx) (offset : BitVec 13) (s : State) : Result :=
  branchIf ltUnsigned rs1 rs2 offset s

/-- `bgeu rs1, rs2, label`: branch if greater than or equal, unsigned (R176). -/
def execBgeu (rs1 rs2 : RegIdx) (offset : BitVec 13) (s : State) : Result :=
  branchIf geUnsigned rs1 rs2 offset s

end Sys2Proof.Machine
end

