-- ==== Sys2Proof/Machine/Jump.lean ====
section
/-! DEFINITION. The two unconditional jumps (`45_jumps.md`). -/

namespace Sys2Proof.Machine

/-- `jal rd, label`: `t <- pc + imm_J; x[rd] <- pc + 4; pc <- t` (R180). -/
def execJal (rd : RegIdx) (offset : BitVec 21) (s : State) : Result :=
  linkAndJump rd (jalTarget s.pc offset) s

/-- `jalr rd, rs1, imm`: `t <- x[rs1] + imm_I; x[rd] <- pc + 4; pc <- t` (R181). The base is read before the link is
written. -/
def execJalr (rd rs1 : RegIdx) (imm : BitVec 12) (s : State) : Result :=
  readReg s rs1 fun base => linkAndJump rd (jalrTarget base imm) s

end Sys2Proof.Machine
end

