-- ==== Sys2Proof/Machine/Load.lean ====
section
/-! DEFINITION. The five loads (`42_loads.md`). -/

namespace Sys2Proof.Machine

/-- `lb rd, imm(rs1)`: load byte, sign-extended (R151). -/
def execLb (rd rs1 : RegIdx) (imm : BitVec 12) (s : State) : Result :=
  loadInto .byte Memory.readByte signExtByte rd rs1 imm s

/-- `lh rd, imm(rs1)`: load half, sign-extended (R152). -/
def execLh (rd rs1 : RegIdx) (imm : BitVec 12) (s : State) : Result :=
  loadInto .half Memory.readHalf signExtHalf rd rs1 imm s

/-- `lw rd, imm(rs1)`: load word (R153). -/
def execLw (rd rs1 : RegIdx) (imm : BitVec 12) (s : State) : Result :=
  loadInto .word Memory.readWord (fun v => v) rd rs1 imm s

/-- `lbu rd, imm(rs1)`: load byte, zero-extended (R154). -/
def execLbu (rd rs1 : RegIdx) (imm : BitVec 12) (s : State) : Result :=
  loadInto .byte Memory.readByte zeroExtByte rd rs1 imm s

/-- `lhu rd, imm(rs1)`: load half, zero-extended (R155). -/
def execLhu (rd rs1 : RegIdx) (imm : BitVec 12) (s : State) : Result :=
  loadInto .half Memory.readHalf zeroExtHalf rd rs1 imm s

end Sys2Proof.Machine
end

