-- ==== Sys2Proof/Machine/Store.lean ====
section
/-! DEFINITION. The three stores (`43_stores.md`). -/

namespace Sys2Proof.Machine

/-- `sb rs2, imm(rs1)`: store byte (R161). -/
def execSb (rs1 rs2 : RegIdx) (imm : BitVec 12) (s : State) : Result :=
  storeFrom .byte storeByteOf rs1 rs2 imm s

/-- `sh rs2, imm(rs1)`: store half (R162). -/
def execSh (rs1 rs2 : RegIdx) (imm : BitVec 12) (s : State) : Result :=
  storeFrom .half storeHalfOf rs1 rs2 imm s

/-- `sw rs2, imm(rs1)`: store word (R163). -/
def execSw (rs1 rs2 : RegIdx) (imm : BitVec 12) (s : State) : Result :=
  storeFrom .word storeWordOf rs1 rs2 imm s

end Sys2Proof.Machine
end

