-- ==== Sys2Proof/Machine/Upper.lean ====
section
/-! DEFINITION. The two upper-immediate instructions (`46_upper_immediate.md`). -/

namespace Sys2Proof.Machine

/-- `lui rd, upimm`: `x[rd] <- {upimm, 12'b0}` (R190). -/
def execLui (rd : RegIdx) (upimm : BitVec 20) (s : State) : Result :=
  writeAndAdvance rd (immU upimm) s

/-- `auipc rd, upimm`: `x[rd] <- pc + {upimm, 12'b0}`, with the `pc` of the instruction itself (R191). -/
def execAuipc (rd : RegIdx) (upimm : BitVec 20) (s : State) : Result :=
  writeAndAdvance rd (s.pc + immU upimm) s

end Sys2Proof.Machine
end

