-- ==== Sys2Proof/Machine/Fetch.lean ====
section
/-! DEFINITION. The fetch side of a step: the check of `pc`, `Fetch` (`20_memory.md` R48) and decoding (`00_scope.md`
R18), in the order of `60_exceptions.md` R232 (1) to (5). -/

namespace Sys2Proof.Machine

/-- The instruction word at `pc` (R18, R48): alignment of `pc`, `MemAdmits`, `Stored`, `HasValue`. -/
def fetch (s : State) (k : Word → Result) : Result :=
  if aligned s.pc .word then
    if memAdmits s.memMap s.pc .word .fetch then
      if AddrSet.meets s.stored s.pc.toNat 4 then raise (.refusal (.fetchAfterStore s.pc s.pc))
      else
        match Memory.readWord s.mem s.pc.toNat with
        | some inst => k inst
        | none => raise (.refusal (.uninitialisedRead s.pc (.mem s.pc)))
    else raise (.fault (.instructionAccessFault s.pc s.pc))
  else raise (.fault (.instructionAddressMisaligned s.pc s.pc))

/-- The instruction at `pc`, or `IllegalInstruction(inst)` when the word matches no row (R18, R91, R223). -/
def fetchInstr (s : State) (k : Instr → Result) : Result :=
  fetch s fun inst =>
    match decode inst with
    | .ok i => k i
    | .error _ => raise (.fault (.illegalInstruction s.pc inst))

/-- The bytes of a word placed at `pc` as a launch places them: they hold a value and no store wrote them (R44, R264). -/
def placeAtPc (s : State) (word : Word) : State :=
  { s with
    mem := Memory.writeBytes s.mem s.pc.toNat (wordBytes word)
    stored := AddrSet.dropRange s.stored s.pc.toNat 4 }

end Sys2Proof.Machine
end

