-- ==== Sys2Proof/Machine/Step.lean ====
section
/-! DEFINITION. One step of the hart (`00_scope.md` R18). -/

namespace Sys2Proof.Machine

/-- One step: a state with a fault record takes none and stays stopped for the recorded reason (`60_exceptions.md`
R233); else fetch, decode and evaluate the instruction's rule (R18). `EXIT_PC` is a convention about runs, not about the
hart, and Machine/Run.lean applies it (`70_reset_and_hazards.md` R266, R267; entry 5). -/
def step (s : State) : Host.Outcome State Fault Refusal :=
  match s.fault with
  | some r => raise r
  | none => fetchInstr s fun i => exec i s

/-- `s` with an instruction stored where its next fetch reads: the low `nbits` bits of `w`, zeros above (entry 7). -/
def State.withFetchWord (s : State) (nbits w : Nat) : State := placeAtPc s (tableWord nbits w)

end Sys2Proof.Machine
end

