-- ==== Sys2Proof/Machine/Pseudo.lean ====
section
/-! DEFINITION. The three assembler pseudo-instructions and their expansions (`47_pseudo_instructions.md`). They have no
encoding of their own: the hart only sees what they expand to (R200). -/

namespace Sys2Proof.Machine

/-- `lo(v) = v[11:0]` (R204). -/
def loPart (v : Word) : BitVec 12 := v.extractLsb' 0 12

/-- `hi(v) = (v + 0x00000800)[31:12]`, pre-incremented when bit 11 of `v` is set (R204). -/
def hiPart (v : Word) : BitVec 20 := (v + 0x00000800#32).extractLsb' 12 20

/-- `j label` is `jal x0, label` (R201). -/
def expandJ (offset : BitVec 21) : List Instr := [.jal 0#5 offset]

/-- `li rd, C` is `lui rd, hi(C)` then `addi rd, rd, lo(C)`, always both (R202). -/
def expandLi (rd : RegIdx) (c : Word) : List Instr := [.lui rd (hiPart c), .addi rd rd (loPart c)]

/-- `call label` is `auipc ra, hi(d)` then `jalr ra, ra, lo(d)`, `d` measured from the `auipc` (R203, R205). -/
def expandCall (d : Word) : List Instr := [.auipc 1#5 (hiPart d), .jalr 1#5 1#5 (loPart d)]

end Sys2Proof.Machine
end

