-- ==== Sys2Proof/Machine/Assembler.lean ====
section
/-! DEFINITION. The assembly language of the source (`30_encoding.md` section 6, R96 to R102): lines of text to
statements, statements at addresses to instructions. A fact about the assembler, not about the hart. Text is a list of
characters. What the spec does not fix of the text (white space, what a name may hold) is entry 19. -/

namespace Sys2Proof.Machine

/-- The second names of the registers (`10_state.md` R23; those without an example are the spec's G1, UNVERIFIED,
entry 18). -/
def registerNames : List (List Char × RegIdx) :=
  [("zero".toList, 0), ("ra".toList, 1), ("sp".toList, 2), ("gp".toList, 3), ("tp".toList, 4), ("t0".toList, 5),
   ("t1".toList, 6), ("t2".toList, 7), ("s0".toList, 8), ("fp".toList, 8), ("s1".toList, 9), ("a0".toList, 10),
   ("a1".toList, 11), ("a2".toList, 12), ("a3".toList, 13), ("a4".toList, 14), ("a5".toList, 15), ("a6".toList, 16),
   ("a7".toList, 17), ("s2".toList, 18), ("s3".toList, 19), ("s4".toList, 20), ("s5".toList, 21), ("s6".toList, 22),
   ("s7".toList, 23), ("s8".toList, 24), ("s9".toList, 25), ("s10".toList, 26), ("s11".toList, 27), ("t3".toList, 28),
   ("t4".toList, 29), ("t5".toList, 30), ("t6".toList, 31)]

/-- What a mnemonic of the assembler names: a row of the opcode table or one of the three pseudo-instructions (R102). -/
inductive AsmOp where
  | row (m : Mnemonic)
  | j
  | li
  | call
  deriving DecidableEq, Repr

/-- The mnemonics in lower case (R89, R96, R102). -/
def mnemonicNames : List (List Char × AsmOp) :=
  [("lb".toList, .row .lb), ("lh".toList, .row .lh), ("lw".toList, .row .lw), ("lbu".toList, .row .lbu),
   ("lhu".toList, .row .lhu), ("addi".toList, .row .addi), ("slli".toList, .row .slli), ("slti".toList, .row .slti),
   ("sltiu".toList, .row .sltiu), ("xori".toList, .row .xori), ("srli".toList, .row .srli), ("srai".toList, .row .srai),
   ("ori".toList, .row .ori), ("andi".toList, .row .andi), ("auipc".toList, .row .auipc), ("sb".toList, .row .sb),
   ("sh".toList, .row .sh), ("sw".toList, .row .sw), ("add".toList, .row .add), ("sub".toList, .row .sub),
   ("sll".toList, .row .sll), ("slt".toList, .row .slt), ("sltu".toList, .row .sltu), ("xor".toList, .row .xor),
   ("srl".toList, .row .srl), ("sra".toList, .row .sra), ("or".toList, .row .or), ("and".toList, .row .and),
   ("lui".toList, .row .lui), ("beq".toList, .row .beq), ("bne".toList, .row .bne), ("blt".toList, .row .blt),
   ("bge".toList, .row .bge), ("bltu".toList, .row .bltu), ("bgeu".toList, .row .bgeu), ("jalr".toList, .row .jalr),
   ("jal".toList, .row .jal), ("j".toList, .j), ("li".toList, .li), ("call".toList, .call)]

/-- An operand: a register, a number, a base and displacement `imm(rs1)`, or a label (R97 to R100). -/
inductive AsmOperand where
  | reg (i : RegIdx)
  | num (v : Int)
  | based (off : Int) (base : RegIdx)
  | label (name : List Char)
  deriving DecidableEq, Repr

/-- A line: a label before the instruction, and an instruction (R96). That either, or both, may be absent is the model's:
DESIGN CHOICE, unsafe for claims about text; entry 24. -/
structure AsmLine where
  label : Option (List Char)
  instr : Option (AsmOp × List AsmOperand)
  deriving DecidableEq, Repr

/-! ### Text -/

/-- A blank of a line of text. DESIGN CHOICE, unsafe for claims about text; entry 19. -/
def isBlank (c : Char) : Bool := c == ' ' || c == '\t'

/-- The text without blanks at either end. -/
def trimBlanks (t : List Char) : List Char := ((t.dropWhile isBlank).reverse.dropWhile isBlank).reverse

/-- The value of a digit, decimal or hexadecimal, of a lower-case text. -/
def digitValue (c : Char) : Option Nat :=
  if '0' ≤ c ∧ c ≤ '9' then some (c.toNat - '0'.toNat)
  else if 'a' ≤ c ∧ c ≤ 'f' then some (c.toNat - 'a'.toNat + 10)
  else none

/-- The number that a text of digits writes in a base, on top of what stood before. -/
def digitsValue (base : Nat) : Nat → List Char → Option Nat
  | acc, [] => some acc
  | acc, c :: t =>
    match digitValue c with
    | some d => if d < base then digitsValue base (acc * base + d) t else none
    | none => none

/-- An unsigned number, hexadecimal after `0x` (R98). -/
def parseNat (t : List Char) : Option Nat :=
  match t with
  | [] => none
  | '0' :: 'x' :: [] => none
  | '0' :: 'x' :: d :: ds => digitsValue 16 0 (d :: ds)
  | d :: ds => digitsValue 10 0 (d :: ds)

/-- A number with an optional minus sign (R98). -/
def parseInt (t : List Char) : Option Int :=
  match t with
  | '-' :: d => (parseNat d).map fun n => -(n : Int)
  | d => (parseNat d).map fun n => (n : Int)

/-- A register, `x0` to `x31` or a second name (R100). -/
def parseRegister (t : List Char) : Option RegIdx :=
  match registerNames.lookup t with
  | some i => some i
  | none =>
    match t with
    | 'x' :: d :: ds =>
      if d == '0' && !ds.isEmpty then none
      else
        match digitsValue 10 0 (d :: ds) with
        | some n => if n < 32 then some (BitVec.ofNat 5 n) else none
        | none => none
    | _ => none

/-- `imm(rs1)`: a displacement and a base in parentheses (R97, R100). -/
def parseBased (t : List Char) : Option (Int × RegIdx) :=
  let off := trimBlanks (t.takeWhile (· != '('))
  match (t.dropWhile (· != '(')) with
  | '(' :: rest =>
    match rest.reverse with
    | ')' :: inner =>
      match parseInt off, parseRegister (trimBlanks inner.reverse) with
      | some v, some i => some (v, i)
      | _, _ => none
    | _ => none
  | _ => none

/-- An operand of a statement, its text in lower case; what is none of the other forms is a label (R97 to R100). -/
def parseOperand (t : List Char) : Option AsmOperand :=
  match t with
  | [] => none
  | _ =>
    match parseRegister t with
    | some i => some (.reg i)
    | none =>
      match parseInt t with
      | some v => some (.num v)
      | none =>
        match parseBased t with
        | some (v, i) => some (.based v i)
        | none => some (.label t)

/-- Every operand, or none if one cannot be read. -/
def parseOperands : List (List Char) → Option (List AsmOperand)
  | [] => some []
  | t :: ts =>
    match parseOperand (trimBlanks t), parseOperands ts with
    | some o, some os => some (o :: os)
    | _, _ => none

/-- The instruction of a line: a mnemonic, then operands separated by commas (R96). -/
def parseInstr (t : List Char) : Option (AsmOp × List AsmOperand) :=
  let rest := trimBlanks (t.dropWhile fun c => !isBlank c)
  match mnemonicNames.lookup (t.takeWhile fun c => !isBlank c) with
  | none => none
  | some op =>
    match (if rest.isEmpty then some [] else parseOperands (rest.splitOn ',')) with
    | some os => some (op, os)
    | none => none

/-- A line of text: case is not significant, `#` starts a comment, a name and a colon stand before the instruction
(R96). A line that holds only a label, only a comment, or nothing is accepted too, which R96 does not say: DESIGN CHOICE,
unsafe for claims about text; entry 24. -/
def parseLine (line : List Char) : Option AsmLine :=
  let text := trimBlanks ((line.takeWhile (· != '#')).map Char.toLower)
  let before := trimBlanks (text.takeWhile (· != ':'))
  let hasLabel := text.contains ':'
  let body := if hasLabel then trimBlanks ((text.dropWhile (· != ':')).drop 1) else text
  if hasLabel && before.isEmpty then none
  else
    let label := if hasLabel then some before else none
    if body.isEmpty then some ⟨label, none⟩
    else
      match parseInstr body with
      | some i => some ⟨label, some i⟩
      | none => none

/-! ### Operands to fields -/

/-- A 12-bit immediate: a value in -2048 to 2047 or a 12-bit pattern up to 4095, the field `v[11:0]` (R98). -/
def asmImm12 (v : Int) : Option (BitVec 12) :=
  if -2048 ≤ v ∧ v ≤ 4095 then some (BitVec.ofInt 12 v) else none

/-- A shift amount, 0 to 31 (R98). -/
def asmUimm (v : Int) : Option (BitVec 5) := if 0 ≤ v ∧ v ≤ 31 then some (BitVec.ofInt 5 v) else none

/-- The 20-bit field of a U-type operand, 0 to 0xFFFFF (R98). -/
def asmUpimm (v : Int) : Option (BitVec 20) := if 0 ≤ v ∧ v ≤ 0xFFFFF then some (BitVec.ofInt 20 v) else none

/-- The constant of `li`: any 32-bit pattern (R202), written signed or unsigned. DESIGN CHOICE, unsafe for claims about
text; entry 19. -/
def asmConst (v : Int) : Option Word :=
  if -2147483648 ≤ v ∧ v ≤ 4294967295 then some (BitVec.ofInt 32 v) else none

/-- The address of a label in the list of those defined. -/
def labelAddress (labels : List (List Char × Word)) (name : List Char) : Option Word := labels.lookup name

/-- The byte difference a branch or jump operand stands for: a label minus the instruction's own address, or a number
of bytes as it is (R99). The difference is taken modulo 2^32: DESIGN CHOICE, unsafe for claims about text; entry 19. -/
def asmOffset (labels : List (List Char × Word)) (pc : Word) : AsmOperand → Option Int
  | .label name => (labelAddress labels name).map fun a => (a - pc).toInt
  | .num v => some v
  | .reg _ => none
  | .based _ _ => none

/-- A branch offset: even and in -4096 to 4094, else an assembler error (R83, R99). -/
def asmBranchOffset (labels : List (List Char × Word)) (pc : Word) (o : AsmOperand) : Option (BitVec 13) :=
  match asmOffset labels pc o with
  | some v => if v % 2 = 0 ∧ -4096 ≤ v ∧ v ≤ 4094 then some (BitVec.ofInt 13 v) else none
  | none => none

/-- A `jal` offset: even and in -1048576 to 1048574, else an assembler error (R85, R99). -/
def asmJalOffset (labels : List (List Char × Word)) (pc : Word) (o : AsmOperand) : Option (BitVec 21) :=
  match asmOffset labels pc o with
  | some v => if v % 2 = 0 ∧ -1048576 ≤ v ∧ v ≤ 1048574 then some (BitVec.ofInt 21 v) else none
  | none => none

/-! ### Statements to instructions -/

/-- `op rd, rs1, rs2` (R97). -/
def asmReg3 (mk : RegIdx → RegIdx → RegIdx → Instr) : List AsmOperand → Option (List Instr)
  | [.reg rd, .reg rs1, .reg rs2] => some [mk rd rs1 rs2]
  | _ => none

/-- `op rd, rs1, imm` (R97). -/
def asmReg2Imm (mk : RegIdx → RegIdx → BitVec 12 → Instr) : List AsmOperand → Option (List Instr)
  | [.reg rd, .reg rs1, .num v] => (asmImm12 v).map fun m => [mk rd rs1 m]
  | _ => none

/-- `op rd, rs1, uimm` (R97). -/
def asmShift (mk : RegIdx → RegIdx → BitVec 5 → Instr) : List AsmOperand → Option (List Instr)
  | [.reg rd, .reg rs1, .num v] => (asmUimm v).map fun m => [mk rd rs1 m]
  | _ => none

/-- `op rd, imm(rs1)` of a load (R97). -/
def asmLoad (mk : RegIdx → RegIdx → BitVec 12 → Instr) : List AsmOperand → Option (List Instr)
  | [.reg rd, .based v rs1] => (asmImm12 v).map fun m => [mk rd rs1 m]
  | _ => none

/-- `op rs2, imm(rs1)` of a store: the data register comes first (R97). -/
def asmStore (mk : RegIdx → RegIdx → BitVec 12 → Instr) : List AsmOperand → Option (List Instr)
  | [.reg rs2, .based v rs1] => (asmImm12 v).map fun m => [mk rs1 rs2 m]
  | _ => none

/-- `op rd, upimm` (R97). -/
def asmUpper (mk : RegIdx → BitVec 20 → Instr) : List AsmOperand → Option (List Instr)
  | [.reg rd, .num v] => (asmUpimm v).map fun m => [mk rd m]
  | _ => none

/-- `op rs1, rs2, label` (R97, R99). -/
def asmBranch (labels : List (List Char × Word)) (pc : Word) (mk : RegIdx → RegIdx → BitVec 13 → Instr) :
    List AsmOperand → Option (List Instr)
  | [.reg rs1, .reg rs2, o] => (asmBranchOffset labels pc o).map fun m => [mk rs1 rs2 m]
  | _ => none

/-- `jal rd, label` (R97, R99). -/
def asmJal (labels : List (List Char × Word)) (pc : Word) : List AsmOperand → Option (List Instr)
  | [.reg rd, o] => (asmJalOffset labels pc o).map fun m => [.jal rd m]
  | _ => none

/-- `j label` (R201). -/
def asmJ (labels : List (List Char × Word)) (pc : Word) : List AsmOperand → Option (List Instr)
  | [o] => (asmJalOffset labels pc o).map expandJ
  | _ => none

/-- `li rd, C` (R202). -/
def asmLi : List AsmOperand → Option (List Instr)
  | [.reg rd, .num v] => (asmConst v).map (expandLi rd)
  | _ => none

/-- `call label`: the distance is taken modulo 2^32 from the `auipc` (R203, R205). -/
def asmCall (labels : List (List Char × Word)) (pc : Word) : List AsmOperand → Option (List Instr)
  | [.label name] => (labelAddress labels name).map fun a => expandCall (a - pc)
  | _ => none

/-- The instructions a statement at `pc` stands for, or an assembler error (R97, R102). -/
def assembleInstr (labels : List (List Char × Word)) (pc : Word) (op : AsmOp) (os : List AsmOperand) :
    Option (List Instr) :=
  match op with
  | .row .lb => asmLoad .lb os
  | .row .lh => asmLoad .lh os
  | .row .lw => asmLoad .lw os
  | .row .lbu => asmLoad .lbu os
  | .row .lhu => asmLoad .lhu os
  | .row .addi => asmReg2Imm .addi os
  | .row .slli => asmShift .slli os
  | .row .slti => asmReg2Imm .slti os
  | .row .sltiu => asmReg2Imm .sltiu os
  | .row .xori => asmReg2Imm .xori os
  | .row .srli => asmShift .srli os
  | .row .srai => asmShift .srai os
  | .row .ori => asmReg2Imm .ori os
  | .row .andi => asmReg2Imm .andi os
  | .row .auipc => asmUpper .auipc os
  | .row .sb => asmStore .sb os
  | .row .sh => asmStore .sh os
  | .row .sw => asmStore .sw os
  | .row .add => asmReg3 .add os
  | .row .sub => asmReg3 .sub os
  | .row .sll => asmReg3 .sll os
  | .row .slt => asmReg3 .slt os
  | .row .sltu => asmReg3 .sltu os
  | .row .xor => asmReg3 .xor os
  | .row .srl => asmReg3 .srl os
  | .row .sra => asmReg3 .sra os
  | .row .or => asmReg3 .or os
  | .row .and => asmReg3 .and os
  | .row .lui => asmUpper .lui os
  | .row .beq => asmBranch labels pc .beq os
  | .row .bne => asmBranch labels pc .bne os
  | .row .blt => asmBranch labels pc .blt os
  | .row .bge => asmBranch labels pc .bge os
  | .row .bltu => asmBranch labels pc .bltu os
  | .row .bgeu => asmBranch labels pc .bgeu os
  | .row .jalr => asmReg2Imm .jalr os
  | .row .jal => asmJal labels pc os
  | .j => asmJ labels pc os
  | .li => asmLi os
  | .call => asmCall labels pc os

/-- The bytes a statement occupies: 8 for the two pseudo-instructions that expand to two, else 4 (R70, R205). -/
def asmSize : AsmOp → Word
  | .row _ => 4#32
  | .j => 4#32
  | .li => 8#32
  | .call => 8#32

/-- The labels of a program whose first instruction stands at `pc` (R96, R205). A label on a line of its own stands for
the address of the next instruction, or of the end of the program: DESIGN CHOICE, unsafe for claims about text; entry
24. -/
def labelsFrom : Word → List AsmLine → List (List Char × Word)
  | _, [] => []
  | pc, l :: ls =>
    let here := match l.label with
      | some n => [(n, pc)]
      | none => []
    let next := match l.instr with
      | some (op, _) => pc + asmSize op
      | none => pc
    here ++ labelsFrom next ls

/-- The instructions of the lines from `pc` on, the labels being known. -/
def assembleFrom (labels : List (List Char × Word)) : Word → List AsmLine → Option (List Instr)
  | _, [] => some []
  | pc, l :: ls =>
    match l.instr with
    | none => assembleFrom labels pc ls
    | some (op, os) =>
      match assembleInstr labels pc op os, assembleFrom labels (pc + asmSize op) ls with
      | some is, some rest => some (is ++ rest)
      | _, _ => none

/-- A program of lines that stands at `pc`, as instructions. -/
def assemble (pc : Word) (ls : List AsmLine) : Option (List Instr) := assembleFrom (labelsFrom pc ls) pc ls

/-- Every line read, or none if one cannot be. -/
def parseLines : List (List Char) → Option (List AsmLine)
  | [] => some []
  | t :: ts =>
    match parseLine t, parseLines ts with
    | some l, some ls => some (l :: ls)
    | _, _ => none

/-- A program text that stands at `pc`, as the words of its instructions (R96 to R102). -/
def assembleText (pc : Word) (lines : List (List Char)) : Option (List Word) :=
  match parseLines lines with
  | some ls => (assemble pc ls).map fun is => is.map encode
  | none => none

end Sys2Proof.Machine
end

