-- ==== Sys2Proof/Machine/Run.lean ====
section
/-! DEFINITION. Runs from a launch to `EXIT_PC` (`70_reset_and_hazards.md` R266), what the host may read of one (R268),
how it places a program (R264), and the standard codes as labels (`60_exceptions.md` R230). -/

namespace Sys2Proof.Machine

/-- Where a run is after some number of steps. -/
inductive RunResult where
  /-- A step would begin at `EXIT_PC` with no fault recorded: the final state (R266). -/
  | endedWell (s : State)
  /-- The hart stopped; the state holds the fault record (R233). -/
  | stopped (s : State)
  /-- The steps allowed are used up. -/
  | running (s : State)
  deriving DecidableEq, Repr

/-- A step would begin with `pc = EXIT_PC` and `fault` empty (R266). -/
def State.atEnd (s : State) : Bool := s.fault.isNone && s.pc == s.exitPc

/-- What follows one step: on with the next state, or stopped with the record written and nothing else (R233). -/
def afterStep (s : State) (r : Result) (go : State → RunResult) : RunResult :=
  match r with
  | .next t => go t
  | .fault f => .stopped (s.recordFault (.fault f))
  | .refused e => .stopped (s.recordFault (.refusal e))

/-- At most `k` steps of a run. The instruction at `EXIT_PC` is not fetched and not executed (R266); a state with a
fault record is never the end of a run and takes no step (R233). A launch whose `RESET_PC` and `EXIT_PC` are one value
that is not a multiple of 4 ends well at once, by R266's words, where `92_eei_decisions.md` has its first step fault:
DESIGN CHOICE, unsafe for such a launch; entry 25. -/
def run : Nat → State → RunResult
  | 0, s => if s.fault.isSome then .stopped s else if s.atEnd then .endedWell s else .running s
  | k + 1, s =>
    if s.fault.isSome then .stopped s else if s.atEnd then .endedWell s else afterStep s (step s) (run k)

/-- A register the host reads after the run ended well, if it holds a value; after a fault it relies on none (R268). -/
def RunResult.register : RunResult → RegIdx → Option Word
  | .endedWell s, i => if s.hasReg i then some (s.reg i) else none
  | .stopped _, _ => none
  | .running _, _ => none

/-- A byte the host reads after the run ended well, if it holds a value (R268). -/
def RunResult.byte : RunResult → Word → Option Byte
  | .endedWell s, a => Memory.read s.mem a.toNat
  | .stopped _, _ => none
  | .running _, _ => none

/-- The fault record the host reads after a fault (R268). -/
def RunResult.record : RunResult → Option FaultRecord
  | .stopped s => s.fault
  | .endedWell _ => none
  | .running _ => none

/-- Words placed in `InitMem` from an address on, each as its four bytes (R264 step 2). -/
def placeWords : Word → List Word → List (Word × Byte)
  | _, [] => []
  | a, w :: ws =>
    ([a, a + 1#32, a + 2#32, a + 3#32].zip (wordBytes w)) ++ placeWords (a + 4#32) ws

/-- A launch for a program of words at `start` that is to end at `exit`, over given registers, data and map (R264). -/
def programLaunch (start exit : Word) (words : List Word) (regs : List (RegIdx × Word)) (data : List (Word × Byte))
    (map : MemMap) : Launch where
  resetPc := start
  exitPc := exit
  initRegs := regs
  initMem := placeWords start words ++ data
  memMap := map

/-- The instruction's address in the record of a fault (R233). -/
def Fault.pcOf : Fault → Word
  | .instructionAddressMisaligned pc _ => pc
  | .instructionAccessFault pc _ => pc
  | .illegalInstruction pc _ => pc
  | .loadAddressMisaligned pc _ => pc
  | .loadAccessFault pc _ => pc
  | .storeAddressMisaligned pc _ => pc
  | .storeAccessFault pc _ => pc

/-- The standard exception codes, labels only: no rule reads or writes them (R230; the spec's G6). -/
def Fault.standardCode : Fault → Nat
  | .instructionAddressMisaligned _ _ => 0
  | .instructionAccessFault _ _ => 1
  | .illegalInstruction _ _ => 2
  | .loadAddressMisaligned _ _ => 4
  | .loadAccessFault _ _ => 5
  | .storeAddressMisaligned _ _ => 6
  | .storeAccessFault _ _ => 7

end Sys2Proof.Machine
end

