-- ==== Sys2Proof/Safety.lean ====
section
/-! DEFINITION. The terms the claims are stated in: what an instruction reads and writes (`10_state.md` R24), what a
step leaves unchanged, and the invariant of the machine. -/

namespace Sys2Proof.Machine

/-- The source registers an instruction's rule reads, in the order in which they are checked (R24; `60_exceptions.md`
R232 (6)). -/
def sources : Instr → List RegIdx
  | .lb _ rs1 _ => [rs1]
  | .lh _ rs1 _ => [rs1]
  | .lw _ rs1 _ => [rs1]
  | .lbu _ rs1 _ => [rs1]
  | .lhu _ rs1 _ => [rs1]
  | .addi _ rs1 _ => [rs1]
  | .slli _ rs1 _ => [rs1]
  | .slti _ rs1 _ => [rs1]
  | .sltiu _ rs1 _ => [rs1]
  | .xori _ rs1 _ => [rs1]
  | .srli _ rs1 _ => [rs1]
  | .srai _ rs1 _ => [rs1]
  | .ori _ rs1 _ => [rs1]
  | .andi _ rs1 _ => [rs1]
  | .auipc _ _ => []
  | .sb rs1 rs2 _ => [rs1, rs2]
  | .sh rs1 rs2 _ => [rs1, rs2]
  | .sw rs1 rs2 _ => [rs1, rs2]
  | .add _ rs1 rs2 => [rs1, rs2]
  | .sub _ rs1 rs2 => [rs1, rs2]
  | .sll _ rs1 rs2 => [rs1, rs2]
  | .slt _ rs1 rs2 => [rs1, rs2]
  | .sltu _ rs1 rs2 => [rs1, rs2]
  | .xor _ rs1 rs2 => [rs1, rs2]
  | .srl _ rs1 rs2 => [rs1, rs2]
  | .sra _ rs1 rs2 => [rs1, rs2]
  | .or _ rs1 rs2 => [rs1, rs2]
  | .and _ rs1 rs2 => [rs1, rs2]
  | .lui _ _ => []
  | .beq rs1 rs2 _ => [rs1, rs2]
  | .bne rs1 rs2 _ => [rs1, rs2]
  | .blt rs1 rs2 _ => [rs1, rs2]
  | .bge rs1 rs2 _ => [rs1, rs2]
  | .bltu rs1 rs2 _ => [rs1, rs2]
  | .bgeu rs1 rs2 _ => [rs1, rs2]
  | .jalr _ rs1 _ => [rs1]
  | .jal _ _ => []

/-- The destination register of an instruction; stores and branches have none (R24). -/
def destination : Instr → Option RegIdx
  | .lb rd _ _ => some rd
  | .lh rd _ _ => some rd
  | .lw rd _ _ => some rd
  | .lbu rd _ _ => some rd
  | .lhu rd _ _ => some rd
  | .addi rd _ _ => some rd
  | .slli rd _ _ => some rd
  | .slti rd _ _ => some rd
  | .sltiu rd _ _ => some rd
  | .xori rd _ _ => some rd
  | .srli rd _ _ => some rd
  | .srai rd _ _ => some rd
  | .ori rd _ _ => some rd
  | .andi rd _ _ => some rd
  | .auipc rd _ => some rd
  | .sb _ _ _ => none
  | .sh _ _ _ => none
  | .sw _ _ _ => none
  | .add rd _ _ => some rd
  | .sub rd _ _ => some rd
  | .sll rd _ _ => some rd
  | .slt rd _ _ => some rd
  | .sltu rd _ _ => some rd
  | .xor rd _ _ => some rd
  | .srl rd _ _ => some rd
  | .sra rd _ _ => some rd
  | .or rd _ _ => some rd
  | .and rd _ _ => some rd
  | .lui rd _ => some rd
  | .beq _ _ _ => none
  | .bne _ _ _ => none
  | .blt _ _ _ => none
  | .bge _ _ _ => none
  | .bltu _ _ _ => none
  | .bgeu _ _ _ => none
  | .jalr rd _ _ => some rd
  | .jal rd _ => some rd

/-- Where a load reads and how many bytes; `none` for every other instruction (`20_memory.md` R51, R52). -/
def loadAccess (i : Instr) (s : State) : Option (Word × AccessSize) :=
  match i with
  | .lb _ rs1 imm => some (loadAddress (s.reg rs1) imm, .byte)
  | .lh _ rs1 imm => some (loadAddress (s.reg rs1) imm, .half)
  | .lw _ rs1 imm => some (loadAddress (s.reg rs1) imm, .word)
  | .lbu _ rs1 imm => some (loadAddress (s.reg rs1) imm, .byte)
  | .lhu _ rs1 imm => some (loadAddress (s.reg rs1) imm, .half)
  | .sb _ _ _ | .sh _ _ _ | .sw _ _ _ => none
  | .addi _ _ _ | .slli _ _ _ | .slti _ _ _ | .sltiu _ _ _ | .xori _ _ _ | .srli _ _ _ | .srai _ _ _ | .ori _ _ _
  | .andi _ _ _ | .auipc _ _ | .lui _ _ => none
  | .add _ _ _ | .sub _ _ _ | .sll _ _ _ | .slt _ _ _ | .sltu _ _ _ | .xor _ _ _ | .srl _ _ _ | .sra _ _ _ | .or _ _ _
  | .and _ _ _ => none
  | .beq _ _ _ | .bne _ _ _ | .blt _ _ _ | .bge _ _ _ | .bltu _ _ _ | .bgeu _ _ _ | .jalr _ _ _ | .jal _ _ => none

/-- Where a store writes and how many bytes; `none` for every other instruction (R51, R52). -/
def storeAccess (i : Instr) (s : State) : Option (Word × AccessSize) :=
  match i with
  | .sb rs1 _ imm => some (storeAddress (s.reg rs1) imm, .byte)
  | .sh rs1 _ imm => some (storeAddress (s.reg rs1) imm, .half)
  | .sw rs1 _ imm => some (storeAddress (s.reg rs1) imm, .word)
  | .lb _ _ _ | .lh _ _ _ | .lw _ _ _ | .lbu _ _ _ | .lhu _ _ _ => none
  | .addi _ _ _ | .slli _ _ _ | .slti _ _ _ | .sltiu _ _ _ | .xori _ _ _ | .srli _ _ _ | .srai _ _ _ | .ori _ _ _
  | .andi _ _ _ | .auipc _ _ | .lui _ _ => none
  | .add _ _ _ | .sub _ _ _ | .sll _ _ _ | .slt _ _ _ | .sltu _ _ _ | .xor _ _ _ | .srl _ _ _ | .sra _ _ _ | .or _ _ _
  | .and _ _ _ => none
  | .beq _ _ _ | .bne _ _ _ | .blt _ _ _ | .bge _ _ _ | .bltu _ _ _ | .bgeu _ _ _ | .jalr _ _ _ | .jal _ _ => none

/-- Where a branch whose condition holds, or a jump, transfers control to; `none` for a branch that is not taken and for
every other instruction (`44_branches.md` R170 to R176, `45_jumps.md` R180, R181). -/
def transferTarget (i : Instr) (s : State) : Option Word :=
  match i with
  | .beq rs1 rs2 offset => if s.reg rs1 = s.reg rs2 then some (branchTarget s.pc offset) else none
  | .bne rs1 rs2 offset => if s.reg rs1 ≠ s.reg rs2 then some (branchTarget s.pc offset) else none
  | .blt rs1 rs2 offset => if (s.reg rs1).toInt < (s.reg rs2).toInt then some (branchTarget s.pc offset) else none
  | .bge rs1 rs2 offset => if (s.reg rs2).toInt ≤ (s.reg rs1).toInt then some (branchTarget s.pc offset) else none
  | .bltu rs1 rs2 offset => if (s.reg rs1).toNat < (s.reg rs2).toNat then some (branchTarget s.pc offset) else none
  | .bgeu rs1 rs2 offset => if (s.reg rs2).toNat ≤ (s.reg rs1).toNat then some (branchTarget s.pc offset) else none
  | .jalr _ rs1 imm => some (jalrTarget (s.reg rs1) imm)
  | .jal _ offset => some (jalTarget s.pc offset)
  | .lb _ _ _ | .lh _ _ _ | .lw _ _ _ | .lbu _ _ _ | .lhu _ _ _ | .sb _ _ _ | .sh _ _ _ | .sw _ _ _ => none
  | .addi _ _ _ | .slli _ _ _ | .slti _ _ _ | .sltiu _ _ _ | .xori _ _ _ | .srli _ _ _ | .srai _ _ _ | .ori _ _ _
  | .andi _ _ _ | .auipc _ _ | .lui _ _ => none
  | .add _ _ _ | .sub _ _ _ | .sll _ _ _ | .slt _ _ _ | .sltu _ _ _ | .xor _ _ _ | .srl _ _ _ | .sra _ _ _ | .or _ _ _
  | .and _ _ _ => none

/-- Every byte of memory and its being stored by the run are as before. -/
def SameMemory (s t : State) : Prop :=
  ∀ a, Memory.read t.mem a = Memory.read s.mem a ∧ AddrSet.has t.stored a = AddrSet.has s.stored a

/-- Every byte outside the `n` bytes from `addr`, and its being stored by the run, is as before. -/
def SameMemoryOutside (s t : State) (addr : Word) (n : Nat) : Prop :=
  ∀ a, ¬(addr.toNat ≤ a ∧ a < addr.toNat + n) →
    Memory.read t.mem a = Memory.read s.mem a ∧ AddrSet.has t.stored a = AddrSet.has s.stored a

/-- The fault record and the launch parameters are as before. -/
def SamePlatform (s t : State) : Prop :=
  t.fault = s.fault ∧ t.memMap = s.memMap ∧ t.exitPc = s.exitPc

/-- Every register, and whether it holds a value, is as before. -/
def SameRegisters (s t : State) : Prop :=
  ∀ j, t.reg j = s.reg j ∧ t.hasReg j = s.hasReg j

/-- `x[rd] <- v` and nothing else, `pc` apart: for `x0` nothing is written (R22), every other register, every byte of
memory and all else is as before. -/
def OnlyRegWritten (s t : State) (rd : RegIdx) (v : Word) : Prop :=
  (∀ j, t.reg j = (if j = rd ∧ rd ≠ 0#5 then v else s.reg j) ∧ t.hasReg j = (s.hasReg j || j == rd)) ∧
    SameMemory s t ∧ SamePlatform s t

/-- Nothing but `pc` may have changed. -/
def OnlyPcChanged (s t : State) : Prop :=
  SameRegisters s t ∧ SameMemory s t ∧ SamePlatform s t

/-- The given bytes stand at increasing addresses from `addr`, those addresses are in `Stored`, and every other byte of
memory, every register and all else, `pc` apart, is as before. -/
def OnlyBytesStored (s t : State) (addr : Word) (bytes : List Byte) : Prop :=
  (∀ a, addr.toNat ≤ a → a < addr.toNat + bytes.length →
    Memory.read t.mem a = bytes[a - addr.toNat]? ∧ AddrSet.has t.stored a = true) ∧
  SameMemoryOutside s t addr bytes.length ∧ SameRegisters s t ∧ SamePlatform s t

/-- The invariant of the machine between steps. -/
structure Inv (s : State) : Prop where
  /-- Memory keeps its canonical form (R32). -/
  memory : Memory.wf s.mem
  /-- `Stored` keeps its canonical form (R34). -/
  stored : AddrSet.wf s.stored
  /-- A byte that a store wrote holds a value (`20_memory.md` R47 step 3). -/
  storedHasValue : ∀ a, AddrSet.has s.stored a = true → (Memory.read s.mem a).isSome = true
  /-- `pc` is a multiple of 4 (R27). -/
  pcAligned : aligned s.pc .word = true
  /-- No fault is recorded in a state that a step goes on from (R233). -/
  noFault : s.fault = none

/-- The fetch of `s` reads the word `w`: `pc` is aligned, the platform admits the fetch, no store wrote one of the four
bytes, and they hold `w` in little-endian order (R44, R48). -/
def FetchReads (s : State) (w : Word) : Prop :=
  s.pc.toNat % 4 = 0 ∧ memAdmits s.memMap s.pc .word .fetch = true ∧
    ∀ k < 4, AddrSet.has s.stored (s.pc.toNat + k) = false ∧
      Memory.read s.mem (s.pc.toNat + k) = some (BitVec.ofNat 8 (w.toNat / 2 ^ (8 * k)))

end Sys2Proof.Machine
end

