-- ==== Sys2Proof/Certificates/Slice0/Obligations.lean ====
section
/-! DEFINITION. The statements for the provers. A statement of basis "derived" rests on a clause that the spec marks as
its own decision, derivation or general knowledge, or on a choice of this model; its docstring names it. -/

open Sys2Proof Sys2Proof.Machine

/-! ### Encoding -/

/-- `30_encoding.md` section 6: R101, which the spec marks as derived. -/
def Obligations.DecodingUndoesEncoding : Prop :=
  ∀ i : Instr, i.wellFormed = true → decode (encode i) = .ok i

/-- The other direction of R101 (derived there): a word that decodes is the encoding of what it decodes to, so no bit
of it is dropped. -/
def Obligations.EncodingUndoesDecoding : Prop :=
  ∀ (w : Word) (i : Instr), decode w = .ok i → i.wellFormed = true ∧ encode i = w

/-- R89: the complete map. A row's mask and match test its `op`, `funct3` and `funct7`, and select exactly the words
that decode to its mnemonic. -/
def Obligations.OpcodeMapSelectsInstructions : Prop :=
  opcodeTable.length = 37 ∧
  ∀ row ∈ opcodeTable, ∀ w : Word,
    (w &&& row.mask = row.pattern ↔
      fieldOp w = row.op ∧ (∀ f ∈ row.funct3, fieldFunct3 w = f) ∧ (∀ f ∈ row.funct7, fieldFunct7 w = f)) ∧
    (w &&& row.mask = row.pattern ↔ ∃ i, decode w = .ok i ∧ i.mnemonic = row.mnemonic)

/-- R72, R73, R74, R77: the layouts of R, I, the shift variant of I, and U, field by field from bit 31 down, with the
instructions that use each. -/
def Obligations.LayoutsWithWholeFields : Prop :=
  (∀ e ∈ ([(.add, 0b0000000#7, 0b000#3), (.sub, 0b0100000#7, 0b000#3), (.sll, 0b0000000#7, 0b001#3),
      (.slt, 0b0000000#7, 0b010#3), (.sltu, 0b0000000#7, 0b011#3), (.xor, 0b0000000#7, 0b100#3),
      (.srl, 0b0000000#7, 0b101#3), (.sra, 0b0100000#7, 0b101#3), (.or, 0b0000000#7, 0b110#3),
      (.and, 0b0000000#7, 0b111#3)] : List ((RegIdx → RegIdx → RegIdx → Instr) × BitVec 7 × BitVec 3)),
    ∀ (w : Word) (rd rs1 rs2 : RegIdx),
      decode w = .ok (e.1 rd rs1 rs2) ↔ w = e.2.1 ++ rs2 ++ rs1 ++ e.2.2 ++ rd ++ 0b0110011#7) ∧
  (∀ e ∈ ([(.addi, 0b000#3, 0b0010011#7), (.slti, 0b010#3, 0b0010011#7), (.sltiu, 0b011#3, 0b0010011#7),
      (.xori, 0b100#3, 0b0010011#7), (.ori, 0b110#3, 0b0010011#7), (.andi, 0b111#3, 0b0010011#7),
      (.lb, 0b000#3, 0b0000011#7), (.lh, 0b001#3, 0b0000011#7), (.lw, 0b010#3, 0b0000011#7),
      (.lbu, 0b100#3, 0b0000011#7), (.lhu, 0b101#3, 0b0000011#7), (.jalr, 0b000#3, 0b1100111#7)] :
      List ((RegIdx → RegIdx → BitVec 12 → Instr) × BitVec 3 × BitVec 7)),
    ∀ (w : Word) (rd rs1 : RegIdx) (imm : BitVec 12),
      decode w = .ok (e.1 rd rs1 imm) ↔ w = imm ++ rs1 ++ e.2.1 ++ rd ++ e.2.2) ∧
  (∀ e ∈ ([(.slli, 0b0000000#7, 0b001#3), (.srli, 0b0000000#7, 0b101#3), (.srai, 0b0100000#7, 0b101#3)] :
      List ((RegIdx → RegIdx → BitVec 5 → Instr) × BitVec 7 × BitVec 3)),
    ∀ (w : Word) (rd rs1 : RegIdx) (uimm : BitVec 5),
      decode w = .ok (e.1 rd rs1 uimm) ↔ w = e.2.1 ++ uimm ++ rs1 ++ e.2.2 ++ rd ++ 0b0010011#7) ∧
  (∀ e ∈ ([(.lui, 0b0110111#7), (.auipc, 0b0010111#7)] : List ((RegIdx → BitVec 20 → Instr) × BitVec 7)),
    ∀ (w : Word) (rd : RegIdx) (upimm : BitVec 20), decode w = .ok (e.1 rd upimm) ↔ w = upimm ++ rd ++ e.2)

/-- R75, R76, R78: the layouts of S, B and J bit by bit, with the codes of the instructions that use each: which bit of
the word each bit of a register number and of an immediate is. Every word with those codes decodes so. -/
def Obligations.LayoutsWithSplitImmediates : Prop :=
  (∀ e ∈ ([(.sb, 0b000#3), (.sh, 0b001#3), (.sw, 0b010#3)] : List ((RegIdx → RegIdx → BitVec 12 → Instr) × BitVec 3)),
    ∀ w : Word, fieldOp w = 0b0100011#7 → fieldFunct3 w = e.2 → ∃ rs1 rs2 imm, decode w = .ok (e.1 rs1 rs2 imm) ∧
      (∀ k < 5, rs1.getLsbD k = w.getLsbD (15 + k)) ∧ (∀ k < 5, rs2.getLsbD k = w.getLsbD (20 + k)) ∧
      (∀ k < 5, imm.getLsbD k = w.getLsbD (7 + k)) ∧ (∀ k < 7, imm.getLsbD (5 + k) = w.getLsbD (25 + k))) ∧
  (∀ e ∈ ([(.beq, 0b000#3), (.bne, 0b001#3), (.blt, 0b100#3), (.bge, 0b101#3), (.bltu, 0b110#3), (.bgeu, 0b111#3)] :
      List ((RegIdx → RegIdx → BitVec 13 → Instr) × BitVec 3)),
    ∀ w : Word, fieldOp w = 0b1100011#7 → fieldFunct3 w = e.2 → ∃ rs1 rs2 offset, decode w = .ok (e.1 rs1 rs2 offset) ∧
      (∀ k < 5, rs1.getLsbD k = w.getLsbD (15 + k)) ∧ (∀ k < 5, rs2.getLsbD k = w.getLsbD (20 + k)) ∧
      offset.getLsbD 0 = false ∧ (∀ k < 4, offset.getLsbD (1 + k) = w.getLsbD (8 + k)) ∧
      (∀ k < 6, offset.getLsbD (5 + k) = w.getLsbD (25 + k)) ∧ offset.getLsbD 11 = w.getLsbD 7 ∧
      offset.getLsbD 12 = w.getLsbD 31) ∧
  (∀ w : Word, fieldOp w = 0b1101111#7 → ∃ rd offset, decode w = .ok (.jal rd offset) ∧
      (∀ k < 5, rd.getLsbD k = w.getLsbD (7 + k)) ∧ offset.getLsbD 0 = false ∧
      (∀ k < 10, offset.getLsbD (1 + k) = w.getLsbD (21 + k)) ∧ offset.getLsbD 11 = w.getLsbD 20 ∧
      (∀ k < 8, offset.getLsbD (12 + k) = w.getLsbD (12 + k)) ∧ offset.getLsbD 20 = w.getLsbD 31)

/-- R81 to R86: each of the 32 bits of each immediate an instruction computes with, as a bit of the word; the ranges;
and, for each instruction that has one, that it decodes to that field. -/
def Obligations.ImmediatesProduced : Prop :=
  ∀ w : Word,
    (∀ k < 32, (immI (fieldImmI w)).getLsbD k = w.getLsbD (if k < 11 then 20 + k else 31)) ∧
    (∀ k < 32, (immS (fieldImmS w)).getLsbD k =
      w.getLsbD (if k < 5 then 7 + k else if k < 11 then 20 + k else 31)) ∧
    (∀ k < 32, (immB (fieldImmB w)).getLsbD k = (decide (k ≠ 0) &&
      w.getLsbD (if k < 5 then 7 + k else if k < 11 then 20 + k else if k = 11 then 7 else 31))) ∧
    (∀ k < 32, (immU (fieldUpimm w)).getLsbD k = (decide (12 ≤ k) && w.getLsbD k)) ∧
    (∀ k < 32, (immJ (fieldImmJ w)).getLsbD k = (decide (k ≠ 0) &&
      w.getLsbD (if k < 11 then 20 + k else if k = 11 then 20 else if k < 20 then k else 31))) ∧
    (∀ k < 5, (fieldUimm w).getLsbD k = w.getLsbD (20 + k)) ∧
    (-2048 ≤ (immI (fieldImmI w)).toInt ∧ (immI (fieldImmI w)).toInt ≤ 2047) ∧
    (-2048 ≤ (immS (fieldImmS w)).toInt ∧ (immS (fieldImmS w)).toInt ≤ 2047) ∧
    (-4096 ≤ (immB (fieldImmB w)).toInt ∧ (immB (fieldImmB w)).toInt ≤ 4094) ∧
    (-1048576 ≤ (immJ (fieldImmJ w)).toInt ∧ (immJ (fieldImmJ w)).toInt ≤ 1048574) ∧
    (∀ i, decode w = .ok i →
      match i with
      | .lb _ _ m | .lh _ _ m | .lw _ _ m | .lbu _ _ m | .lhu _ _ m | .addi _ _ m | .slti _ _ m | .sltiu _ _ m
      | .xori _ _ m | .ori _ _ m | .andi _ _ m | .jalr _ _ m => m = fieldImmI w
      | .sb _ _ m | .sh _ _ m | .sw _ _ m => m = fieldImmS w
      | .beq _ _ m | .bne _ _ m | .blt _ _ m | .bge _ _ m | .bltu _ _ m | .bgeu _ _ m => m = fieldImmB w
      | .lui _ m | .auipc _ m => m = fieldUpimm w
      | .jal _ m => m = fieldImmJ w
      | .slli _ _ m | .srli _ _ m | .srai _ _ m => m = fieldUimm w
      | .add _ _ _ | .sub _ _ _ | .sll _ _ _ | .slt _ _ _ | .sltu _ _ _ | .xor _ _ _ | .srl _ _ _ | .sra _ _ _
      | .or _ _ _ | .and _ _ _ => True)

/-- `30_encoding.md` section 5, R91, the spec's decision D4: the illegal words, exhaustively, by their classes (a) to
(g), each rejected under its own name. -/
def Obligations.IllegalWordsByClass : Prop :=
  ∀ w : Word,
    (decode w = .error .opcode ↔ fieldOp w ∉ [0b0000011#7, 0b0010011#7, 0b0010111#7, 0b0100011#7, 0b0110011#7,
      0b0110111#7, 0b1100011#7, 0b1100111#7, 0b1101111#7]) ∧
    (decode w = .error .loadFunct3 ↔ fieldOp w = 0b0000011#7 ∧ fieldFunct3 w ∈ [0b011#3, 0b110#3, 0b111#3]) ∧
    (decode w = .error .shiftFunct7 ↔ fieldOp w = 0b0010011#7 ∧
      ((fieldFunct3 w = 0b001#3 ∧ fieldFunct7 w ≠ 0b0000000#7) ∨
        (fieldFunct3 w = 0b101#3 ∧ fieldFunct7 w ≠ 0b0000000#7 ∧ fieldFunct7 w ≠ 0b0100000#7))) ∧
    (decode w = .error .storeFunct3 ↔ fieldOp w = 0b0100011#7 ∧
      fieldFunct3 w ∈ [0b011#3, 0b100#3, 0b101#3, 0b110#3, 0b111#3]) ∧
    (decode w = .error .regFunct7 ↔ fieldOp w = 0b0110011#7 ∧
      ((fieldFunct7 w ≠ 0b0000000#7 ∧ fieldFunct7 w ≠ 0b0100000#7) ∨
        (fieldFunct7 w = 0b0100000#7 ∧ fieldFunct3 w ∉ [0b000#3, 0b101#3]))) ∧
    (decode w = .error .branchFunct3 ↔ fieldOp w = 0b1100011#7 ∧ fieldFunct3 w ∈ [0b010#3, 0b011#3]) ∧
    (decode w = .error .jalrFunct3 ↔ fieldOp w = 0b1100111#7 ∧ fieldFunct3 w ≠ 0b000#3) ∧
    decode w ≠ .error .tooFewBytes

/-- `95_test_vectors.md` section 1.1, S1 to S14: the machine words the source prints, with their instructions. -/
def Obligations.WorkedWordsDecode : Prop :=
  decode 0x01498933#32 = .ok (.add 18#5 19#5 20#5) ∧ decode 0x407302B3#32 = .ok (.sub 5#5 6#5 7#5) ∧
  decode 0x00C48413#32 = .ok (.addi 8#5 9#5 12#12) ∧ decode 0xFF230913#32 = .ok (.addi 18#5 6#5 (-14#12)) ∧
  decode 0xFFA9A383#32 = .ok (.lw 7#5 19#5 (-6#12)) ∧ decode 0x01FA0A03#32 = .ok (.lb 20#5 20#5 0x1F#12) ∧
  decode 0x005B9913#32 = .ok (.slli 18#5 23#5 5#5) ∧ decode 0x41D3D313#32 = .ok (.srai 6#5 7#5 29#5) ∧
  decode 0xFE79AD23#32 = .ok (.sw 19#5 7#5 (-6#12)) ∧ decode 0x01429BA3#32 = .ok (.sh 5#5 20#5 23#12) ∧
  decode 0x03E006A3#32 = .ok (.sb 0#5 30#5 0x2D#12) ∧ decode 0x01E40863#32 = .ok (.beq 8#5 30#5 16#13) ∧
  decode 0x7F8A60EF#32 = .ok (.jal 1#5 0xA67F8#21) ∧ decode 0x8CDEFAB7#32 = .ok (.lui 21#5 0x8CDEF#20)

/-- `30_encoding.md` section 6, R97, R99: the fields that the operands of each statement fill, format by format; a label
stands for the difference of its address and the instruction's own, in bytes. The difference is taken modulo 2^32,
wrap-around included, which is the model's choice (assumption log entry 19), after R11, which the spec marks as
derived. -/
def Obligations.AssemblerOperandsFillTheirFields : Prop :=
  ∀ (labels : List (List Char × Word)) (pc : Word),
    (∀ e ∈ ([(.add, .add), (.sub, .sub), (.sll, .sll), (.slt, .slt), (.sltu, .sltu), (.xor, .xor), (.srl, .srl),
        (.sra, .sra), (.or, .or), (.and, .and)] : List (Mnemonic × (RegIdx → RegIdx → RegIdx → Instr))),
      ∀ rd rs1 rs2 : RegIdx,
        assembleInstr labels pc (.row e.1) [.reg rd, .reg rs1, .reg rs2] = some [e.2 rd rs1 rs2]) ∧
    (∀ e ∈ ([(.addi, .addi), (.slti, .slti), (.sltiu, .sltiu), (.xori, .xori), (.ori, .ori), (.andi, .andi),
        (.jalr, .jalr)] : List (Mnemonic × (RegIdx → RegIdx → BitVec 12 → Instr))),
      ∀ (rd rs1 : RegIdx) (imm : BitVec 12),
        assembleInstr labels pc (.row e.1) [.reg rd, .reg rs1, .num imm.toInt] = some [e.2 rd rs1 imm]) ∧
    (∀ e ∈ ([(.slli, .slli), (.srli, .srli), (.srai, .srai)] :
        List (Mnemonic × (RegIdx → RegIdx → BitVec 5 → Instr))),
      ∀ (rd rs1 : RegIdx) (uimm : BitVec 5),
        assembleInstr labels pc (.row e.1) [.reg rd, .reg rs1, .num uimm.toNat] = some [e.2 rd rs1 uimm]) ∧
    (∀ e ∈ ([(.lb, .lb), (.lh, .lh), (.lw, .lw), (.lbu, .lbu), (.lhu, .lhu)] :
        List (Mnemonic × (RegIdx → RegIdx → BitVec 12 → Instr))),
      ∀ (rd rs1 : RegIdx) (imm : BitVec 12),
        assembleInstr labels pc (.row e.1) [.reg rd, .based imm.toInt rs1] = some [e.2 rd rs1 imm]) ∧
    (∀ e ∈ ([(.sb, .sb), (.sh, .sh), (.sw, .sw)] : List (Mnemonic × (RegIdx → RegIdx → BitVec 12 → Instr))),
      ∀ (rs1 rs2 : RegIdx) (imm : BitVec 12),
        assembleInstr labels pc (.row e.1) [.reg rs2, .based imm.toInt rs1] = some [e.2 rs1 rs2 imm]) ∧
    (∀ e ∈ ([(.beq, .beq), (.bne, .bne), (.blt, .blt), (.bge, .bge), (.bltu, .bltu), (.bgeu, .bgeu)] :
        List (Mnemonic × (RegIdx → RegIdx → BitVec 13 → Instr))),
      ∀ (rs1 rs2 : RegIdx) (offset : BitVec 13) (name : List Char) (a : Word), evenOffset offset = true →
        labels.lookup name = some a → a - pc = immB offset →
        assembleInstr labels pc (.row e.1) [.reg rs1, .reg rs2, .label name] = some [e.2 rs1 rs2 offset]) ∧
    (∀ (rd : RegIdx) (offset : BitVec 21) (name : List Char) (a : Word), evenOffset offset = true →
      labels.lookup name = some a → a - pc = immJ offset →
      assembleInstr labels pc (.row .jal) [.reg rd, .label name] = some [.jal rd offset]) ∧
    (∀ e ∈ ([(.lui, .lui), (.auipc, .auipc)] : List (Mnemonic × (RegIdx → BitVec 20 → Instr))),
      ∀ (rd : RegIdx) (upimm : BitVec 20),
        assembleInstr labels pc (.row e.1) [.reg rd, .num upimm.toNat] = some [e.2 rd upimm])

/-! ### The step frame -/

/-- `00_scope.md` section 4, R18 (derived there): a step runs the instruction that the word at `pc` decodes to, and adds
nothing to it. -/
def Obligations.StepRunsTheDecodedInstruction : Prop :=
  ∀ (s : State) (w : Word) (i : Instr), s.fault = none → FetchReads s w → decode w = .ok i → step s = exec i s

/-- `20_memory.md` R48 and `60_exceptions.md` R232 (1) to (5), the spec's decisions D1, D3, D4, D9, D12, D16, D23: the
stops of the fetch side, each when those before it do not apply. -/
def Obligations.FetchSideStopsInOrder : Prop :=
  ∀ s : State, s.fault = none →
    (s.pc.toNat % 4 ≠ 0 → step s = .fault (.instructionAddressMisaligned s.pc s.pc)) ∧
    (s.pc.toNat % 4 = 0 → memAdmits s.memMap s.pc .word .fetch = false →
      step s = .fault (.instructionAccessFault s.pc s.pc)) ∧
    (s.pc.toNat % 4 = 0 → memAdmits s.memMap s.pc .word .fetch = true →
      (∃ k < 4, AddrSet.has s.stored (s.pc.toNat + k) = true) → step s = .refused (.fetchAfterStore s.pc s.pc)) ∧
    (s.pc.toNat % 4 = 0 → memAdmits s.memMap s.pc .word .fetch = true →
      (∀ k < 4, AddrSet.has s.stored (s.pc.toNat + k) = false) → (∃ k < 4, Memory.read s.mem (s.pc.toNat + k) = none) →
      step s = .refused (.uninitialisedRead s.pc (.mem s.pc))) ∧
    (∀ w e, FetchReads s w → decode w = .error e → step s = .fault (.illegalInstruction s.pc w))

/-- `60_exceptions.md` section 5, R233, the spec's decision D5: a state with a fault record has no next step. That `step`
at such a state answers with the recorded reason is the model's way to say so (assumption log entry 6, DEDUCED), no
clause of the spec. -/
def Obligations.RecordedFaultEndsStepping : Prop :=
  ∀ (s : State) (r : FaultRecord), s.fault = some r → step s = raise r ∧ ∀ t, step s ≠ .next t

/-- The model's placing of a word for the next fetch (assumption log entry 7): at any state that could fetch at its
`pc`, the very next step runs exactly the instruction of the word; nothing but those four bytes is touched. -/
def Obligations.PlacedWordIsTheNextInstruction : Prop :=
  ∀ (s : State) (w : Nat) (i : Instr), s.fault = none → s.pc.toNat % 4 = 0 →
    memAdmits s.memMap s.pc .word .fetch = true → decodeTableWord 32 w = some i →
    step (s.withFetchWord 32 w) = exec i (s.withFetchWord 32 w) ∧
    (s.withFetchWord 32 w).pc = s.pc ∧ SameRegisters s (s.withFetchWord 32 w) ∧
    SamePlatform s (s.withFetchWord 32 w) ∧
    ∀ a, ¬(s.pc.toNat ≤ a ∧ a < s.pc.toNat + 4) →
      Memory.read (s.withFetchWord 32 w).mem a = Memory.read s.mem a ∧
      AddrSet.has (s.withFetchWord 32 w).stored a = AddrSet.has s.stored a

/-! ### Registers -/

/-- `10_state.md` section 2, R22, the spec's decision D13: register 0 reads as zero and always holds a value, a write to
it changes nothing, and an instruction whose destination it is changes no register. -/
def Obligations.RegisterZeroStaysZero : Prop :=
  (∀ s : State, s.reg 0#5 = 0#32 ∧ s.hasReg 0#5 = true) ∧
  (∀ (s : State) (v : Word), s.setReg 0#5 v = s) ∧
  (∀ (i : Instr) (s t : State), destination i = some 0#5 → exec i s = .next t → SameRegisters s t)

/-! ### Register-register and register-immediate instructions -/

/-- R111, R112, R113, R116, R117, R119, R120: `add sub sll xor srl or and`. Every word that matches the row decodes to
the instruction with the fields of the word, and the instruction, whatever its operands' values, writes the value of its
rule to its destination (nothing for `x0`), advances `pc` by 4 and changes nothing else; it raises nothing of its own. -/
def Obligations.RegisterRegisterResults : Prop :=
  ∀ e ∈ ([(.add, 0x00000033#32, fun a b => BitVec.ofNat 32 (a.toNat + b.toNat)),
      (.sub, 0x40000033#32, fun a b => BitVec.ofInt 32 ((a.toNat : Int) - (b.toNat : Int))),
      (.sll, 0x00001033#32, fun a b => BitVec.ofNat 32 (a.toNat * 2 ^ (b.toNat % 32))),
      (.xor, 0x00004033#32, fun a b => a ^^^ b),
      (.srl, 0x00005033#32, fun a b => BitVec.ofNat 32 (a.toNat / 2 ^ (b.toNat % 32))),
      (.or, 0x00006033#32, fun a b => a ||| b),
      (.and, 0x00007033#32, fun a b => a &&& b)] :
      List ((RegIdx → RegIdx → RegIdx → Instr) × Word × (Word → Word → Word))),
    (∀ w : Word, w &&& 0xFE00707F#32 = e.2.1 → decode w = .ok (e.1 (fieldRd w) (fieldRs1 w) (fieldRs2 w))) ∧
    ∀ (rd rs1 rs2 : RegIdx) (s : State), s.hasReg rs1 = true → s.hasReg rs2 = true →
      ∃ t, exec (e.1 rd rs1 rs2) s = .next t ∧ OnlyRegWritten s t rd (e.2.2 (s.reg rs1) (s.reg rs2)) ∧
        t.pc = s.pc + 4#32

/-- `slt sltu sra`, `40_r_type_alu.md` R114, R115, R118: the signed readings, the values 1 and 0 and the filling with
bit 31 are the spec's general knowledge G2, G3, G4. The same claim as RegisterRegisterResults. -/
def Obligations.SetLessThanAndArithmeticShiftResults : Prop :=
  ∀ e ∈ ([(.slt, 0x00002033#32, fun a b => if a.toInt < b.toInt then 1#32 else 0#32),
      (.sltu, 0x00003033#32, fun a b => if a.toNat < b.toNat then 1#32 else 0#32),
      (.sra, 0x40005033#32, fun a b => BitVec.ofInt 32 (a.toInt / 2 ^ (b.toNat % 32)))] :
      List ((RegIdx → RegIdx → RegIdx → Instr) × Word × (Word → Word → Word))),
    (∀ w : Word, w &&& 0xFE00707F#32 = e.2.1 → decode w = .ok (e.1 (fieldRd w) (fieldRs1 w) (fieldRs2 w))) ∧
    ∀ (rd rs1 rs2 : RegIdx) (s : State), s.hasReg rs1 = true → s.hasReg rs2 = true →
      ∃ t, exec (e.1 rd rs1 rs2) s = .next t ∧ OnlyRegWritten s t rd (e.2.2 (s.reg rs1) (s.reg rs2)) ∧
        t.pc = s.pc + 4#32

/-- R131, R134, R135, R136, R137, R138: `addi xori ori andi slli srli`, with the encoding, the result, the frame and the
advance of `pc`. The second operand of the first four is the 12-bit field's two's complement value as a word. -/
def Obligations.RegisterImmediateResults : Prop :=
  (∀ e ∈ ([(.addi, 0x00000013#32, fun a m => BitVec.ofInt 32 ((a.toNat : Int) + m.toInt)),
      (.xori, 0x00004013#32, fun a m => a ^^^ BitVec.ofInt 32 m.toInt),
      (.ori, 0x00006013#32, fun a m => a ||| BitVec.ofInt 32 m.toInt),
      (.andi, 0x00007013#32, fun a m => a &&& BitVec.ofInt 32 m.toInt)] :
      List ((RegIdx → RegIdx → BitVec 12 → Instr) × Word × (Word → BitVec 12 → Word))),
    (∀ w : Word, w &&& 0x0000707F#32 = e.2.1 → decode w = .ok (e.1 (fieldRd w) (fieldRs1 w) (fieldImmI w))) ∧
    ∀ (rd rs1 : RegIdx) (imm : BitVec 12) (s : State), s.hasReg rs1 = true →
      ∃ t, exec (e.1 rd rs1 imm) s = .next t ∧ OnlyRegWritten s t rd (e.2.2 (s.reg rs1) imm) ∧ t.pc = s.pc + 4#32) ∧
  (∀ e ∈ ([(.slli, 0x00001013#32, fun a u => BitVec.ofNat 32 (a.toNat * 2 ^ u.toNat)),
      (.srli, 0x00005013#32, fun a u => BitVec.ofNat 32 (a.toNat / 2 ^ u.toNat))] :
      List ((RegIdx → RegIdx → BitVec 5 → Instr) × Word × (Word → BitVec 5 → Word))),
    (∀ w : Word, w &&& 0xFE00707F#32 = e.2.1 → decode w = .ok (e.1 (fieldRd w) (fieldRs1 w) (fieldUimm w))) ∧
    ∀ (rd rs1 : RegIdx) (uimm : BitVec 5) (s : State), s.hasReg rs1 = true →
      ∃ t, exec (e.1 rd rs1 uimm) s = .next t ∧ OnlyRegWritten s t rd (e.2.2 (s.reg rs1) uimm) ∧ t.pc = s.pc + 4#32)

/-- `slti sltiu srai`, `41_i_type_alu.md` R132, R133, R139: the signed reading, the values 1 and 0 and the filling with
bit 31 are the spec's general knowledge G2, G3, G4. For `sltiu` the immediate is sign-extended first and the two words
are compared as unsigned numbers. -/
def Obligations.ImmediateComparesAndArithmeticShiftResults : Prop :=
  (∀ e ∈ ([(.slti, 0x00002013#32, fun a m => if a.toInt < m.toInt then 1#32 else 0#32),
      (.sltiu, 0x00003013#32, fun a m => if (a.toNat : Int) < m.toInt % 2 ^ 32 then 1#32 else 0#32)] :
      List ((RegIdx → RegIdx → BitVec 12 → Instr) × Word × (Word → BitVec 12 → Word))),
    (∀ w : Word, w &&& 0x0000707F#32 = e.2.1 → decode w = .ok (e.1 (fieldRd w) (fieldRs1 w) (fieldImmI w))) ∧
    ∀ (rd rs1 : RegIdx) (imm : BitVec 12) (s : State), s.hasReg rs1 = true →
      ∃ t, exec (e.1 rd rs1 imm) s = .next t ∧ OnlyRegWritten s t rd (e.2.2 (s.reg rs1) imm) ∧ t.pc = s.pc + 4#32) ∧
  (∀ w : Word, w &&& 0xFE00707F#32 = 0x40005013#32 →
    decode w = .ok (.srai (fieldRd w) (fieldRs1 w) (fieldUimm w))) ∧
  ∀ (rd rs1 : RegIdx) (uimm : BitVec 5) (s : State), s.hasReg rs1 = true →
    ∃ t, exec (.srai rd rs1 uimm) s = .next t ∧
      OnlyRegWritten s t rd (BitVec.ofInt 32 ((s.reg rs1).toInt / 2 ^ uimm.toNat)) ∧ t.pc = s.pc + 4#32

/-- R190, R191: `lui` and `auipc` complete in every state, with the encoding, the result, the frame and the advance of
`pc`; the `pc` that `auipc` adds is its own address. -/
def Obligations.UpperImmediateResults : Prop :=
  (∀ w : Word, w &&& 0x0000007F#32 = 0x00000037#32 → decode w = .ok (.lui (fieldRd w) (fieldUpimm w))) ∧
  (∀ w : Word, w &&& 0x0000007F#32 = 0x00000017#32 → decode w = .ok (.auipc (fieldRd w) (fieldUpimm w))) ∧
  ∀ (rd : RegIdx) (upimm : BitVec 20) (s : State),
    (∃ t, exec (.lui rd upimm) s = .next t ∧ OnlyRegWritten s t rd (BitVec.ofNat 32 (upimm.toNat * 4096)) ∧
      t.pc = s.pc + 4#32) ∧
    (∃ t, exec (.auipc rd upimm) s = .next t ∧
      OnlyRegWritten s t rd (BitVec.ofNat 32 (s.pc.toNat + upimm.toNat * 4096)) ∧ t.pc = s.pc + 4#32)

/-- `60_exceptions.md` section 2, R229, and section 4, R232 (6), the spec's decisions D16, D23: whatever the
instruction, the first of its source registers that holds no value is the one reported, and nothing else happens. -/
def Obligations.FirstSourceWithoutValueIsRefused : Prop :=
  ∀ (i : Instr) (s : State) (before after : List RegIdx) (r : RegIdx), sources i = before ++ r :: after →
    (∀ q ∈ before, s.hasReg q = true) → s.hasReg r = false →
    exec i s = .refused (.uninitialisedRead s.pc (.reg r))

/-! ### Loads and stores -/

/-- `20_memory.md` section 5, R51: one addressing mode, base plus signed 12-bit displacement, modulo 2^32 (the spec's
decision D10; entry 17); the base register is not changed by it; with base `x0` the address is the sign-extended
immediate. Section 3, R46 step 3 and R47 step 3 (the spec's decisions D9, D16; entry 3): a load that completes has found
a value in the bytes at that address; a store that completes leaves a value in them and changes no other byte. -/
def Obligations.EffectiveAddressIsBasePlusDisplacement : Prop :=
  (∀ (base : Word) (imm : BitVec 12),
    ((loadAddress base imm).toNat : Int) = ((base.toNat : Int) + imm.toInt) % 2 ^ 32 ∧
    ((storeAddress base imm).toNat : Int) = ((base.toNat : Int) + imm.toInt) % 2 ^ 32) ∧
  (∀ imm : BitVec 12,
    ((loadAddress 0#32 imm).toNat ≤ 0x7FF ∨ 0xFFFFF800 ≤ (loadAddress 0#32 imm).toNat) ∧
    ((storeAddress 0#32 imm).toNat ≤ 0x7FF ∨ 0xFFFFF800 ≤ (storeAddress 0#32 imm).toNat)) ∧
  (∀ e ∈ ([(.lb, 1), (.lh, 2), (.lw, 4), (.lbu, 1), (.lhu, 2)] : List ((RegIdx → RegIdx → BitVec 12 → Instr) × Nat)),
    ∀ (rd rs1 : RegIdx) (imm : BitVec 12) (s t : State), exec (e.1 rd rs1 imm) s = .next t →
      (∀ k < e.2, (Memory.read s.mem ((loadAddress (s.reg rs1) imm).toNat + k)).isSome = true) ∧
      (rd ≠ rs1 → t.reg rs1 = s.reg rs1)) ∧
  (∀ e ∈ ([(.sb, 1), (.sh, 2), (.sw, 4)] : List ((RegIdx → RegIdx → BitVec 12 → Instr) × Nat)),
    ∀ (rs1 rs2 : RegIdx) (imm : BitVec 12) (s t : State), exec (e.1 rs1 rs2 imm) s = .next t →
      (∀ k < e.2, (Memory.read t.mem ((storeAddress (s.reg rs1) imm).toNat + k)).isSome = true) ∧
      (∀ a, ¬((storeAddress (s.reg rs1) imm).toNat ≤ a ∧ a < (storeAddress (s.reg rs1) imm).toNat + e.2) →
        Memory.read t.mem a = Memory.read s.mem a) ∧
      t.reg rs1 = s.reg rs1)

/-- `42_loads.md` R150 to R155 with `20_memory.md` R43, R46, R49 (the spec's decisions D1, D2, D9, D16, D22): an
aligned, admitted load of bytes that hold a value completes; the value is little-endian, sign- or zero-extended; only
`x[rd]` and `pc` change. -/
def Obligations.LoadsDeliverTheBytesOfMemory : Prop :=
  ∀ (s : State) (rd rs1 : RegIdx) (imm : BitVec 12), s.hasReg rs1 = true →
    (∀ b0, memAdmits s.memMap (loadAddress (s.reg rs1) imm) .byte .load = true →
      Memory.read s.mem (loadAddress (s.reg rs1) imm).toNat = some b0 →
      (∃ t, exec (.lb rd rs1 imm) s = .next t ∧ OnlyRegWritten s t rd (BitVec.ofInt 32 b0.toInt) ∧
        t.pc = s.pc + 4#32) ∧
      (∃ t, exec (.lbu rd rs1 imm) s = .next t ∧ OnlyRegWritten s t rd (BitVec.ofNat 32 b0.toNat) ∧
        t.pc = s.pc + 4#32)) ∧
    (∀ b0 b1, (loadAddress (s.reg rs1) imm).toNat % 2 = 0 →
      memAdmits s.memMap (loadAddress (s.reg rs1) imm) .half .load = true →
      Memory.read s.mem (loadAddress (s.reg rs1) imm).toNat = some b0 →
      Memory.read s.mem ((loadAddress (s.reg rs1) imm).toNat + 1) = some b1 →
      (∃ t, exec (.lh rd rs1 imm) s = .next t ∧
        OnlyRegWritten s t rd (BitVec.ofInt 32 (b1.toInt * 256 + b0.toNat)) ∧ t.pc = s.pc + 4#32) ∧
      (∃ t, exec (.lhu rd rs1 imm) s = .next t ∧
        OnlyRegWritten s t rd (BitVec.ofNat 32 (b1.toNat * 256 + b0.toNat)) ∧ t.pc = s.pc + 4#32)) ∧
    (∀ b0 b1 b2 b3, (loadAddress (s.reg rs1) imm).toNat % 4 = 0 →
      memAdmits s.memMap (loadAddress (s.reg rs1) imm) .word .load = true →
      Memory.read s.mem (loadAddress (s.reg rs1) imm).toNat = some b0 →
      Memory.read s.mem ((loadAddress (s.reg rs1) imm).toNat + 1) = some b1 →
      Memory.read s.mem ((loadAddress (s.reg rs1) imm).toNat + 2) = some b2 →
      Memory.read s.mem ((loadAddress (s.reg rs1) imm).toNat + 3) = some b3 →
      ∃ t, exec (.lw rd rs1 imm) s = .next t ∧ OnlyRegWritten s t rd
        (BitVec.ofNat 32 (b3.toNat * 16777216 + b2.toNat * 65536 + b1.toNat * 256 + b0.toNat)) ∧ t.pc = s.pc + 4#32)

/-- `42_loads.md` R150, `60_exceptions.md` R224, R225, R229, R232 (7) (the spec's decisions D2, D9, D16, D23): when a
load stops, in the order of its checks, whatever its destination. -/
def Obligations.LoadsStopInOrder : Prop :=
  ∀ e ∈ ([(.lb, .byte, 1), (.lh, .half, 2), (.lw, .word, 4), (.lbu, .byte, 1), (.lhu, .half, 2)] :
      List ((RegIdx → RegIdx → BitVec 12 → Instr) × AccessSize × Nat)),
    ∀ (rd rs1 : RegIdx) (imm : BitVec 12) (s : State), s.hasReg rs1 = true →
      ((loadAddress (s.reg rs1) imm).toNat % e.2.2 ≠ 0 →
        exec (e.1 rd rs1 imm) s = .fault (.loadAddressMisaligned s.pc (loadAddress (s.reg rs1) imm))) ∧
      ((loadAddress (s.reg rs1) imm).toNat % e.2.2 = 0 →
        memAdmits s.memMap (loadAddress (s.reg rs1) imm) e.2.1 .load = false →
        exec (e.1 rd rs1 imm) s = .fault (.loadAccessFault s.pc (loadAddress (s.reg rs1) imm))) ∧
      ((loadAddress (s.reg rs1) imm).toNat % e.2.2 = 0 →
        memAdmits s.memMap (loadAddress (s.reg rs1) imm) e.2.1 .load = true →
        (∃ k < e.2.2, Memory.read s.mem ((loadAddress (s.reg rs1) imm).toNat + k) = none) →
        exec (e.1 rd rs1 imm) s = .refused (.uninitialisedRead s.pc (.mem (loadAddress (s.reg rs1) imm))))

/-- `43_stores.md` R160 to R163 with `20_memory.md` R43, R47, R49 (the spec's decisions D1, D2, D9): an aligned,
admitted store completes; it writes the low bytes of the data register, little-endian, at its address, those bytes join
`Stored`, and nothing else but `pc` changes. -/
def Obligations.StoresWriteTheirBytes : Prop :=
  ∀ e ∈ ([(.sb, .byte, 1, fun v => [BitVec.ofNat 8 v.toNat]),
      (.sh, .half, 2, fun v => [BitVec.ofNat 8 v.toNat, BitVec.ofNat 8 (v.toNat / 256)]),
      (.sw, .word, 4, fun v => [BitVec.ofNat 8 v.toNat, BitVec.ofNat 8 (v.toNat / 256),
        BitVec.ofNat 8 (v.toNat / 65536), BitVec.ofNat 8 (v.toNat / 16777216)])] :
      List ((RegIdx → RegIdx → BitVec 12 → Instr) × AccessSize × Nat × (Word → List Byte))),
    ∀ (rs1 rs2 : RegIdx) (imm : BitVec 12) (s : State), s.hasReg rs1 = true → s.hasReg rs2 = true →
      (storeAddress (s.reg rs1) imm).toNat % e.2.2.1 = 0 →
      memAdmits s.memMap (storeAddress (s.reg rs1) imm) e.2.1 .store = true →
      ∃ t, exec (e.1 rs1 rs2 imm) s = .next t ∧
        OnlyBytesStored s t (storeAddress (s.reg rs1) imm) (e.2.2.2 (s.reg rs2)) ∧ t.pc = s.pc + 4#32

/-- `43_stores.md` R160, `60_exceptions.md` R226, R227, R232 (7) (the spec's decisions D2, D9, D23): when a store stops,
in the order of its checks. -/
def Obligations.StoresStopInOrder : Prop :=
  ∀ e ∈ ([(.sb, .byte, 1), (.sh, .half, 2), (.sw, .word, 4)] :
      List ((RegIdx → RegIdx → BitVec 12 → Instr) × AccessSize × Nat)),
    ∀ (rs1 rs2 : RegIdx) (imm : BitVec 12) (s : State), s.hasReg rs1 = true → s.hasReg rs2 = true →
      ((storeAddress (s.reg rs1) imm).toNat % e.2.2 ≠ 0 →
        exec (e.1 rs1 rs2 imm) s = .fault (.storeAddressMisaligned s.pc (storeAddress (s.reg rs1) imm))) ∧
      ((storeAddress (s.reg rs1) imm).toNat % e.2.2 = 0 →
        memAdmits s.memMap (storeAddress (s.reg rs1) imm) e.2.1 .store = false →
        exec (e.1 rs1 rs2 imm) s = .fault (.storeAccessFault s.pc (storeAddress (s.reg rs1) imm)))

/-- `20_memory.md` section 2, R45 (derived there from decision D1): after a word has been stored, reads of every width
at its address see its bytes, halves and whole. -/
def Obligations.MixedWidthReadsAfterStoreWord : Prop :=
  ∀ (rs1 rs2 : RegIdx) (imm : BitVec 12) (s t : State), exec (.sw rs1 rs2 imm) s = .next t →
    (∀ k < 4, Memory.readByte t.mem ((storeAddress (s.reg rs1) imm).toNat + k) =
      some ((s.reg rs2).extractLsb' (8 * k) 8)) ∧
    Memory.readHalf t.mem (storeAddress (s.reg rs1) imm).toNat = some ((s.reg rs2).extractLsb' 0 16) ∧
    Memory.readHalf t.mem ((storeAddress (s.reg rs1) imm).toNat + 2) = some ((s.reg rs2).extractLsb' 16 16) ∧
    Memory.readWord t.mem (storeAddress (s.reg rs1) imm).toNat = some (s.reg rs2)

/-! ### Branches and jumps -/

/-- `44_branches.md` R170 to R177 (not taken: derived there; a misaligned target: the spec's decision D3; the signed
comparisons: the spec's general knowledge G3). For each branch: the encoding; not taken, `pc` advances by 4 and no
fault is possible; taken to a multiple of 4, `pc` is the target; taken elsewhere, the fault, at the branch. -/
def Obligations.BranchOutcomes : Prop :=
  ∀ e ∈ ([(.beq, 0x00000063#32, fun a b => decide (a.toNat = b.toNat)),
      (.bne, 0x00001063#32, fun a b => decide (a.toNat ≠ b.toNat)),
      (.blt, 0x00004063#32, fun a b => decide (a.toInt < b.toInt)),
      (.bge, 0x00005063#32, fun a b => decide (b.toInt ≤ a.toInt)),
      (.bltu, 0x00006063#32, fun a b => decide (a.toNat < b.toNat)),
      (.bgeu, 0x00007063#32, fun a b => decide (b.toNat ≤ a.toNat))] :
      List ((RegIdx → RegIdx → BitVec 13 → Instr) × Word × (Word → Word → Bool))),
    (∀ w : Word, w &&& 0x0000707F#32 = e.2.1 → decode w = .ok (e.1 (fieldRs1 w) (fieldRs2 w) (fieldImmB w))) ∧
    ∀ (rs1 rs2 : RegIdx) (offset : BitVec 13) (s : State), s.hasReg rs1 = true → s.hasReg rs2 = true →
      (e.2.2 (s.reg rs1) (s.reg rs2) = false →
        ∃ t, exec (e.1 rs1 rs2 offset) s = .next t ∧ OnlyPcChanged s t ∧ t.pc = s.pc + 4#32) ∧
      (e.2.2 (s.reg rs1) (s.reg rs2) = true → ((s.pc.toNat : Int) + offset.toInt) % 4 = 0 →
        ∃ t, exec (e.1 rs1 rs2 offset) s = .next t ∧ OnlyPcChanged s t ∧
          t.pc = BitVec.ofInt 32 ((s.pc.toNat : Int) + offset.toInt)) ∧
      (e.2.2 (s.reg rs1) (s.reg rs2) = true → ((s.pc.toNat : Int) + offset.toInt) % 4 ≠ 0 →
        exec (e.1 rs1 rs2 offset) s =
          .fault (.instructionAddressMisaligned s.pc (BitVec.ofInt 32 ((s.pc.toNat : Int) + offset.toInt))))

/-- `45_jumps.md` R180 to R183, R185 (the link value: derived there; a misaligned target and bit 0 of the target of
`jalr`: the spec's decisions D3, D14). For both jumps: the encoding; to a multiple of 4, the link value goes to `x[rd]`
and `pc` to the target, which for `jalr` is computed from the old base; elsewhere, the fault, and nothing is written. -/
def Obligations.JumpOutcomes : Prop :=
  (∀ w : Word, w &&& 0x0000007F#32 = 0x0000006F#32 → decode w = .ok (.jal (fieldRd w) (fieldImmJ w))) ∧
  (∀ w : Word, w &&& 0x0000707F#32 = 0x00000067#32 →
    decode w = .ok (.jalr (fieldRd w) (fieldRs1 w) (fieldImmI w))) ∧
  (∀ (rd : RegIdx) (offset : BitVec 21) (s : State),
    (((s.pc.toNat : Int) + offset.toInt) % 4 = 0 →
      ∃ t, exec (.jal rd offset) s = .next t ∧ OnlyRegWritten s t rd (s.pc + 4#32) ∧
        t.pc = BitVec.ofInt 32 ((s.pc.toNat : Int) + offset.toInt)) ∧
    (((s.pc.toNat : Int) + offset.toInt) % 4 ≠ 0 →
      exec (.jal rd offset) s =
        .fault (.instructionAddressMisaligned s.pc (BitVec.ofInt 32 ((s.pc.toNat : Int) + offset.toInt))))) ∧
  (∀ (rd rs1 : RegIdx) (imm : BitVec 12) (s : State), s.hasReg rs1 = true →
    ((((s.reg rs1).toNat : Int) + imm.toInt) % 4 = 0 →
      ∃ t, exec (.jalr rd rs1 imm) s = .next t ∧ OnlyRegWritten s t rd (s.pc + 4#32) ∧
        t.pc = BitVec.ofInt 32 (((s.reg rs1).toNat : Int) + imm.toInt)) ∧
    ((((s.reg rs1).toNat : Int) + imm.toInt) % 4 ≠ 0 →
      exec (.jalr rd rs1 imm) s =
        .fault (.instructionAddressMisaligned s.pc (BitVec.ofInt 32 (((s.reg rs1).toNat : Int) + imm.toInt)))))

/-! ### Pseudo-instructions -/

/-- `47_pseudo_instructions.md` R202, R204 (derived there, the two-instruction form the spec's decision D29): the two
instructions of `li` leave any 32-bit constant in any register but `x0`, and change nothing else. -/
def Obligations.LiLoadsEveryConstant : Prop :=
  ∀ (s : State) (rd : RegIdx) (c : Word), rd ≠ 0#5 →
    expandLi rd c = [.lui rd (hiPart c), .addi rd rd (loPart c)] ∧
    ∃ t u, exec (.lui rd (hiPart c)) s = .next t ∧ exec (.addi rd rd (loPart c)) t = .next u ∧
      OnlyRegWritten s u rd c ∧ u.pc = s.pc + 8#32

/-- `47_pseudo_instructions.md` R203, R204 (derived there, with the pre-increment of conflict C11): the two instructions
of `call` reach any target that is a multiple of 4 from any address and leave in `ra` the address after the pair. -/
def Obligations.CallReachesEveryTarget : Prop :=
  ∀ (s : State) (target : Word), target.toNat % 4 = 0 →
    expandCall (target - s.pc) = [.auipc 1#5 (hiPart (target - s.pc)), .jalr 1#5 1#5 (loPart (target - s.pc))] ∧
    ∃ t u, exec (.auipc 1#5 (hiPart (target - s.pc))) s = .next t ∧
      exec (.jalr 1#5 1#5 (loPart (target - s.pc))) t = .next u ∧
      OnlyRegWritten s u 1#5 (s.pc + 8#32) ∧ u.pc = target

/-! ### The start of a run -/

/-- `10_state.md` section 7, R35, and `70_reset_and_hazards.md` R260 to R263 (the spec's decisions D15, D16): the state
at the start of a run, for every launch. -/
def Obligations.LaunchStateFollowsTheTable : Prop :=
  ∀ l : Launch,
    (State.launch l).pc = l.resetPc ∧ (State.launch l).reg 0#5 = 0#32 ∧
    (∀ i, i ≠ 0#5 → ∀ v, l.initRegs.lookup i = some v →
      (State.launch l).reg i = v ∧ (State.launch l).hasReg i = true) ∧
    (∀ i, i ≠ 0#5 → l.initRegs.lookup i = none → (State.launch l).hasReg i = false) ∧
    (∀ a : Word, Memory.read (State.launch l).mem a.toNat = l.initMem.lookup a) ∧
    (∀ a, AddrSet.has (State.launch l).stored a = false) ∧ (State.launch l).fault = none ∧
    (State.launch l).memMap = l.memMap ∧ (State.launch l).exitPc = l.exitPc

/-- The launch of State.reset, the model's choices of the assumption log's entries 1 to 5: every register holds 0, no
byte of memory holds a value, every access is admitted, so that the first step is refused for want of a program. -/
def Obligations.ResetIsTheLaunchTheModelNames : Prop :=
  State.reset.pc = 0#32 ∧ State.reset.exitPc = 0xFFFFFFFC#32 ∧ State.reset.fault = none ∧
  (∀ i, State.reset.reg i = 0#32 ∧ State.reset.hasReg i = true) ∧
  (∀ a, Memory.read State.reset.mem a = none ∧ AddrSet.has State.reset.stored a = false) ∧
  (∀ a n k, memAdmits State.reset.memMap a n k = true) ∧
  step State.reset = .refused (.uninitialisedRead 0#32 (.mem 0#32))

/-! ### Whole-machine rules -/

/-- The invariant of the machine, kept by every step from every state that has it: memory and `Stored` canonical, every
stored byte holding a value, `pc` a multiple of 4 (`10_state.md` R27, decision D3), no fault recorded. -/
def Obligations.EveryStepKeepsTheInvariant : Prop :=
  ∀ s t : State, Inv s → step s = .next t → Inv t

/-- The invariant holds at State.reset (whose values are the model's, entries 1 to 5). -/
def Obligations.ResetHasTheInvariant : Prop := Inv State.reset

/-- The invariant holds at the start of every launch whose `RESET_PC` is a multiple of 4 (`70_reset_and_hazards.md`
R261, the spec's decision D15). -/
def Obligations.AlignedLaunchHasTheInvariant : Prop :=
  ∀ l : Launch, l.resetPc.toNat % 4 = 0 → Inv (State.launch l)

/-- `10_state.md` R34, R35, `20_memory.md` R55, `60_exceptions.md` R233 (the spec's decisions D5, D9, D16): what holds a
value goes on holding one, what was stored stays in `Stored`, the launch parameters never change, and a state that a
step reaches has no fault recorded. -/
def Obligations.StepsOnlyAddKnowledge : Prop :=
  ∀ s t : State, step s = .next t →
    t.memMap = s.memMap ∧ t.exitPc = s.exitPc ∧ t.fault = none ∧
    (∀ i, s.hasReg i = true → t.hasReg i = true) ∧
    (∀ a, (Memory.read s.mem a).isSome = true → (Memory.read t.mem a).isSome = true) ∧
    (∀ a, AddrSet.has s.stored a = true → AddrSet.has t.stored a = true)

/-- `10_state.md` R24, R32 (R32 derived there): whatever the instruction, a completed one changes no register but its
destination; one that is no store changes no byte of memory, and a store changes none outside the bytes of its own
address and size. -/
def Obligations.OnlyDestinationsAndStoresChangeState : Prop :=
  ∀ (i : Instr) (s t : State), exec i s = .next t →
    (∀ j, destination i ≠ some j → t.reg j = s.reg j ∧ t.hasReg j = s.hasReg j) ∧
    (storeAccess i s = none → SameMemory s t) ∧
    (∀ addr n, storeAccess i s = some (addr, n) → SameMemoryOutside s t addr (AccessSize.bytes n)) ∧ SamePlatform s t

/-- `10_state.md` R24, R25, R20 (the checks on an access, and the bookkeeping: the spec's decisions D2, D3, D9, D16): an
instruction sees only its source registers, `pc`, memory and the memory map. Two states that agree on those give the
same stop, or next states with the same `pc`, the same memory and the same value in the destination. -/
def Obligations.OnlySourcesMatter : Prop :=
  ∀ (i : Instr) (s u : State), s.pc = u.pc → s.mem = u.mem → s.memMap = u.memMap →
    (∀ r ∈ sources i, s.reg r = u.reg r ∧ s.hasReg r = u.hasReg r) →
    (∀ t, exec i s = .next t → ∃ v, exec i u = .next v ∧ v.pc = t.pc ∧ v.mem = t.mem ∧
      (∀ rd, destination i = some rd → v.reg rd = t.reg rd) ∧
      (∀ j, destination i ≠ some j → v.reg j = u.reg j)) ∧
    (∀ f, exec i s = .fault f → exec i u = .fault f) ∧
    (∀ r, exec i s = .refused r → exec i u = .refused r)

/-- `60_exceptions.md` section 2, the table of R230, and R232 to R234 (the spec's decisions D2, D3, D5, D9, D14, D16,
D23, D24): which instruction can stop for which reason, at its own address. A fault has every source readable and names
the target of the taken branch or the jump, or the address of the access; each cause is there and no earlier one. A
refusal names the first source without a value, or the address of an aligned, admitted load one of whose bytes holds
none. -/
def Obligations.EveryStopHasItsCause : Prop :=
  ∀ (i : Instr) (s : State),
    (∀ f, exec i s = .fault f → (∀ q ∈ sources i, s.hasReg q = true) ∧
      ((∃ t, transferTarget i s = some t ∧ t.toNat % 4 ≠ 0 ∧ f = .instructionAddressMisaligned s.pc t) ∨
        (∃ a n, loadAccess i s = some (a, n) ∧
          ((a.toNat % AccessSize.bytes n ≠ 0 ∧ f = .loadAddressMisaligned s.pc a) ∨
            (a.toNat % AccessSize.bytes n = 0 ∧ memAdmits s.memMap a n .load = false ∧ f = .loadAccessFault s.pc a))) ∨
        (∃ a n, storeAccess i s = some (a, n) ∧
          ((a.toNat % AccessSize.bytes n ≠ 0 ∧ f = .storeAddressMisaligned s.pc a) ∨
            (a.toNat % AccessSize.bytes n = 0 ∧ memAdmits s.memMap a n .store = false ∧
              f = .storeAccessFault s.pc a))))) ∧
    (∀ r, exec i s = .refused r →
      (∃ before q after, sources i = before ++ q :: after ∧ (∀ p ∈ before, s.hasReg p = true) ∧ s.hasReg q = false ∧
        r = .uninitialisedRead s.pc (.reg q)) ∨
      ((∀ q ∈ sources i, s.hasReg q = true) ∧ ∃ a n, loadAccess i s = some (a, n) ∧
        a.toNat % AccessSize.bytes n = 0 ∧ memAdmits s.memMap a n .load = true ∧
        (∃ k < AccessSize.bytes n, Memory.read s.mem (a.toNat + k) = none) ∧ r = .uninitialisedRead s.pc (.mem a)))

/-- `20_memory.md` section 7, R61, and `70_reset_and_hazards.md` R273 (the spec's decision D12): once a byte has been
stored, no step of the run, however late, executes an instruction that covers it. -/
def Obligations.StoredBytesAreNeverExecuted : Prop :=
  ∀ (k : Nat) (s u t : State) (a : Nat), AddrSet.has s.stored a = true → Host.Core.run core k s = .next u →
    step u = .next t → ¬(u.pc.toNat ≤ a ∧ a < u.pc.toNat + 4)

/-! ### Runs -/

/-- `70_reset_and_hazards.md` section 3, R266 (the spec's decision D17): a run that is at `EXIT_PC` with no fault has
ended well in that state, whatever stands there; the instruction is not executed. That this holds of an `EXIT_PC` that
is not a multiple of 4 too is the model's choice (assumption log entry 25). -/
def Obligations.RunEndsAtExitPc : Prop :=
  ∀ (k : Nat) (s : State), s.fault = none → s.pc = s.exitPc → run k s = .endedWell s

/-- `70_reset_and_hazards.md` section 3, R266, and `60_exceptions.md` R233, R236 (the spec's decisions D5, D17): a run
that is over stays over, with the same final state, however many more steps are allowed. -/
def Obligations.FinishedRunsStayFinished : Prop :=
  ∀ (k m : Nat) (s t : State),
    (run k s = .endedWell t → run (k + m) s = .endedWell t) ∧ (run k s = .stopped t → run (k + m) s = .stopped t)

/-- `70_reset_and_hazards.md` section 3, R266 (the spec's decision D17): a run that ends well has stepped, by some
number of steps, to a state at `EXIT_PC` with no fault, and to no such state before. -/
def Obligations.GoodRunsStopAtTheFirstExit : Prop :=
  ∀ (k : Nat) (s t : State), run k s = .endedWell t →
    ∃ j ≤ k, Host.Core.run core j s = .next t ∧ t.fault = none ∧ t.pc = t.exitPc ∧
      ∀ n < j, ∀ u, Host.Core.run core n s = .next u → u.pc ≠ u.exitPc

/-- `60_exceptions.md` section 5, R233, R234 (decision D5; precision derived there): a run that stops has completed some
number of steps, and its state is that of the stopping instruction with the fault record written and nothing else. -/
def Obligations.StoppedRunsOnlyRecordTheFault : Prop :=
  ∀ (k : Nat) (s t : State), s.fault = none → run k s = .stopped t →
    ∃ j < k, ∃ (u : State) (r : FaultRecord), Host.Core.run core j s = .next u ∧ step u = raise r ∧
      t = { u with fault := some r }
end

