-- ==== Sys2Proof/Laws/Decode.lean ====
section
/-! SUPPORT. The fields of an encoded word, the word of its fields, and the masks of the opcode map as fields
(`30_encoding.md` R71 to R89, R101). -/

namespace Sys2Proof

/-! ### R -/

@[simp] theorem fieldOp_encodeR (f7 : BitVec 7) (rs2 rs1 : RegIdx) (f3 : BitVec 3) (rd : RegIdx) (op : BitVec 7) :
    fieldOp (encodeR f7 rs2 rs1 f3 rd op) = op := by
  apply BitVec.eq_of_getLsbD_eq
  intro k hk
  simp only [fieldOp, encodeR, BitVec.getLsbD_append, BitVec.getLsbD_extractLsb']
  interval_cases k <;> simp

@[simp] theorem fieldRd_encodeR (f7 : BitVec 7) (rs2 rs1 : RegIdx) (f3 : BitVec 3) (rd : RegIdx) (op : BitVec 7) :
    fieldRd (encodeR f7 rs2 rs1 f3 rd op) = rd := by
  apply BitVec.eq_of_getLsbD_eq
  intro k hk
  simp only [fieldRd, encodeR, BitVec.getLsbD_append, BitVec.getLsbD_extractLsb']
  interval_cases k <;> simp

@[simp] theorem fieldFunct3_encodeR (f7 : BitVec 7) (rs2 rs1 : RegIdx) (f3 : BitVec 3) (rd : RegIdx) (op : BitVec 7) :
    fieldFunct3 (encodeR f7 rs2 rs1 f3 rd op) = f3 := by
  apply BitVec.eq_of_getLsbD_eq
  intro k hk
  simp only [fieldFunct3, encodeR, BitVec.getLsbD_append, BitVec.getLsbD_extractLsb']
  interval_cases k <;> simp

@[simp] theorem fieldRs1_encodeR (f7 : BitVec 7) (rs2 rs1 : RegIdx) (f3 : BitVec 3) (rd : RegIdx) (op : BitVec 7) :
    fieldRs1 (encodeR f7 rs2 rs1 f3 rd op) = rs1 := by
  apply BitVec.eq_of_getLsbD_eq
  intro k hk
  simp only [fieldRs1, encodeR, BitVec.getLsbD_append, BitVec.getLsbD_extractLsb']
  interval_cases k <;> simp

@[simp] theorem fieldRs2_encodeR (f7 : BitVec 7) (rs2 rs1 : RegIdx) (f3 : BitVec 3) (rd : RegIdx) (op : BitVec 7) :
    fieldRs2 (encodeR f7 rs2 rs1 f3 rd op) = rs2 := by
  apply BitVec.eq_of_getLsbD_eq
  intro k hk
  simp only [fieldRs2, encodeR, BitVec.getLsbD_append, BitVec.getLsbD_extractLsb']
  interval_cases k <;> simp

@[simp] theorem fieldUimm_encodeR (f7 : BitVec 7) (rs2 rs1 : RegIdx) (f3 : BitVec 3) (rd : RegIdx) (op : BitVec 7) :
    fieldUimm (encodeR f7 rs2 rs1 f3 rd op) = rs2 := by
  apply BitVec.eq_of_getLsbD_eq
  intro k hk
  simp only [fieldUimm, encodeR, BitVec.getLsbD_append, BitVec.getLsbD_extractLsb']
  interval_cases k <;> simp

@[simp] theorem fieldFunct7_encodeR (f7 : BitVec 7) (rs2 rs1 : RegIdx) (f3 : BitVec 3) (rd : RegIdx) (op : BitVec 7) :
    fieldFunct7 (encodeR f7 rs2 rs1 f3 rd op) = f7 := by
  apply BitVec.eq_of_getLsbD_eq
  intro k hk
  simp only [fieldFunct7, encodeR, BitVec.getLsbD_append, BitVec.getLsbD_extractLsb']
  interval_cases k <;> simp

/-! ### I -/

@[simp] theorem fieldOp_encodeI (m : BitVec 12) (rs1 : RegIdx) (f3 : BitVec 3) (rd : RegIdx) (op : BitVec 7) :
    fieldOp (encodeI m rs1 f3 rd op) = op := by
  apply BitVec.eq_of_getLsbD_eq
  intro k hk
  simp only [fieldOp, encodeI, BitVec.getLsbD_append, BitVec.getLsbD_extractLsb']
  interval_cases k <;> simp

@[simp] theorem fieldRd_encodeI (m : BitVec 12) (rs1 : RegIdx) (f3 : BitVec 3) (rd : RegIdx) (op : BitVec 7) :
    fieldRd (encodeI m rs1 f3 rd op) = rd := by
  apply BitVec.eq_of_getLsbD_eq
  intro k hk
  simp only [fieldRd, encodeI, BitVec.getLsbD_append, BitVec.getLsbD_extractLsb']
  interval_cases k <;> simp

@[simp] theorem fieldFunct3_encodeI (m : BitVec 12) (rs1 : RegIdx) (f3 : BitVec 3) (rd : RegIdx) (op : BitVec 7) :
    fieldFunct3 (encodeI m rs1 f3 rd op) = f3 := by
  apply BitVec.eq_of_getLsbD_eq
  intro k hk
  simp only [fieldFunct3, encodeI, BitVec.getLsbD_append, BitVec.getLsbD_extractLsb']
  interval_cases k <;> simp

@[simp] theorem fieldRs1_encodeI (m : BitVec 12) (rs1 : RegIdx) (f3 : BitVec 3) (rd : RegIdx) (op : BitVec 7) :
    fieldRs1 (encodeI m rs1 f3 rd op) = rs1 := by
  apply BitVec.eq_of_getLsbD_eq
  intro k hk
  simp only [fieldRs1, encodeI, BitVec.getLsbD_append, BitVec.getLsbD_extractLsb']
  interval_cases k <;> simp

@[simp] theorem fieldImmI_encodeI (m : BitVec 12) (rs1 : RegIdx) (f3 : BitVec 3) (rd : RegIdx) (op : BitVec 7) :
    fieldImmI (encodeI m rs1 f3 rd op) = m := by
  apply BitVec.eq_of_getLsbD_eq
  intro k hk
  simp only [fieldImmI, encodeI, BitVec.getLsbD_append, BitVec.getLsbD_extractLsb']
  interval_cases k <;> simp

/-! ### S -/

@[simp] theorem fieldOp_encodeS (m : BitVec 12) (rs2 rs1 : RegIdx) (f3 : BitVec 3) (op : BitVec 7) :
    fieldOp (encodeS m rs2 rs1 f3 op) = op := by
  apply BitVec.eq_of_getLsbD_eq
  intro k hk
  simp only [fieldOp, encodeS, BitVec.getLsbD_append, BitVec.getLsbD_extractLsb']
  interval_cases k <;> simp

@[simp] theorem fieldFunct3_encodeS (m : BitVec 12) (rs2 rs1 : RegIdx) (f3 : BitVec 3) (op : BitVec 7) :
    fieldFunct3 (encodeS m rs2 rs1 f3 op) = f3 := by
  apply BitVec.eq_of_getLsbD_eq
  intro k hk
  simp only [fieldFunct3, encodeS, BitVec.getLsbD_append, BitVec.getLsbD_extractLsb']
  interval_cases k <;> simp

@[simp] theorem fieldRs1_encodeS (m : BitVec 12) (rs2 rs1 : RegIdx) (f3 : BitVec 3) (op : BitVec 7) :
    fieldRs1 (encodeS m rs2 rs1 f3 op) = rs1 := by
  apply BitVec.eq_of_getLsbD_eq
  intro k hk
  simp only [fieldRs1, encodeS, BitVec.getLsbD_append, BitVec.getLsbD_extractLsb']
  interval_cases k <;> simp

@[simp] theorem fieldRs2_encodeS (m : BitVec 12) (rs2 rs1 : RegIdx) (f3 : BitVec 3) (op : BitVec 7) :
    fieldRs2 (encodeS m rs2 rs1 f3 op) = rs2 := by
  apply BitVec.eq_of_getLsbD_eq
  intro k hk
  simp only [fieldRs2, encodeS, BitVec.getLsbD_append, BitVec.getLsbD_extractLsb']
  interval_cases k <;> simp

@[simp] theorem fieldImmS_encodeS (m : BitVec 12) (rs2 rs1 : RegIdx) (f3 : BitVec 3) (op : BitVec 7) :
    fieldImmS (encodeS m rs2 rs1 f3 op) = m := by
  apply BitVec.eq_of_getLsbD_eq
  intro k hk
  simp only [fieldImmS, encodeS, BitVec.getLsbD_append, BitVec.getLsbD_extractLsb']
  interval_cases k <;> simp

/-! ### B -/

@[simp] theorem fieldOp_encodeB (m : BitVec 13) (rs2 rs1 : RegIdx) (f3 : BitVec 3) (op : BitVec 7) :
    fieldOp (encodeB m rs2 rs1 f3 op) = op := by
  apply BitVec.eq_of_getLsbD_eq
  intro k hk
  simp only [fieldOp, encodeB, BitVec.getLsbD_append, BitVec.getLsbD_extractLsb']
  interval_cases k <;> simp

@[simp] theorem fieldFunct3_encodeB (m : BitVec 13) (rs2 rs1 : RegIdx) (f3 : BitVec 3) (op : BitVec 7) :
    fieldFunct3 (encodeB m rs2 rs1 f3 op) = f3 := by
  apply BitVec.eq_of_getLsbD_eq
  intro k hk
  simp only [fieldFunct3, encodeB, BitVec.getLsbD_append, BitVec.getLsbD_extractLsb']
  interval_cases k <;> simp

@[simp] theorem fieldRs1_encodeB (m : BitVec 13) (rs2 rs1 : RegIdx) (f3 : BitVec 3) (op : BitVec 7) :
    fieldRs1 (encodeB m rs2 rs1 f3 op) = rs1 := by
  apply BitVec.eq_of_getLsbD_eq
  intro k hk
  simp only [fieldRs1, encodeB, BitVec.getLsbD_append, BitVec.getLsbD_extractLsb']
  interval_cases k <;> simp

@[simp] theorem fieldRs2_encodeB (m : BitVec 13) (rs2 rs1 : RegIdx) (f3 : BitVec 3) (op : BitVec 7) :
    fieldRs2 (encodeB m rs2 rs1 f3 op) = rs2 := by
  apply BitVec.eq_of_getLsbD_eq
  intro k hk
  simp only [fieldRs2, encodeB, BitVec.getLsbD_append, BitVec.getLsbD_extractLsb']
  interval_cases k <;> simp

/-! ### U -/

@[simp] theorem fieldOp_encodeU (m : BitVec 20) (rd : RegIdx) (op : BitVec 7) :
    fieldOp (encodeU m rd op) = op := by
  apply BitVec.eq_of_getLsbD_eq
  intro k hk
  simp only [fieldOp, encodeU, BitVec.getLsbD_append, BitVec.getLsbD_extractLsb']
  interval_cases k <;> simp

@[simp] theorem fieldRd_encodeU (m : BitVec 20) (rd : RegIdx) (op : BitVec 7) :
    fieldRd (encodeU m rd op) = rd := by
  apply BitVec.eq_of_getLsbD_eq
  intro k hk
  simp only [fieldRd, encodeU, BitVec.getLsbD_append, BitVec.getLsbD_extractLsb']
  interval_cases k <;> simp

@[simp] theorem fieldUpimm_encodeU (m : BitVec 20) (rd : RegIdx) (op : BitVec 7) :
    fieldUpimm (encodeU m rd op) = m := by
  apply BitVec.eq_of_getLsbD_eq
  intro k hk
  simp only [fieldUpimm, encodeU, BitVec.getLsbD_append, BitVec.getLsbD_extractLsb']
  interval_cases k <;> simp

/-! ### J -/

@[simp] theorem fieldOp_encodeJ (m : BitVec 21) (rd : RegIdx) (op : BitVec 7) :
    fieldOp (encodeJ m rd op) = op := by
  apply BitVec.eq_of_getLsbD_eq
  intro k hk
  simp only [fieldOp, encodeJ, BitVec.getLsbD_append, BitVec.getLsbD_extractLsb']
  interval_cases k <;> simp

@[simp] theorem fieldRd_encodeJ (m : BitVec 21) (rd : RegIdx) (op : BitVec 7) :
    fieldRd (encodeJ m rd op) = rd := by
  apply BitVec.eq_of_getLsbD_eq
  intro k hk
  simp only [fieldRd, encodeJ, BitVec.getLsbD_append, BitVec.getLsbD_extractLsb']
  interval_cases k <;> simp

/-- The B offset comes back when it is even (R101). -/
theorem fieldImmB_encodeB (m : BitVec 13) (rs2 rs1 : RegIdx) (f3 : BitVec 3) (op : BitVec 7) (hm : evenOffset m = true) :
    fieldImmB (encodeB m rs2 rs1 f3 op) = m := by
  apply BitVec.eq_of_getLsbD_eq
  intro k hk
  have h0 : m[0] = false := by simpa [evenOffset] using hm
  simp only [fieldImmB, encodeB, BitVec.getLsbD_append, BitVec.getLsbD_extractLsb']
  interval_cases k <;> simp [h0]

/-- The B offset a word holds is even (R83). -/
theorem evenOffset_fieldImmB (w : Word) : evenOffset (fieldImmB w) = true := by
  simp only [evenOffset, fieldImmB, BitVec.getLsbD_append]
  simp

/-- The J offset comes back when it is even (R101). -/
theorem fieldImmJ_encodeJ (m : BitVec 21) (rd : RegIdx) (op : BitVec 7) (hm : evenOffset m = true) :
    fieldImmJ (encodeJ m rd op) = m := by
  apply BitVec.eq_of_getLsbD_eq
  intro k hk
  have h0 : m[0] = false := by simpa [evenOffset] using hm
  simp only [fieldImmJ, encodeJ, BitVec.getLsbD_append, BitVec.getLsbD_extractLsb']
  interval_cases k <;> simp [h0]

/-- The J offset a word holds is even (R85). -/
theorem evenOffset_fieldImmJ (w : Word) : evenOffset (fieldImmJ w) = true := by
  simp only [evenOffset, fieldImmJ, BitVec.getLsbD_append]
  simp

/-! ### The word of its fields -/

theorem encodeR_fields (w : Word) : encodeR (fieldFunct7 w) (fieldRs2 w) (fieldRs1 w) (fieldFunct3 w) (fieldRd w) (fieldOp w) = w := by
  apply BitVec.eq_of_getLsbD_eq
  intro k hk
  simp only [encodeR, fieldFunct7, fieldRs2, fieldRs1, fieldFunct3, fieldRd, fieldOp, BitVec.getLsbD_append, BitVec.getLsbD_extractLsb']
  interval_cases k <;> simp

theorem encodeI_fields (w : Word) : encodeI (fieldImmI w) (fieldRs1 w) (fieldFunct3 w) (fieldRd w) (fieldOp w) = w := by
  apply BitVec.eq_of_getLsbD_eq
  intro k hk
  simp only [encodeI, fieldImmI, fieldRs1, fieldFunct3, fieldRd, fieldOp, BitVec.getLsbD_append, BitVec.getLsbD_extractLsb']
  interval_cases k <;> simp

theorem encodeS_fields (w : Word) : encodeS (fieldImmS w) (fieldRs2 w) (fieldRs1 w) (fieldFunct3 w) (fieldOp w) = w := by
  apply BitVec.eq_of_getLsbD_eq
  intro k hk
  simp only [encodeS, fieldImmS, fieldRs2, fieldRs1, fieldFunct3, fieldOp, BitVec.getLsbD_append, BitVec.getLsbD_extractLsb']
  interval_cases k <;> simp

theorem encodeB_fields (w : Word) : encodeB (fieldImmB w) (fieldRs2 w) (fieldRs1 w) (fieldFunct3 w) (fieldOp w) = w := by
  apply BitVec.eq_of_getLsbD_eq
  intro k hk
  simp only [encodeB, fieldImmB, fieldRs2, fieldRs1, fieldFunct3, fieldOp, BitVec.getLsbD_append, BitVec.getLsbD_extractLsb']
  interval_cases k <;> simp

theorem encodeU_fields (w : Word) : encodeU (fieldUpimm w) (fieldRd w) (fieldOp w) = w := by
  apply BitVec.eq_of_getLsbD_eq
  intro k hk
  simp only [encodeU, fieldUpimm, fieldRd, fieldOp, BitVec.getLsbD_append, BitVec.getLsbD_extractLsb']
  interval_cases k <;> simp

theorem encodeJ_fields (w : Word) : encodeJ (fieldImmJ w) (fieldRd w) (fieldOp w) = w := by
  apply BitVec.eq_of_getLsbD_eq
  intro k hk
  simp only [encodeJ, fieldImmJ, fieldRd, fieldOp, BitVec.getLsbD_append, BitVec.getLsbD_extractLsb']
  interval_cases k <;> simp

/-! ### The masks of R89 -/

theorem maskOp_fields (w : Word) : w &&& maskOp = 0#25 ++ fieldOp w := by
  apply BitVec.eq_of_getLsbD_eq
  intro k hk
  simp only [fieldOp, maskOp, BitVec.getLsbD_and, BitVec.getLsbD_append, BitVec.getLsbD_extractLsb']
  interval_cases k <;> simp

theorem maskOpFunct3_fields (w : Word) : w &&& maskOpFunct3 = 0#17 ++ fieldFunct3 w ++ 0#5 ++ fieldOp w := by
  apply BitVec.eq_of_getLsbD_eq
  intro k hk
  simp only [fieldOp, fieldFunct3, maskOpFunct3, BitVec.getLsbD_and, BitVec.getLsbD_append,
    BitVec.getLsbD_extractLsb']
  interval_cases k <;> simp

theorem maskAll_fields (w : Word) :
    w &&& maskAll = fieldFunct7 w ++ 0#10 ++ fieldFunct3 w ++ 0#5 ++ fieldOp w := by
  apply BitVec.eq_of_getLsbD_eq
  intro k hk
  simp only [fieldOp, fieldFunct3, fieldFunct7, maskAll, BitVec.getLsbD_and, BitVec.getLsbD_append,
    BitVec.getLsbD_extractLsb']
  interval_cases k <;> simp

/-- The bytes of a word make the word again (R44). -/
theorem wordOfBytes_wordBytes (w : Word) :
    wordOfBytes (w.extractLsb' 0 8) (w.extractLsb' 8 8) (w.extractLsb' 16 8) (w.extractLsb' 24 8) = w := by
  apply BitVec.eq_of_getLsbD_eq
  intro k hk
  simp only [wordOfBytes, BitVec.getLsbD_append, BitVec.getLsbD_extractLsb']
  interval_cases k <;> simp

theorem decodeTableWord_eq (nbits w : Nat) : decodeTableWord nbits w = (decode (tableWord nbits w)).toOption := by
  simp only [decodeTableWord, wordBytes, decodeBytes, wordOfBytes_wordBytes]
  cases decode (tableWord nbits w) <;> rfl

end Sys2Proof
end

