-- ==== Sys2Proof/Laws/Memory.lean ====
section
/-! SUPPORT. Reads after writes, and that every operation on memory and on sets of addresses keeps the canonical form
(`20_memory.md` R43 to R48). -/

namespace Sys2Proof.Machine

/-- Read after write. -/
theorem memory_read_write (m : Memory) (a b : Nat) (v : Byte) :
    Memory.read (Memory.write m a v) b = if b = a then some v else Memory.read m b := by
  induction m with
  | nil => simp [Memory.write, Memory.read]
  | cons c m ih =>
    obtain ⟨d, u⟩ := c
    simp only [Memory.write]
    split
    · rfl
    · split
      · next h1 h2 =>
        subst h2
        simp only [Memory.read]
        split <;> rfl
      · next h1 h2 =>
        simp only [Memory.read, ih]
        by_cases h : b = d
        · have : b ≠ a := fun e => h2 (e ▸ h)
          simp [h, Ne.symm h2]
        · simp [h]

theorem memory_mem_write {m : Memory} {a : Nat} {v : Byte} {c : Host.Cell} (h : c ∈ Memory.write m a v) :
    c = (a, v) ∨ c ∈ m := by
  induction m with
  | nil => simpa [Memory.write] using h
  | cons d m ih =>
    obtain ⟨b, u⟩ := d
    simp only [Memory.write] at h
    split at h
    · simpa using h
    · split at h
      · rcases List.mem_cons.mp h with h | h
        · exact .inl h
        · exact .inr (List.mem_cons_of_mem _ h)
      · rcases List.mem_cons.mp h with h | h
        · exact .inr (h ▸ List.mem_cons_self ..)
        · exact (ih h).imp id (List.mem_cons_of_mem _)

/-- A write of a byte of the address space keeps the canonical form. -/
theorem memory_write_wf {m : Memory} (hm : Memory.wf m) {a : Nat} (ha : a < 2 ^ 32) (v : Byte) :
    Memory.wf (Memory.write m a v) := by
  refine ⟨?_, fun c hc => ?_⟩
  · have hp := hm.1
    clear hm
    induction m with
    | nil => simp [Memory.write]
    | cons d m ih =>
      obtain ⟨b, u⟩ := d
      simp only [List.map_cons, List.pairwise_cons] at hp
      simp only [Memory.write]
      split
      · next h =>
        simp only [List.map_cons, List.pairwise_cons]
        refine ⟨fun x hx => ?_, hp⟩
        rcases List.mem_cons.mp hx with rfl | hx
        · exact h
        · exact lt_trans h (hp.1 x hx)
      · split
        · next h =>
          subst h
          simpa using hp
        · next h1 h2 =>
          simp only [List.map_cons, List.pairwise_cons]
          refine ⟨fun x hx => ?_, ih hp.2⟩
          obtain ⟨c, hc, rfl⟩ := List.mem_map.mp hx
          rcases memory_mem_write hc with rfl | hc
          · show b < a
            omega
          · exact hp.1 _ (List.mem_map_of_mem hc)
  · rcases memory_mem_write hc with rfl | hc
    · exact ha
    · exact hm.2 c hc

/-- Read after a write of several bytes. -/
theorem memory_read_writeBytes (m : Memory) (a b : Nat) (bs : List Byte) :
    Memory.read (Memory.writeBytes m a bs) b =
      if a ≤ b ∧ b < a + bs.length then bs[b - a]? else Memory.read m b := by
  induction bs generalizing m a with
  | nil => simp [Memory.writeBytes, show ¬(a ≤ b ∧ b < a) by omega]
  | cons c bs ih =>
    simp only [Memory.writeBytes, ih, memory_read_write, List.length_cons]
    by_cases h : b = a
    · subst h
      simp
    · by_cases h2 : a ≤ b ∧ b < a + (bs.length + 1)
      · rw [if_pos h2, if_pos (by omega), show b - a = b - (a + 1) + 1 by omega, List.getElem?_cons_succ]
      · rw [if_neg h2, if_neg (by omega), if_neg h]

theorem memory_writeBytes_wf {m : Memory} (hm : Memory.wf m) {a : Nat} (bs : List Byte) (ha : a + bs.length ≤ 2 ^ 32) :
    Memory.wf (Memory.writeBytes m a bs) := by
  induction bs generalizing m a with
  | nil => exact hm
  | cons c bs ih =>
    simp only [List.length_cons] at ha
    exact ih (memory_write_wf hm (by omega) c) (by omega)

/-- The memory of a launch is canonical (R262). -/
theorem memory_ofList_wf (l : List (Word × Byte)) : Memory.wf (Memory.ofList l) := by
  induction l with
  | nil => exact ⟨List.Pairwise.nil, fun c hc => by cases hc⟩
  | cons e l ih => exact memory_write_wf ih e.1.isLt e.2

/-- The memory of a launch: the first entry of `InitMem` for an address (R262). -/
theorem memory_read_ofList (l : List (Word × Byte)) (a : Word) :
    Memory.read (Memory.ofList l) a.toNat = l.lookup a := by
  induction l with
  | nil => rfl
  | cons e l ih =>
    have hw : Memory.ofList (e :: l) = Memory.write (Memory.ofList l) e.1.toNat e.2 := rfl
    rw [hw, memory_read_write, ih, List.lookup_cons]
    by_cases h : a = e.1
    · subst h
      simp
    · have hb : (a == e.1) = false := beq_eq_false_iff_ne.mpr h
      rw [hb, if_neg (fun e' => h (BitVec.eq_of_toNat_eq e'))]

/-! ### Sets of addresses -/

theorem addrSet_has_iff (l : AddrSet) (a : Nat) : AddrSet.has l a = true ↔ a ∈ l := by
  induction l with
  | nil => simp [AddrSet.has]
  | cons b l ih => simp [AddrSet.has, ih]

theorem addrSet_mem_add (l : AddrSet) (a b : Nat) : b ∈ AddrSet.add l a ↔ b = a ∨ b ∈ l := by
  induction l with
  | nil => simp [AddrSet.add]
  | cons c l ih =>
    simp only [AddrSet.add]
    split
    · simp
    · split
      · next h => subst h; simp
      · simp only [List.mem_cons, ih]
        tauto

theorem addrSet_add_wf {l : AddrSet} (hl : AddrSet.wf l) {a : Nat} (ha : a < 2 ^ 32) : AddrSet.wf (AddrSet.add l a) := by
  refine ⟨?_, fun b hb => ?_⟩
  · have hp := hl.1
    clear hl
    induction l with
    | nil => simp [AddrSet.add]
    | cons c l ih =>
      simp only [List.pairwise_cons] at hp
      simp only [AddrSet.add]
      split
      · next h =>
        simp only [List.pairwise_cons]
        refine ⟨fun x hx => ?_, hp⟩
        rcases List.mem_cons.mp hx with rfl | hx
        · exact h
        · exact lt_trans h (hp.1 x hx)
      · split
        · simpa using hp
        · simp only [List.pairwise_cons]
          refine ⟨fun x hx => ?_, ih hp.2⟩
          rcases (addrSet_mem_add l a x).mp hx with rfl | hx
          · omega
          · exact hp.1 x hx
  · rcases (addrSet_mem_add l a b).mp hb with rfl | hb
    · exact ha
    · exact hl.2 b hb

/-- Membership after a range of addresses has joined. -/
theorem addrSet_has_addRange (l : AddrSet) (a n b : Nat) :
    AddrSet.has (AddrSet.addRange l a n) b = (AddrSet.has l b || decide (a ≤ b ∧ b < a + n)) := by
  induction n generalizing l a with
  | zero => simp [AddrSet.addRange, show ¬(a ≤ b ∧ b < a) by omega]
  | succ n ih =>
    rw [AddrSet.addRange, ih]
    have h : AddrSet.has (AddrSet.add l a) b = (AddrSet.has l b || decide (b = a)) := by
      rw [Bool.eq_iff_iff]
      simp only [addrSet_has_iff, addrSet_mem_add, Bool.or_eq_true, decide_eq_true_eq]
      tauto
    rw [h, Bool.or_assoc, ← Bool.decide_or]
    congr 1
    exact decide_eq_decide.mpr (by omega)

theorem addrSet_addRange_wf {l : AddrSet} (hl : AddrSet.wf l) {a n : Nat} (h : a + n ≤ 2 ^ 32) :
    AddrSet.wf (AddrSet.addRange l a n) := by
  induction n generalizing l a with
  | zero => exact hl
  | succ n ih => exact ih (addrSet_add_wf hl (by omega)) (by omega)

/-- Membership after a range of addresses has left. -/
theorem addrSet_has_dropRange (l : AddrSet) (a n b : Nat) :
    AddrSet.has (AddrSet.dropRange l a n) b = (AddrSet.has l b && !decide (a ≤ b ∧ b < a + n)) := by
  rw [Bool.eq_iff_iff]
  simp [addrSet_has_iff, AddrSet.dropRange, List.mem_filter]

theorem addrSet_dropRange_wf {l : AddrSet} (hl : AddrSet.wf l) (a n : Nat) : AddrSet.wf (AddrSet.dropRange l a n) :=
  ⟨hl.1.filter _, fun b hb => hl.2 b (List.mem_filter.mp hb).1⟩

/-- A range meets the set exactly when one of its addresses is in it. -/
theorem addrSet_meets_iff (l : AddrSet) (a n : Nat) :
    AddrSet.meets l a n = true ↔ ∃ k < n, AddrSet.has l (a + k) = true := by
  induction n generalizing a with
  | zero => simp [AddrSet.meets]
  | succ n ih =>
    rw [AddrSet.meets, Bool.or_eq_true, ih]
    constructor
    · rintro (h | ⟨k, hk, h⟩)
      · exact ⟨0, by omega, h⟩
      · exact ⟨k + 1, by omega, by rwa [show a + (k + 1) = a + 1 + k by omega]⟩
    · rintro ⟨k, hk, h⟩
      cases k with
      | zero => exact .inl h
      | succ k => exact .inr ⟨k, by omega, by rwa [show a + 1 + k = a + (k + 1) by omega]⟩

/-! ### Wide reads -/

theorem memory_readHalf_of_bytes {m : Memory} {a : Nat} {b0 b1 : Byte} (h0 : Memory.read m a = some b0)
    (h1 : Memory.read m (a + 1) = some b1) : Memory.readHalf m a = some (b1 ++ b0) := by
  simp only [Memory.readHalf, h0, h1]

theorem memory_readWord_of_bytes {m : Memory} {a : Nat} {b0 b1 b2 b3 : Byte} (h0 : Memory.read m a = some b0)
    (h1 : Memory.read m (a + 1) = some b1) (h2 : Memory.read m (a + 2) = some b2)
    (h3 : Memory.read m (a + 3) = some b3) : Memory.readWord m a = some (b3 ++ b2 ++ b1 ++ b0) := by
  simp only [Memory.readWord, h0, h1, h2, h3]

/-- A half is read exactly when both its bytes hold a value (R46 step 3). -/
theorem memory_readHalf_none_iff (m : Memory) (a : Nat) :
    Memory.readHalf m a = none ↔ Memory.read m a = none ∨ Memory.read m (a + 1) = none := by
  unfold Memory.readHalf
  cases Memory.read m a <;> cases Memory.read m (a + 1) <;> simp

/-- A word is read exactly when its four bytes hold a value (R46 step 3, R48 step 3). -/
theorem memory_readWord_none_iff (m : Memory) (a : Nat) :
    Memory.readWord m a = none ↔ Memory.read m a = none ∨ Memory.read m (a + 1) = none ∨
      Memory.read m (a + 2) = none ∨ Memory.read m (a + 3) = none := by
  unfold Memory.readWord
  cases Memory.read m a <;> cases Memory.read m (a + 1) <;> cases Memory.read m (a + 2) <;>
    cases Memory.read m (a + 3) <;> simp

/-! ### Alignment -/

theorem aligned_byte (a : Word) : aligned a .byte = true := by
  simp [aligned, AccessSize.bytes, Nat.mod_one]

theorem aligned_half_iff (a : Word) : aligned a .half = true ↔ a.toNat % 2 = 0 := by
  simp [aligned, AccessSize.bytes]

theorem aligned_word_iff (a : Word) : aligned a .word = true ↔ a.toNat % 4 = 0 := by
  simp [aligned, AccessSize.bytes]

/-- An aligned access lies whole in the address space: it never wraps (R64). -/
theorem aligned_fits (a : Word) (n : AccessSize) (h : aligned a n = true) : a.toNat + AccessSize.bytes n ≤ 2 ^ 32 := by
  have := a.isLt
  cases n <;> simp only [aligned, AccessSize.bytes, beq_iff_eq] at h ⊢ <;> omega

end Sys2Proof.Machine
end

