-- ==== Sys2Proof/Laws/Registers.lean ====
section
/-! SUPPORT. What a read of a register answers after a write (`10_state.md` R22, R35). -/

namespace Sys2Proof.Machine

/-- Two registers other than x0 kept in one place are one register. -/
theorem regSlot_inj {i j : RegIdx} (hi : i ≠ 0#5) (hj : j ≠ 0#5) (h : regSlot i = regSlot j) : i = j := by
  have h1 : i.toNat - 1 = j.toNat - 1 := congrArg Fin.val h
  have h2 : i.toNat ≠ 0 := fun h => hi (BitVec.eq_of_toNat_eq h)
  have h3 : j.toNat ≠ 0 := fun h => hj (BitVec.eq_of_toNat_eq h)
  exact BitVec.eq_of_toNat_eq (by omega)

theorem vector_get_set {α : Type} {n : Nat} (v : Vector α n) (k l : Fin n) (x : α) :
    (v.set k x).get l = if k = l then x else v.get l := by
  rw [Vector.get_eq_getElem, Vector.getElem_set, Vector.get_eq_getElem]
  simp only [Fin.ext_iff]

@[simp] theorem regFile_read_zero (r : RegFile) : r.read 0#5 = 0#32 := rfl

@[simp] theorem regFile_hasValue_zero (r : RegFile) : r.hasValue 0#5 = true := rfl

@[simp] theorem regFile_write_zero (r : RegFile) (v : Word) : r.write 0#5 v = r := rfl

/-- Read after write (R15, R22). -/
theorem regFile_read_write (r : RegFile) (i j : RegIdx) (v : Word) :
    (r.write i v).read j = if j = i ∧ i ≠ 0#5 then v else r.read j := by
  unfold RegFile.write RegFile.read
  by_cases hi : i = 0#5
  · simp [hi]
  · by_cases hj : j = 0#5
    · subst hj
      simp [Ne.symm hi]
    · simp only [hi, hj, if_false, vector_get_set, ne_eq, not_false_eq_true, and_true]
      by_cases h : j = i
      · simp [h]
      · rw [if_neg (fun e => h (regSlot_inj hi hj e).symm), if_neg h]

/-- A write puts its register into `HasValue` and takes none out (R35). -/
theorem regFile_hasValue_write (r : RegFile) (i j : RegIdx) (v : Word) :
    (r.write i v).hasValue j = (r.hasValue j || j == i) := by
  unfold RegFile.write RegFile.hasValue
  by_cases hi : i = 0#5
  · subst hi
    by_cases hj : j = 0#5 <;> simp [hj]
  · by_cases hj : j = 0#5
    · simp [hj]
    · simp only [hi, hj, if_false, vector_get_set]
      by_cases h : j = i
      · simp [h]
      · rw [if_neg (fun e => h (regSlot_inj hi hj e).symm), beq_eq_false_iff_ne.mpr h, Bool.or_false]

/-- The registers of a launch: the first entry of `InitRegs` for a register, and no value where there is none (R262). -/
theorem regFile_ofList (l : List (RegIdx × Word)) (i : RegIdx) (hi : i ≠ 0#5) :
    (RegFile.ofList l).read i = (l.lookup i).getD 0#32 ∧ (RegFile.ofList l).hasValue i = (l.lookup i).isSome := by
  induction l with
  | nil => simp [RegFile.ofList, RegFile.empty, RegFile.read, RegFile.hasValue, hi, Vector.get_eq_getElem]
  | cons e l ih =>
    have hw : RegFile.ofList (e :: l) = (RegFile.ofList l).write e.1 e.2 := rfl
    rw [hw, regFile_read_write, regFile_hasValue_write, ih.1, ih.2, List.lookup_cons]
    by_cases h : i = e.1
    · subst h
      simp [hi]
    · have hb : (i == e.1) = false := beq_eq_false_iff_ne.mpr h
      simp [h, hb]

end Sys2Proof.Machine
end

