-- ==== Sys2Proof/Laws/State.lean ====
section
/-! SUPPORT. One lemma for each field and each update of the state. -/

namespace Sys2Proof.Machine

@[simp] theorem setPc_pc (s : State) (t : Word) : (s.setPc t).pc = t := rfl
@[simp] theorem setPc_regs (s : State) (t : Word) : (s.setPc t).regs = s.regs := rfl
@[simp] theorem setPc_mem (s : State) (t : Word) : (s.setPc t).mem = s.mem := rfl
@[simp] theorem setPc_stored (s : State) (t : Word) : (s.setPc t).stored = s.stored := rfl
@[simp] theorem setPc_fault (s : State) (t : Word) : (s.setPc t).fault = s.fault := rfl
@[simp] theorem setPc_memMap (s : State) (t : Word) : (s.setPc t).memMap = s.memMap := rfl
@[simp] theorem setPc_exitPc (s : State) (t : Word) : (s.setPc t).exitPc = s.exitPc := rfl
@[simp] theorem setPc_reg (s : State) (t : Word) (j : RegIdx) : (s.setPc t).reg j = s.reg j := rfl
@[simp] theorem setPc_hasReg (s : State) (t : Word) (j : RegIdx) : (s.setPc t).hasReg j = s.hasReg j := rfl

@[simp] theorem advance_pc (s : State) : s.advance.pc = s.pc + 4#32 := rfl
@[simp] theorem advance_regs (s : State) : s.advance.regs = s.regs := rfl
@[simp] theorem advance_mem (s : State) : s.advance.mem = s.mem := rfl
@[simp] theorem advance_stored (s : State) : s.advance.stored = s.stored := rfl
@[simp] theorem advance_fault (s : State) : s.advance.fault = s.fault := rfl
@[simp] theorem advance_memMap (s : State) : s.advance.memMap = s.memMap := rfl
@[simp] theorem advance_exitPc (s : State) : s.advance.exitPc = s.exitPc := rfl
@[simp] theorem advance_reg (s : State) (j : RegIdx) : s.advance.reg j = s.reg j := rfl
@[simp] theorem advance_hasReg (s : State) (j : RegIdx) : s.advance.hasReg j = s.hasReg j := rfl

@[simp] theorem setReg_pc (s : State) (i : RegIdx) (v : Word) : (s.setReg i v).pc = s.pc := rfl
@[simp] theorem setReg_regs (s : State) (i : RegIdx) (v : Word) : (s.setReg i v).regs = s.regs.write i v := rfl
@[simp] theorem setReg_mem (s : State) (i : RegIdx) (v : Word) : (s.setReg i v).mem = s.mem := rfl
@[simp] theorem setReg_stored (s : State) (i : RegIdx) (v : Word) : (s.setReg i v).stored = s.stored := rfl
@[simp] theorem setReg_fault (s : State) (i : RegIdx) (v : Word) : (s.setReg i v).fault = s.fault := rfl
@[simp] theorem setReg_memMap (s : State) (i : RegIdx) (v : Word) : (s.setReg i v).memMap = s.memMap := rfl
@[simp] theorem setReg_exitPc (s : State) (i : RegIdx) (v : Word) : (s.setReg i v).exitPc = s.exitPc := rfl

@[simp] theorem storeBytes_pc (s : State) (a : Word) (bs : List Byte) : (s.storeBytes a bs).pc = s.pc := rfl
@[simp] theorem storeBytes_regs (s : State) (a : Word) (bs : List Byte) : (s.storeBytes a bs).regs = s.regs := rfl
@[simp] theorem storeBytes_mem (s : State) (a : Word) (bs : List Byte) :
    (s.storeBytes a bs).mem = Memory.writeBytes s.mem a.toNat bs := rfl
@[simp] theorem storeBytes_stored (s : State) (a : Word) (bs : List Byte) :
    (s.storeBytes a bs).stored = AddrSet.addRange s.stored a.toNat bs.length := rfl
@[simp] theorem storeBytes_fault (s : State) (a : Word) (bs : List Byte) : (s.storeBytes a bs).fault = s.fault := rfl
@[simp] theorem storeBytes_memMap (s : State) (a : Word) (bs : List Byte) :
    (s.storeBytes a bs).memMap = s.memMap := rfl
@[simp] theorem storeBytes_exitPc (s : State) (a : Word) (bs : List Byte) :
    (s.storeBytes a bs).exitPc = s.exitPc := rfl
@[simp] theorem storeBytes_reg (s : State) (a : Word) (bs : List Byte) (j : RegIdx) :
    (s.storeBytes a bs).reg j = s.reg j := rfl
@[simp] theorem storeBytes_hasReg (s : State) (a : Word) (bs : List Byte) (j : RegIdx) :
    (s.storeBytes a bs).hasReg j = s.hasReg j := rfl

@[simp] theorem reg_zero (s : State) : s.reg 0#5 = 0#32 := rfl
@[simp] theorem hasReg_zero (s : State) : s.hasReg 0#5 = true := rfl
@[simp] theorem setReg_zero (s : State) (v : Word) : s.setReg 0#5 v = s := rfl

/-- Read after write of a register (R15, R22). -/
theorem setReg_reg (s : State) (i j : RegIdx) (v : Word) :
    (s.setReg i v).reg j = if j = i ∧ i ≠ 0#5 then v else s.reg j := regFile_read_write s.regs i j v

/-- A register holds a value after a write if it did, or if it is the one written (R35). -/
theorem setReg_hasReg (s : State) (i j : RegIdx) (v : Word) :
    (s.setReg i v).hasReg j = (s.hasReg j || j == i) := regFile_hasValue_write s.regs i j v

@[simp] theorem launch_pc (l : Launch) : (State.launch l).pc = l.resetPc := rfl
@[simp] theorem launch_regs (l : Launch) : (State.launch l).regs = RegFile.ofList l.initRegs := rfl
@[simp] theorem launch_mem (l : Launch) : (State.launch l).mem = Memory.ofList l.initMem := rfl
@[simp] theorem launch_stored (l : Launch) : (State.launch l).stored = [] := rfl
@[simp] theorem launch_fault (l : Launch) : (State.launch l).fault = none := rfl
@[simp] theorem launch_memMap (l : Launch) : (State.launch l).memMap = l.memMap := rfl
@[simp] theorem launch_exitPc (l : Launch) : (State.launch l).exitPc = l.exitPc := rfl

/-- The memory of the reset state is canonical. -/
theorem reset_mem_wf : Memory.wf State.reset.mem := memory_ofList_wf []

end Sys2Proof.Machine
end

