-- ==== Sys2Proof/Laws/Ops.lean ====
section
/-! SUPPORT. For each shared operation, everything it can do. -/

namespace Sys2Proof.Machine

/-- Taking an exception never goes on (`60_exceptions.md` R220). -/
@[simp] theorem raise_ne_next (r : FaultRecord) (t : State) : raise r ≠ .next t := by
  cases r <;> simp [raise]

theorem raise_fault_iff (r : FaultRecord) (f : Fault) : raise r = .fault f ↔ r = .fault f := by
  cases r <;> simp [raise]

theorem raise_refused_iff (r : FaultRecord) (e : Refusal) : raise r = .refused e ↔ r = .refusal e := by
  cases r <;> simp [raise]

/-! ### Registers -/

theorem readReg_of_hasReg {s : State} {i : RegIdx} (h : s.hasReg i = true) (k : Word → Result) :
    readReg s i k = k (s.reg i) := by
  simp [readReg, h]

theorem readReg_of_no_value {s : State} {i : RegIdx} (h : s.hasReg i = false) (k : Word → Result) :
    readReg s i k = .refused (.uninitialisedRead s.pc (.reg i)) := by
  simp [readReg, h, raise]

/-- What reading a source register can do: go on with its value, or refuse it. -/
theorem readReg_cases (s : State) (i : RegIdx) (k : Word → Result) :
    (s.hasReg i = true ∧ readReg s i k = k (s.reg i)) ∨
      (s.hasReg i = false ∧ readReg s i k = .refused (.uninitialisedRead s.pc (.reg i))) := by
  cases h : s.hasReg i
  · exact .inr ⟨rfl, readReg_of_no_value h k⟩
  · exact .inl ⟨rfl, readReg_of_hasReg h k⟩

theorem readReg_next_iff (s : State) (i : RegIdx) (k : Word → Result) (t : State) :
    readReg s i k = .next t ↔ s.hasReg i = true ∧ k (s.reg i) = .next t := by
  rcases readReg_cases s i k with ⟨h, e⟩ | ⟨h, e⟩ <;> simp [h, e]

/-! ### Memory -/

theorem memRead_of_value {w : Nat} {s : State} {a : Word} {n : AccessSize} {get : Memory → Nat → Option (BitVec w)}
    {v : BitVec w} (ha : aligned a n = true) (hm : memAdmits s.memMap a n .load = true)
    (hv : get s.mem a.toNat = some v) (k : BitVec w → Result) : memRead s a n get k = k v := by
  simp [memRead, ha, hm, hv]

/-- What `MemRead` can do (R46): four outcomes, in the order of its checks. -/
theorem memRead_cases {w : Nat} (s : State) (a : Word) (n : AccessSize) (get : Memory → Nat → Option (BitVec w))
    (k : BitVec w → Result) :
    (aligned a n = false ∧ memRead s a n get k = .fault (.loadAddressMisaligned s.pc a)) ∨
    (aligned a n = true ∧ memAdmits s.memMap a n .load = false ∧
      memRead s a n get k = .fault (.loadAccessFault s.pc a)) ∨
    (aligned a n = true ∧ memAdmits s.memMap a n .load = true ∧ get s.mem a.toNat = none ∧
      memRead s a n get k = .refused (.uninitialisedRead s.pc (.mem a))) ∨
    (aligned a n = true ∧ memAdmits s.memMap a n .load = true ∧
      ∃ v, get s.mem a.toNat = some v ∧ memRead s a n get k = k v) := by
  cases ha : aligned a n <;> cases hm : memAdmits s.memMap a n .load <;> cases hv : get s.mem a.toNat <;>
    simp [memRead, ha, hm, hv, raise]

theorem memRead_next_iff {w : Nat} (s : State) (a : Word) (n : AccessSize) (get : Memory → Nat → Option (BitVec w))
    (k : BitVec w → Result) (t : State) :
    memRead s a n get k = .next t ↔ aligned a n = true ∧ memAdmits s.memMap a n .load = true ∧
      ∃ v, get s.mem a.toNat = some v ∧ k v = .next t := by
  rcases memRead_cases s a n get k with ⟨h, e⟩ | ⟨h, h', e⟩ | ⟨h, h', h'', e⟩ | ⟨h, h', v, h'', e⟩ <;> simp_all

theorem memWrite_of_admitted {s : State} {a : Word} {n : AccessSize} (ha : aligned a n = true)
    (hm : memAdmits s.memMap a n .store = true) (bs : List Byte) (k : State → Result) :
    memWrite s a n bs k = k (s.storeBytes a bs) := by
  simp [memWrite, ha, hm]

/-- What `MemWrite` can do (R47): three outcomes, in the order of its checks. -/
theorem memWrite_cases (s : State) (a : Word) (n : AccessSize) (bs : List Byte) (k : State → Result) :
    (aligned a n = false ∧ memWrite s a n bs k = .fault (.storeAddressMisaligned s.pc a)) ∨
    (aligned a n = true ∧ memAdmits s.memMap a n .store = false ∧
      memWrite s a n bs k = .fault (.storeAccessFault s.pc a)) ∨
    (aligned a n = true ∧ memAdmits s.memMap a n .store = true ∧ memWrite s a n bs k = k (s.storeBytes a bs)) := by
  cases ha : aligned a n <;> cases hm : memAdmits s.memMap a n .store <;> simp [memWrite, ha, hm, raise]

theorem memWrite_next_iff (s : State) (a : Word) (n : AccessSize) (bs : List Byte) (k : State → Result) (t : State) :
    memWrite s a n bs k = .next t ↔ aligned a n = true ∧ memAdmits s.memMap a n .store = true ∧
      k (s.storeBytes a bs) = .next t := by
  rcases memWrite_cases s a n bs k with ⟨h, e⟩ | ⟨h, h', e⟩ | ⟨h, h', e⟩ <;> simp [h, e] <;> simp [h']

/-! ### Control -/

/-- What a transfer of control can do (R27). -/
theorem jumpTo_cases (s : State) (t : Word) :
    (aligned t .word = true ∧ jumpTo s t = .next (s.setPc t)) ∨
      (aligned t .word = false ∧ jumpTo s t = .fault (.instructionAddressMisaligned s.pc t)) := by
  cases h : aligned t .word <;> simp [jumpTo, h, raise]

theorem jumpTo_next_iff (s : State) (t : Word) (u : State) :
    jumpTo s t = .next u ↔ aligned t .word = true ∧ s.setPc t = u := by
  rcases jumpTo_cases s t with ⟨h, e⟩ | ⟨h, e⟩ <;> simp [h, e]

/-! ### The common rules of the families -/

theorem aluReg_next_iff (f : Word → Word → Word) (rd rs1 rs2 : RegIdx) (s t : State) :
    aluReg f rd rs1 rs2 s = .next t ↔ s.hasReg rs1 = true ∧ s.hasReg rs2 = true ∧
      (s.setReg rd (f (s.reg rs1) (s.reg rs2))).advance = t := by
  simp [aluReg, readReg_next_iff]

theorem aluImm_next_iff (f : Word → Word) (rd rs1 : RegIdx) (s t : State) :
    aluImm f rd rs1 s = .next t ↔ s.hasReg rs1 = true ∧ (s.setReg rd (f (s.reg rs1))).advance = t := by
  simp [aluImm, readReg_next_iff]

theorem loadInto_next_iff {w : Nat} (n : AccessSize) (get : Memory → Nat → Option (BitVec w)) (ext : BitVec w → Word)
    (rd rs1 : RegIdx) (imm : BitVec 12) (s t : State) :
    loadInto n get ext rd rs1 imm s = .next t ↔ s.hasReg rs1 = true ∧
      aligned (loadAddress (s.reg rs1) imm) n = true ∧
      memAdmits s.memMap (loadAddress (s.reg rs1) imm) n .load = true ∧
      ∃ v, get s.mem (loadAddress (s.reg rs1) imm).toNat = some v ∧ (s.setReg rd (ext v)).advance = t := by
  simp [loadInto, readReg_next_iff, memRead_next_iff]

theorem storeFrom_next_iff (n : AccessSize) (bytesOf : Word → List Byte) (rs1 rs2 : RegIdx) (imm : BitVec 12)
    (s t : State) :
    storeFrom n bytesOf rs1 rs2 imm s = .next t ↔ s.hasReg rs1 = true ∧ s.hasReg rs2 = true ∧
      aligned (storeAddress (s.reg rs1) imm) n = true ∧
      memAdmits s.memMap (storeAddress (s.reg rs1) imm) n .store = true ∧
      (s.storeBytes (storeAddress (s.reg rs1) imm) (bytesOf (s.reg rs2))).advance = t := by
  simp [storeFrom, readReg_next_iff, memWrite_next_iff]

theorem branchIf_next_iff (cond : Word → Word → Bool) (rs1 rs2 : RegIdx) (offset : BitVec 13) (s t : State) :
    branchIf cond rs1 rs2 offset s = .next t ↔ s.hasReg rs1 = true ∧ s.hasReg rs2 = true ∧
      ((cond (s.reg rs1) (s.reg rs2) = true ∧ aligned (branchTarget s.pc offset) .word = true ∧
          s.setPc (branchTarget s.pc offset) = t) ∨
        (cond (s.reg rs1) (s.reg rs2) = false ∧ s.advance = t)) := by
  cases h : cond (s.reg rs1) (s.reg rs2) <;> simp [branchIf, readReg_next_iff, jumpTo_next_iff, h]

theorem linkAndJump_next_iff (rd : RegIdx) (u : Word) (s t : State) :
    linkAndJump rd u s = .next t ↔ aligned u .word = true ∧ (s.setReg rd (s.pc + 4#32)).setPc u = t := by
  simp [linkAndJump, jumpTo_next_iff]

/-! ### Fetch -/

/-- What a fetch can do (R48, R232): the five outcomes in the order of its checks. -/
theorem fetch_cases (s : State) (k : Word → Result) :
    (aligned s.pc .word = false ∧ fetch s k = .fault (.instructionAddressMisaligned s.pc s.pc)) ∨
    (aligned s.pc .word = true ∧ memAdmits s.memMap s.pc .word .fetch = false ∧
      fetch s k = .fault (.instructionAccessFault s.pc s.pc)) ∨
    (aligned s.pc .word = true ∧ memAdmits s.memMap s.pc .word .fetch = true ∧
      AddrSet.meets s.stored s.pc.toNat 4 = true ∧ fetch s k = .refused (.fetchAfterStore s.pc s.pc)) ∨
    (aligned s.pc .word = true ∧ memAdmits s.memMap s.pc .word .fetch = true ∧
      AddrSet.meets s.stored s.pc.toNat 4 = false ∧ Memory.readWord s.mem s.pc.toNat = none ∧
      fetch s k = .refused (.uninitialisedRead s.pc (.mem s.pc))) ∨
    (aligned s.pc .word = true ∧ memAdmits s.memMap s.pc .word .fetch = true ∧
      AddrSet.meets s.stored s.pc.toNat 4 = false ∧
      ∃ w, Memory.readWord s.mem s.pc.toNat = some w ∧ fetch s k = k w) := by
  cases h1 : aligned s.pc .word <;> cases h2 : memAdmits s.memMap s.pc .word .fetch <;>
    cases h3 : AddrSet.meets s.stored s.pc.toNat 4 <;> cases h4 : Memory.readWord s.mem s.pc.toNat <;>
    simp [fetch, h1, h2, h3, h4, raise]

end Sys2Proof.Machine
end

