-- ==== Sys2Proof/Laws/Exec.lean ====
section
/-! SUPPORT. What an instruction and a step can do, said once; the frames of the three kinds of write. -/

namespace Sys2Proof.Machine

theorem setReg_setPc_only (s : State) (rd : RegIdx) (v t : Word) : OnlyRegWritten s ((s.setReg rd v).setPc t) rd v :=
  ⟨fun j => ⟨setReg_reg s rd j v, setReg_hasReg s rd j v⟩, fun _ => ⟨rfl, rfl⟩, rfl, rfl, rfl⟩

theorem setReg_advance_only (s : State) (rd : RegIdx) (v : Word) : OnlyRegWritten s (s.setReg rd v).advance rd v :=
  setReg_setPc_only s rd v _

theorem setPc_only (s : State) (t : Word) : OnlyPcChanged s (s.setPc t) :=
  ⟨fun _ => ⟨rfl, rfl⟩, fun _ => ⟨rfl, rfl⟩, rfl, rfl, rfl⟩

theorem storeBytes_advance_only (s : State) (a : Word) (bs : List Byte) :
    OnlyBytesStored s (s.storeBytes a bs).advance a bs := by
  refine ⟨fun b h1 h2 => ?_, fun b h => ?_, fun _ => ⟨rfl, rfl⟩, rfl, rfl, rfl⟩
  · simp [memory_read_writeBytes, addrSet_has_addRange, h1, h2]
  · simp only [advance_mem, advance_stored, storeBytes_mem, storeBytes_stored, memory_read_writeBytes,
      addrSet_has_addRange]
    exact ⟨if_neg h, by simp [h]⟩

/-- The number of bytes a store of each size moves. -/
theorem storeOf_length (v : Word) : (storeByteOf v).length = AccessSize.bytes .byte ∧
    (storeHalfOf v).length = AccessSize.bytes .half ∧ (storeWordOf v).length = AccessSize.bytes .word :=
  ⟨rfl, rfl, rfl⟩

/-- Adding 4 keeps a word aligned. -/
theorem aligned_add_four {a : Word} (h : aligned a .word = true) : aligned (a + 4#32) .word = true := by
  rw [aligned_word_iff] at h ⊢
  rw [BitVec.toNat_add]
  have : (4#32 : Word).toNat = 4 := rfl
  omega

/-- What an instruction that completes has done: written its destination register, stored bytes, or neither, and
changed `pc`. -/
inductive Effect (i : Instr) (s : State) : State → Prop where
  | wrote (rd : RegIdx) (v pc : Word) (hd : destination i = some rd) (hs : storeAccess i s = none)
      (hpc : pc = s.pc + 4#32 ∨ aligned pc .word = true) : Effect i s ((s.setReg rd v).setPc pc)
  | stored (n : AccessSize) (a : Word) (bs : List Byte) (hd : destination i = none) (hs : storeAccess i s = some (a, n))
      (ha : aligned a n = true) (hl : bs.length = AccessSize.bytes n) : Effect i s (s.storeBytes a bs).advance
  | moved (pc : Word) (hd : destination i = none) (hs : storeAccess i s = none)
      (hpc : pc = s.pc + 4#32 ∨ aligned pc .word = true) : Effect i s (s.setPc pc)

theorem aluReg_effect {i : Instr} {f : Word → Word → Word} {rd rs1 rs2 : RegIdx} {s t : State}
    (h : aluReg f rd rs1 rs2 s = .next t) (hd : destination i = some rd) (hs : storeAccess i s = none) : Effect i s t := by
  obtain ⟨-, -, rfl⟩ := (aluReg_next_iff ..).mp h
  exact .wrote rd _ _ hd hs (.inl rfl)

theorem aluImm_effect {i : Instr} {f : Word → Word} {rd rs1 : RegIdx} {s t : State} (h : aluImm f rd rs1 s = .next t)
    (hd : destination i = some rd) (hs : storeAccess i s = none) : Effect i s t := by
  obtain ⟨-, rfl⟩ := (aluImm_next_iff ..).mp h
  exact .wrote rd _ _ hd hs (.inl rfl)

theorem loadInto_effect {i : Instr} {w : Nat} {n : AccessSize} {get : Memory → Nat → Option (BitVec w)}
    {ext : BitVec w → Word} {rd rs1 : RegIdx} {imm : BitVec 12} {s t : State}
    (h : loadInto n get ext rd rs1 imm s = .next t) (hd : destination i = some rd) (hs : storeAccess i s = none) :
    Effect i s t := by
  obtain ⟨-, -, -, v, -, rfl⟩ := (loadInto_next_iff ..).mp h
  exact .wrote rd _ _ hd hs (.inl rfl)

theorem storeFrom_effect {i : Instr} {n : AccessSize} {bytesOf : Word → List Byte} {rs1 rs2 : RegIdx}
    {imm : BitVec 12} {s t : State} (h : storeFrom n bytesOf rs1 rs2 imm s = .next t) (hd : destination i = none)
    (hs : storeAccess i s = some (storeAddress (s.reg rs1) imm, n)) (hl : ∀ v, (bytesOf v).length = AccessSize.bytes n) : Effect i s t := by
  obtain ⟨-, -, ha, -, rfl⟩ := (storeFrom_next_iff ..).mp h
  exact .stored n _ _ hd hs ha (hl _)

theorem branchIf_effect {i : Instr} {cond : Word → Word → Bool} {rs1 rs2 : RegIdx} {offset : BitVec 13} {s t : State}
    (h : branchIf cond rs1 rs2 offset s = .next t) (hd : destination i = none) (hs : storeAccess i s = none) :
    Effect i s t := by
  obtain ⟨-, -, ⟨-, ha, rfl⟩ | ⟨-, rfl⟩⟩ := (branchIf_next_iff ..).mp h
  · exact .moved _ hd hs (.inr ha)
  · exact .moved _ hd hs (.inl rfl)

theorem linkAndJump_effect {i : Instr} {rd : RegIdx} {u : Word} {s t : State} (h : linkAndJump rd u s = .next t)
    (hd : destination i = some rd) (hs : storeAccess i s = none) : Effect i s t := by
  obtain ⟨ha, rfl⟩ := (linkAndJump_next_iff ..).mp h
  exact .wrote rd _ _ hd hs (.inr ha)

theorem writeAndAdvance_effect {i : Instr} {rd : RegIdx} {v : Word} {s t : State}
    (h : writeAndAdvance rd v s = .next t) (hd : destination i = some rd) (hs : storeAccess i s = none) :
    Effect i s t := by
  obtain rfl : (s.setReg rd v).advance = t := by simpa [writeAndAdvance] using h
  exact .wrote rd v _ hd hs (.inl rfl)

/-- Everything an instruction can have done when it completes. -/
theorem exec_effect {i : Instr} {s t : State} (h : exec i s = .next t) : Effect i s t := by
  cases i with
  | lb | lh | lw | lbu | lhu =>
    simp only [exec, execLb, execLh, execLw, execLbu, execLhu] at h
    exact loadInto_effect h rfl rfl
  | addi | slti | sltiu | xori | ori | andi | slli | srli | srai =>
    simp only [exec, execAddi, execSlti, execSltiu, execXori, execOri, execAndi, execSlli, execSrli, execSrai] at h
    exact aluImm_effect h rfl rfl
  | add | sub | sll | slt | sltu | xor | srl | sra | or | and =>
    simp only [exec, execAdd, execSub, execSll, execSlt, execSltu, execXor, execSrl, execSra, execOr, execAnd] at h
    exact aluReg_effect h rfl rfl
  | sb | sh | sw =>
    simp only [exec, execSb, execSh, execSw] at h
    exact storeFrom_effect h rfl rfl fun _ => rfl
  | beq | bne | blt | bge | bltu | bgeu =>
    simp only [exec, execBeq, execBne, execBlt, execBge, execBltu, execBgeu] at h
    exact branchIf_effect h rfl rfl
  | lui | auipc =>
    simp only [exec, execLui, execAuipc] at h
    exact writeAndAdvance_effect h rfl rfl
  | jal =>
    simp only [exec, execJal] at h
    exact linkAndJump_effect h rfl rfl
  | jalr =>
    simp only [exec, execJalr] at h
    exact linkAndJump_effect ((readReg_next_iff ..).mp h).2 rfl rfl

/-- A step that goes on began with no fault recorded, at an aligned `pc`, fetched a word that no store wrote, and
executed the instruction it decodes to (`00_scope.md` R18). -/
theorem step_next {s t : State} (h : step s = .next t) :
    s.fault = none ∧ aligned s.pc .word = true ∧ memAdmits s.memMap s.pc .word .fetch = true ∧
      AddrSet.meets s.stored s.pc.toNat 4 = false ∧
      ∃ w i, Memory.readWord s.mem s.pc.toNat = some w ∧ decode w = .ok i ∧ exec i s = .next t := by
  unfold step at h
  split at h
  · exact absurd h (raise_ne_next _ _)
  · next hf =>
    unfold fetchInstr at h
    rcases fetch_cases s _ with ⟨_, e⟩ | ⟨_, _, e⟩ | ⟨_, _, _, e⟩ | ⟨_, _, _, _, e⟩ | ⟨h1, h2, h3, w, hw, e⟩ <;>
      rw [e] at h
    · cases h
    · cases h
    · cases h
    · cases h
    · split at h
      · next i hi => exact ⟨hf, h1, h2, h3, w, i, hw, hi, h⟩
      · exact absurd h (raise_ne_next _ _)

/-- A run of several steps begins with one step. -/
theorem core_run_succ (k : Nat) {s t : State} (h : step s = .next t) :
    Host.Core.run core (k + 1) s = Host.Core.run core k t := by
  simp [Host.Core.run, core, h]

/-- A run of several steps that goes on began with a step that did. -/
theorem core_run_succ_next {k : Nat} {s u : State} (h : Host.Core.run core (k + 1) s = .next u) :
    ∃ t, step s = .next t ∧ Host.Core.run core k t = .next u := by
  cases hs : step s with
  | next t => exact ⟨t, rfl, core_run_succ k hs ▸ h⟩
  | fault f => simp [Host.Core.run, core, hs] at h
  | refused r => simp [Host.Core.run, core, hs] at h

end Sys2Proof.Machine
end

