-- ==== Sys2Proof/Laws/PerInstr.lean ====
section
/-! SUPPORT. One lemma for each instruction: its word stands in its own row of the opcode map (`30_encoding.md` R89). -/

namespace Sys2Proof.Laws.EncodeInRow

/-- Every row of the map that has the instruction's mnemonic selects its word. -/
def Statement (i : Instr) : Prop := ∀ row ∈ opcodeTable, row.mnemonic = i.mnemonic → encode i &&& row.mask = row.pattern

/-- The row of a mnemonic is one of the table's, so that it is enough to look at that row. -/
theorem of_row (i : Instr) (row : OpcodeRow) (h : opcodeTable.filter (fun r => r.mnemonic == i.mnemonic) = [row])
    (hw : encode i &&& row.mask = row.pattern) : Statement i := by
  intro r hr hm
  have : r ∈ opcodeTable.filter (fun r => r.mnemonic == i.mnemonic) := List.mem_filter.mpr ⟨hr, by simp [hm]⟩
  rw [h, List.mem_singleton] at this
  exact this ▸ hw

theorem lb (rd rs1 : RegIdx) (imm : BitVec 12) : Statement (.lb rd rs1 imm) :=
  of_row _ _ rfl (by
    show encodeI .. &&& maskOpFunct3 = _
    rw [maskOpFunct3_fields, fieldFunct3_encodeI, fieldOp_encodeI]
    rfl)

theorem lh (rd rs1 : RegIdx) (imm : BitVec 12) : Statement (.lh rd rs1 imm) :=
  of_row _ _ rfl (by
    show encodeI .. &&& maskOpFunct3 = _
    rw [maskOpFunct3_fields, fieldFunct3_encodeI, fieldOp_encodeI]
    rfl)

theorem lw (rd rs1 : RegIdx) (imm : BitVec 12) : Statement (.lw rd rs1 imm) :=
  of_row _ _ rfl (by
    show encodeI .. &&& maskOpFunct3 = _
    rw [maskOpFunct3_fields, fieldFunct3_encodeI, fieldOp_encodeI]
    rfl)

theorem lbu (rd rs1 : RegIdx) (imm : BitVec 12) : Statement (.lbu rd rs1 imm) :=
  of_row _ _ rfl (by
    show encodeI .. &&& maskOpFunct3 = _
    rw [maskOpFunct3_fields, fieldFunct3_encodeI, fieldOp_encodeI]
    rfl)

theorem lhu (rd rs1 : RegIdx) (imm : BitVec 12) : Statement (.lhu rd rs1 imm) :=
  of_row _ _ rfl (by
    show encodeI .. &&& maskOpFunct3 = _
    rw [maskOpFunct3_fields, fieldFunct3_encodeI, fieldOp_encodeI]
    rfl)

theorem addi (rd rs1 : RegIdx) (imm : BitVec 12) : Statement (.addi rd rs1 imm) :=
  of_row _ _ rfl (by
    show encodeI .. &&& maskOpFunct3 = _
    rw [maskOpFunct3_fields, fieldFunct3_encodeI, fieldOp_encodeI]
    rfl)

theorem slli (rd rs1 : RegIdx) (uimm : BitVec 5) : Statement (.slli rd rs1 uimm) :=
  of_row _ _ rfl (by
    show encodeR .. &&& maskAll = _
    rw [maskAll_fields, fieldFunct7_encodeR, fieldFunct3_encodeR, fieldOp_encodeR]
    rfl)

theorem slti (rd rs1 : RegIdx) (imm : BitVec 12) : Statement (.slti rd rs1 imm) :=
  of_row _ _ rfl (by
    show encodeI .. &&& maskOpFunct3 = _
    rw [maskOpFunct3_fields, fieldFunct3_encodeI, fieldOp_encodeI]
    rfl)

theorem sltiu (rd rs1 : RegIdx) (imm : BitVec 12) : Statement (.sltiu rd rs1 imm) :=
  of_row _ _ rfl (by
    show encodeI .. &&& maskOpFunct3 = _
    rw [maskOpFunct3_fields, fieldFunct3_encodeI, fieldOp_encodeI]
    rfl)

theorem xori (rd rs1 : RegIdx) (imm : BitVec 12) : Statement (.xori rd rs1 imm) :=
  of_row _ _ rfl (by
    show encodeI .. &&& maskOpFunct3 = _
    rw [maskOpFunct3_fields, fieldFunct3_encodeI, fieldOp_encodeI]
    rfl)

theorem srli (rd rs1 : RegIdx) (uimm : BitVec 5) : Statement (.srli rd rs1 uimm) :=
  of_row _ _ rfl (by
    show encodeR .. &&& maskAll = _
    rw [maskAll_fields, fieldFunct7_encodeR, fieldFunct3_encodeR, fieldOp_encodeR]
    rfl)

theorem srai (rd rs1 : RegIdx) (uimm : BitVec 5) : Statement (.srai rd rs1 uimm) :=
  of_row _ _ rfl (by
    show encodeR .. &&& maskAll = _
    rw [maskAll_fields, fieldFunct7_encodeR, fieldFunct3_encodeR, fieldOp_encodeR]
    rfl)

theorem ori (rd rs1 : RegIdx) (imm : BitVec 12) : Statement (.ori rd rs1 imm) :=
  of_row _ _ rfl (by
    show encodeI .. &&& maskOpFunct3 = _
    rw [maskOpFunct3_fields, fieldFunct3_encodeI, fieldOp_encodeI]
    rfl)

theorem andi (rd rs1 : RegIdx) (imm : BitVec 12) : Statement (.andi rd rs1 imm) :=
  of_row _ _ rfl (by
    show encodeI .. &&& maskOpFunct3 = _
    rw [maskOpFunct3_fields, fieldFunct3_encodeI, fieldOp_encodeI]
    rfl)

theorem auipc (rd : RegIdx) (upimm : BitVec 20) : Statement (.auipc rd upimm) :=
  of_row _ _ rfl (by
    show encodeU .. &&& maskOp = _
    rw [maskOp_fields, fieldOp_encodeU]
    rfl)

theorem sb (rs1 rs2 : RegIdx) (imm : BitVec 12) : Statement (.sb rs1 rs2 imm) :=
  of_row _ _ rfl (by
    show encodeS .. &&& maskOpFunct3 = _
    rw [maskOpFunct3_fields, fieldFunct3_encodeS, fieldOp_encodeS]
    rfl)

theorem sh (rs1 rs2 : RegIdx) (imm : BitVec 12) : Statement (.sh rs1 rs2 imm) :=
  of_row _ _ rfl (by
    show encodeS .. &&& maskOpFunct3 = _
    rw [maskOpFunct3_fields, fieldFunct3_encodeS, fieldOp_encodeS]
    rfl)

theorem sw (rs1 rs2 : RegIdx) (imm : BitVec 12) : Statement (.sw rs1 rs2 imm) :=
  of_row _ _ rfl (by
    show encodeS .. &&& maskOpFunct3 = _
    rw [maskOpFunct3_fields, fieldFunct3_encodeS, fieldOp_encodeS]
    rfl)

theorem add (rd rs1 rs2 : RegIdx) : Statement (.add rd rs1 rs2) :=
  of_row _ _ rfl (by
    show encodeR .. &&& maskAll = _
    rw [maskAll_fields, fieldFunct7_encodeR, fieldFunct3_encodeR, fieldOp_encodeR]
    rfl)

theorem sub (rd rs1 rs2 : RegIdx) : Statement (.sub rd rs1 rs2) :=
  of_row _ _ rfl (by
    show encodeR .. &&& maskAll = _
    rw [maskAll_fields, fieldFunct7_encodeR, fieldFunct3_encodeR, fieldOp_encodeR]
    rfl)

theorem sll (rd rs1 rs2 : RegIdx) : Statement (.sll rd rs1 rs2) :=
  of_row _ _ rfl (by
    show encodeR .. &&& maskAll = _
    rw [maskAll_fields, fieldFunct7_encodeR, fieldFunct3_encodeR, fieldOp_encodeR]
    rfl)

theorem slt (rd rs1 rs2 : RegIdx) : Statement (.slt rd rs1 rs2) :=
  of_row _ _ rfl (by
    show encodeR .. &&& maskAll = _
    rw [maskAll_fields, fieldFunct7_encodeR, fieldFunct3_encodeR, fieldOp_encodeR]
    rfl)

theorem sltu (rd rs1 rs2 : RegIdx) : Statement (.sltu rd rs1 rs2) :=
  of_row _ _ rfl (by
    show encodeR .. &&& maskAll = _
    rw [maskAll_fields, fieldFunct7_encodeR, fieldFunct3_encodeR, fieldOp_encodeR]
    rfl)

theorem xor (rd rs1 rs2 : RegIdx) : Statement (.xor rd rs1 rs2) :=
  of_row _ _ rfl (by
    show encodeR .. &&& maskAll = _
    rw [maskAll_fields, fieldFunct7_encodeR, fieldFunct3_encodeR, fieldOp_encodeR]
    rfl)

theorem srl (rd rs1 rs2 : RegIdx) : Statement (.srl rd rs1 rs2) :=
  of_row _ _ rfl (by
    show encodeR .. &&& maskAll = _
    rw [maskAll_fields, fieldFunct7_encodeR, fieldFunct3_encodeR, fieldOp_encodeR]
    rfl)

theorem sra (rd rs1 rs2 : RegIdx) : Statement (.sra rd rs1 rs2) :=
  of_row _ _ rfl (by
    show encodeR .. &&& maskAll = _
    rw [maskAll_fields, fieldFunct7_encodeR, fieldFunct3_encodeR, fieldOp_encodeR]
    rfl)

theorem or (rd rs1 rs2 : RegIdx) : Statement (.or rd rs1 rs2) :=
  of_row _ _ rfl (by
    show encodeR .. &&& maskAll = _
    rw [maskAll_fields, fieldFunct7_encodeR, fieldFunct3_encodeR, fieldOp_encodeR]
    rfl)

theorem and (rd rs1 rs2 : RegIdx) : Statement (.and rd rs1 rs2) :=
  of_row _ _ rfl (by
    show encodeR .. &&& maskAll = _
    rw [maskAll_fields, fieldFunct7_encodeR, fieldFunct3_encodeR, fieldOp_encodeR]
    rfl)

theorem lui (rd : RegIdx) (upimm : BitVec 20) : Statement (.lui rd upimm) :=
  of_row _ _ rfl (by
    show encodeU .. &&& maskOp = _
    rw [maskOp_fields, fieldOp_encodeU]
    rfl)

theorem beq (rs1 rs2 : RegIdx) (offset : BitVec 13) : Statement (.beq rs1 rs2 offset) :=
  of_row _ _ rfl (by
    show encodeB .. &&& maskOpFunct3 = _
    rw [maskOpFunct3_fields, fieldFunct3_encodeB, fieldOp_encodeB]
    rfl)

theorem bne (rs1 rs2 : RegIdx) (offset : BitVec 13) : Statement (.bne rs1 rs2 offset) :=
  of_row _ _ rfl (by
    show encodeB .. &&& maskOpFunct3 = _
    rw [maskOpFunct3_fields, fieldFunct3_encodeB, fieldOp_encodeB]
    rfl)

theorem blt (rs1 rs2 : RegIdx) (offset : BitVec 13) : Statement (.blt rs1 rs2 offset) :=
  of_row _ _ rfl (by
    show encodeB .. &&& maskOpFunct3 = _
    rw [maskOpFunct3_fields, fieldFunct3_encodeB, fieldOp_encodeB]
    rfl)

theorem bge (rs1 rs2 : RegIdx) (offset : BitVec 13) : Statement (.bge rs1 rs2 offset) :=
  of_row _ _ rfl (by
    show encodeB .. &&& maskOpFunct3 = _
    rw [maskOpFunct3_fields, fieldFunct3_encodeB, fieldOp_encodeB]
    rfl)

theorem bltu (rs1 rs2 : RegIdx) (offset : BitVec 13) : Statement (.bltu rs1 rs2 offset) :=
  of_row _ _ rfl (by
    show encodeB .. &&& maskOpFunct3 = _
    rw [maskOpFunct3_fields, fieldFunct3_encodeB, fieldOp_encodeB]
    rfl)

theorem bgeu (rs1 rs2 : RegIdx) (offset : BitVec 13) : Statement (.bgeu rs1 rs2 offset) :=
  of_row _ _ rfl (by
    show encodeB .. &&& maskOpFunct3 = _
    rw [maskOpFunct3_fields, fieldFunct3_encodeB, fieldOp_encodeB]
    rfl)

theorem jalr (rd rs1 : RegIdx) (imm : BitVec 12) : Statement (.jalr rd rs1 imm) :=
  of_row _ _ rfl (by
    show encodeI .. &&& maskOpFunct3 = _
    rw [maskOpFunct3_fields, fieldFunct3_encodeI, fieldOp_encodeI]
    rfl)

theorem jal (rd : RegIdx) (offset : BitVec 21) : Statement (.jal rd offset) :=
  of_row _ _ rfl (by
    show encodeJ .. &&& maskOp = _
    rw [maskOp_fields, fieldOp_encodeJ]
    rfl)

end Sys2Proof.Laws.EncodeInRow
end

