-- ==== Sys2Proof/Laws/Platform.lean ====
section
/-! SUPPORT. A list of regions says as much as any predicate `MemAdmits` (`20_memory.md` R55), and what the default map
admits. -/

namespace Sys2Proof.Machine

/-- The region that accepts one access only. -/
def singleRegion (a : Word) (n : AccessSize) (k : AccessKind) : MemRegion := ⟨a, a, [k], [n]⟩

theorem singleRegion_admits (a b : Word) (n m : AccessSize) (k l : AccessKind) :
    regionAdmits (singleRegion a n k) b m l = true ↔ b = a ∧ m = n ∧ l = k := by
  dsimp only [regionAdmits, singleRegion]
  simp only [Bool.and_eq_true, decide_eq_true_eq, List.contains_iff_mem, List.mem_singleton]
  constructor
  · rintro ⟨⟨⟨h1, h2⟩, h3⟩, h4⟩
    exact ⟨BitVec.eq_of_toNat_eq (by omega), h3, h4⟩
  · rintro ⟨rfl, rfl, rfl⟩
    exact ⟨⟨⟨le_refl _, le_refl _⟩, rfl⟩, rfl⟩

/-- Every predicate of an address, a size and a kind is a memory map, so that keeping `MemAdmits` as a list of regions
leaves no launch out (R6, R55). -/
theorem memMap_represents_every_predicate (p : Word → AccessSize → AccessKind → Bool) :
    ∃ map : MemMap, ∀ a n k, memAdmits map a n k = p a n k := by
  let addrs : List Word := (List.finRange (2 ^ 32)).map BitVec.ofFin
  let all : List (Word × AccessSize × AccessKind) :=
    addrs.flatMap fun a => [AccessSize.byte, .half, .word].flatMap fun n =>
      [AccessKind.fetch, .load, .store].map fun k => (a, n, k)
  refine ⟨(all.filter fun e => p e.1 e.2.1 e.2.2).map fun e => singleRegion e.1 e.2.1 e.2.2, fun a n k => ?_⟩
  rw [Bool.eq_iff_iff, memAdmits, List.any_eq_true]
  constructor
  · rintro ⟨r, hr, h⟩
    obtain ⟨e, he, rfl⟩ := List.mem_map.mp hr
    obtain ⟨rfl, rfl, rfl⟩ := (singleRegion_admits _ _ _ _ _ _).mp h
    exact (List.mem_filter.mp he).2
  · intro h
    refine ⟨singleRegion a n k, List.mem_map.mpr ⟨(a, n, k), List.mem_filter.mpr ⟨?_, h⟩, rfl⟩,
      (singleRegion_admits _ _ _ _ _ _).mpr ⟨rfl, rfl, rfl⟩⟩
    refine List.mem_flatMap.mpr ⟨a, List.mem_map.mpr ⟨a.toFin, List.mem_finRange _, rfl⟩, ?_⟩
    refine List.mem_flatMap.mpr ⟨n, by cases n <;> simp, List.mem_map.mpr ⟨k, by cases k <;> simp, rfl⟩⟩

/-- The default map admits every access (R55). -/
theorem flatMemMap_admits (a : Word) (n : AccessSize) (k : AccessKind) : memAdmits Config.flatMemMap a n k = true := by
  have h1 : (0x00000000#32 : Word).toNat ≤ a.toNat := Nat.zero_le _
  have h2 : a.toNat ≤ (0xFFFFFFFF#32 : Word).toNat := Nat.le_of_lt_succ a.isLt
  simp only [memAdmits, Config.flatMemMap, List.any_cons, List.any_nil, regionAdmits, h1, h2, decide_true,
    Bool.true_and, Bool.or_false, Bool.and_eq_true]
  exact ⟨by cases n <;> decide, by cases k <;> decide⟩

end Sys2Proof.Machine
end

