-- ==== Sys2Proof/Tests/Slice0.lean ====
section
/-! SUPPORT. Tests. The expected results come from `95_test_vectors.md` (section 1.1 for the words S1 to S14, section 2
for the rest) unless a comment says otherwise; each is one step at pc 0x100. Theorems named witness_ show that the
hypotheses of a statement are met together. -/

namespace Sys2Proof.Tests

open Sys2Proof.Machine

/-- A launch at `pc` with one word there. -/
def start (pc word : Word) (regs : List (RegIdx × Word)) (data : List (Word × Byte)) (map : MemMap) : State :=
  State.launch (programLaunch pc 0xFF0 [word] regs data map)

/-- What a step leaves in a register, with its `pc`. -/
def regOf (r : Result) (i : RegIdx) : Option (Word × Word) :=
  match r with
  | .next t => if t.hasReg i then some (t.reg i, t.pc) else none
  | .fault _ => none
  | .refused _ => none

/-- The bytes a step leaves from an address on. -/
def bytesOf (r : Result) (a : Nat) (n : Nat) : Option (List (Option Byte)) :=
  match r with
  | .next t => some ((List.range n).map fun k => Memory.read t.mem (a + k))
  | .fault _ => none
  | .refused _ => none

/-- The record a step stops with. -/
def stopOf : Result → Option FaultRecord
  | .next _ => none
  | .fault f => some (.fault f)
  | .refused r => some (.refusal r)

/-- One step at 0x100, every access admitted: a register and `pc` after it. -/
def stepReg (word : Word) (regs : List (RegIdx × Word)) (data : List (Word × Byte)) (i : RegIdx) : Option (Word × Word) :=
  regOf (step (start 0x100 word regs data Config.flatMemMap)) i

/-- One step at 0x100, every access admitted: how it stops. -/
def stepStop (word : Word) (regs : List (RegIdx × Word)) (data : List (Word × Byte)) : Option FaultRecord :=
  stopOf (step (start 0x100 word regs data Config.flatMemMap))

/-- The map of the vectors that admits addresses below 0x2000. -/
def lowMap : MemMap := [⟨0x0, 0x1FFF, [.fetch, .load, .store], [.byte, .half, .word]⟩]

/-- The data of the load vectors. -/
def loadData : List (Word × Byte) :=
  [(0x1000, 0x80), (0x1001, 0xFF), (0x1002, 0x7F), (0x1003, 0x01), (4, 0x11), (5, 0x22), (6, 0x33), (7, 0x44)]

/-! ### Well-formed and ill-formed instructions (`30_encoding.md` R83, R85, R101: "m even") -/

theorem test_beq_odd_offset_is_ill_formed : Instr.wellFormed (.beq 8 30 15) = false := by decide
theorem test_bne_odd_offset_is_ill_formed : Instr.wellFormed (.bne 8 30 1) = false := by decide
theorem test_blt_odd_offset_is_ill_formed : Instr.wellFormed (.blt 8 30 (-1)) = false := by decide
theorem test_bge_odd_offset_is_ill_formed : Instr.wellFormed (.bge 8 30 4095) = false := by decide
theorem test_bltu_odd_offset_is_ill_formed : Instr.wellFormed (.bltu 8 30 (-4095)) = false := by decide
theorem test_bgeu_odd_offset_is_ill_formed : Instr.wellFormed (.bgeu 8 30 3) = false := by decide
theorem test_jal_odd_offset_is_ill_formed : Instr.wellFormed (.jal 1 1048575) = false := by decide

/-! ### Decoding: a word of every instruction, its fields written out by the tables of R72 to R78 and R89 -/

theorem test_decode_add :
    decode (0b0000000#7 ++ 0b10100#5 ++ 0b10011#5 ++ 0b000#3 ++ 0b10010#5 ++ 0b0110011#7) = .ok (.add 18 19 20) := by decide
theorem test_decode_sub :
    decode (0b0100000#7 ++ 0b00111#5 ++ 0b00110#5 ++ 0b000#3 ++ 0b00101#5 ++ 0b0110011#7) = .ok (.sub 5 6 7) := by decide
theorem test_decode_sll :
    decode (0b0000000#7 ++ 0b00111#5 ++ 0b00110#5 ++ 0b001#3 ++ 0b00101#5 ++ 0b0110011#7) = .ok (.sll 5 6 7) := by decide
theorem test_decode_slt :
    decode (0b0000000#7 ++ 0b00111#5 ++ 0b00110#5 ++ 0b010#3 ++ 0b00101#5 ++ 0b0110011#7) = .ok (.slt 5 6 7) := by decide
theorem test_decode_sltu :
    decode (0b0000000#7 ++ 0b00111#5 ++ 0b00110#5 ++ 0b011#3 ++ 0b00101#5 ++ 0b0110011#7) = .ok (.sltu 5 6 7) := by decide
theorem test_decode_xor :
    decode (0b0000000#7 ++ 0b00111#5 ++ 0b00110#5 ++ 0b100#3 ++ 0b00101#5 ++ 0b0110011#7) = .ok (.xor 5 6 7) := by decide
theorem test_decode_srl :
    decode (0b0000000#7 ++ 0b00111#5 ++ 0b00110#5 ++ 0b101#3 ++ 0b00101#5 ++ 0b0110011#7) = .ok (.srl 5 6 7) := by decide
theorem test_decode_sra :
    decode (0b0100000#7 ++ 0b00111#5 ++ 0b00110#5 ++ 0b101#3 ++ 0b00101#5 ++ 0b0110011#7) = .ok (.sra 5 6 7) := by decide
theorem test_decode_or :
    decode (0b0000000#7 ++ 0b00111#5 ++ 0b00110#5 ++ 0b110#3 ++ 0b00101#5 ++ 0b0110011#7) = .ok (.or 5 6 7) := by decide
theorem test_decode_and :
    decode (0b0000000#7 ++ 0b00111#5 ++ 0b00110#5 ++ 0b111#3 ++ 0b00101#5 ++ 0b0110011#7) = .ok (.and 5 6 7) := by decide
theorem test_decode_addi :
    decode (0b111111110010#12 ++ 0b00110#5 ++ 0b000#3 ++ 0b10010#5 ++ 0b0010011#7) = .ok (.addi 18 6 (-14)) := by decide
theorem test_decode_slti :
    decode (0b111111111111#12 ++ 0b00110#5 ++ 0b010#3 ++ 0b00101#5 ++ 0b0010011#7) = .ok (.slti 5 6 (-1)) := by decide
theorem test_decode_sltiu :
    decode (0b100000000000#12 ++ 0b00110#5 ++ 0b011#3 ++ 0b00101#5 ++ 0b0010011#7) = .ok (.sltiu 5 6 (-2048)) := by decide
theorem test_decode_xori :
    decode (0b000011111111#12 ++ 0b00110#5 ++ 0b100#3 ++ 0b00101#5 ++ 0b0010011#7) = .ok (.xori 5 6 255) := by decide
theorem test_decode_ori :
    decode (0b111100000000#12 ++ 0b00110#5 ++ 0b110#3 ++ 0b00101#5 ++ 0b0010011#7) = .ok (.ori 5 6 (-256)) := by decide
theorem test_decode_andi :
    decode (0b000011111111#12 ++ 0b00110#5 ++ 0b111#3 ++ 0b00101#5 ++ 0b0010011#7) = .ok (.andi 5 6 255) := by decide
theorem test_decode_slli :
    decode (0b0000000#7 ++ 0b00101#5 ++ 0b10111#5 ++ 0b001#3 ++ 0b10010#5 ++ 0b0010011#7) = .ok (.slli 18 23 5) := by decide
theorem test_decode_srli :
    decode (0b0000000#7 ++ 0b00100#5 ++ 0b00110#5 ++ 0b101#3 ++ 0b00101#5 ++ 0b0010011#7) = .ok (.srli 5 6 4) := by decide
theorem test_decode_srai :
    decode (0b0100000#7 ++ 0b11101#5 ++ 0b00111#5 ++ 0b101#3 ++ 0b00110#5 ++ 0b0010011#7) = .ok (.srai 6 7 29) := by decide
theorem test_decode_lb :
    decode (0b000000011111#12 ++ 0b10100#5 ++ 0b000#3 ++ 0b10100#5 ++ 0b0000011#7) = .ok (.lb 20 20 0x1F) := by decide
theorem test_decode_lh :
    decode (0b000000000010#12 ++ 0b00110#5 ++ 0b001#3 ++ 0b00101#5 ++ 0b0000011#7) = .ok (.lh 5 6 2) := by decide
theorem test_decode_lw :
    decode (0b111111111010#12 ++ 0b10011#5 ++ 0b010#3 ++ 0b00111#5 ++ 0b0000011#7) = .ok (.lw 7 19 (-6)) := by decide
theorem test_decode_lbu :
    decode (0b011111111111#12 ++ 0b00110#5 ++ 0b100#3 ++ 0b00101#5 ++ 0b0000011#7) = .ok (.lbu 5 6 2047) := by decide
theorem test_decode_lhu :
    decode (0b000000000010#12 ++ 0b00110#5 ++ 0b101#3 ++ 0b00101#5 ++ 0b0000011#7) = .ok (.lhu 5 6 2) := by decide
theorem test_decode_sb :
    decode (0b0000001#7 ++ 0b11110#5 ++ 0b00000#5 ++ 0b000#3 ++ 0b01101#5 ++ 0b0100011#7) = .ok (.sb 0 30 0x2D) := by decide
theorem test_decode_sh :
    decode (0b0000000#7 ++ 0b10100#5 ++ 0b00101#5 ++ 0b001#3 ++ 0b10111#5 ++ 0b0100011#7) = .ok (.sh 5 20 23) := by decide
theorem test_decode_sw :
    decode (0b1111111#7 ++ 0b00111#5 ++ 0b10011#5 ++ 0b010#3 ++ 0b11010#5 ++ 0b0100011#7) = .ok (.sw 19 7 (-6)) := by decide
theorem test_decode_beq :
    decode (0b0#1 ++ 0b000000#6 ++ 0b11110#5 ++ 0b01000#5 ++ 0b000#3 ++ 0b1000#4 ++ 0b0#1 ++ 0b1100011#7) = .ok (.beq 8 30 16) := by decide
theorem test_decode_bne :
    decode (0b1#1 ++ 0b111111#6 ++ 0b11110#5 ++ 0b01000#5 ++ 0b001#3 ++ 0b1100#4 ++ 0b1#1 ++ 0b1100011#7) = .ok (.bne 8 30 (-8)) := by decide
theorem test_decode_blt :
    decode (0b0#1 ++ 0b000000#6 ++ 0b11110#5 ++ 0b01000#5 ++ 0b100#3 ++ 0b1000#4 ++ 0b0#1 ++ 0b1100011#7) = .ok (.blt 8 30 16) := by decide
theorem test_decode_bge :
    decode (0b0#1 ++ 0b111111#6 ++ 0b11110#5 ++ 0b01000#5 ++ 0b101#3 ++ 0b1111#4 ++ 0b1#1 ++ 0b1100011#7) = .ok (.bge 8 30 4094) := by decide
theorem test_decode_bltu :
    decode (0b1#1 ++ 0b000000#6 ++ 0b11110#5 ++ 0b01000#5 ++ 0b110#3 ++ 0b0000#4 ++ 0b0#1 ++ 0b1100011#7) = .ok (.bltu 8 30 (-4096)) := by decide
theorem test_decode_bgeu :
    decode (0b0#1 ++ 0b000000#6 ++ 0b11110#5 ++ 0b01000#5 ++ 0b111#3 ++ 0b0000#4 ++ 0b1#1 ++ 0b1100011#7) = .ok (.bgeu 8 30 2048) := by decide
theorem test_decode_jalr :
    decode (0b111111111100#12 ++ 0b00101#5 ++ 0b000#3 ++ 0b00001#5 ++ 0b1100111#7) = .ok (.jalr 1 5 (-4)) := by decide
theorem test_decode_jal :
    decode (0b0#1 ++ 0b1111111100#10 ++ 0b0#1 ++ 0b10100110#8 ++ 0b00001#5 ++ 0b1101111#7) = .ok (.jal 1 0xA67F8) := by decide
theorem test_decode_lui :
    decode (0b10001100110111101111#20 ++ 0b10101#5 ++ 0b0110111#7) = .ok (.lui 21 0x8CDEF) := by decide
theorem test_decode_auipc :
    decode (0b00000000000010100110#20 ++ 0b00001#5 ++ 0b0010111#7) = .ok (.auipc 1 0xA6) := by decide

/-- A word of each class of R91, (a) to (g). -/
theorem test_illegal_words :
    decode 0x00000073 = .error .opcode ∧ decode 0x00006003 = .error .loadFunct3 ∧
    decode 0x02005013 = .error .shiftFunct7 ∧ decode 0x00003023 = .error .storeFunct3 ∧
    decode 0x40007033 = .error .regFunct7 ∧ decode 0x00002063 = .error .branchFunct3 ∧
    decode 0x00001067 = .error .jalrFunct3 := by decide

/-- The bytes of S1 at increasing addresses, and the same bytes with one missing (R44, R70). -/
theorem test_decodeBytes :
    decodeBytes [0x33, 0x89, 0x49, 0x01, 0xAA] = .ok (.add 18 19 20, [0xAA]) ∧
    decodeBytes [0x33, 0x89, 0x49] = .error .tooFewBytes := by decide

theorem test_decodeTableWord : decodeTableWord 32 0x01498933 = some (.add 18 19 20) ∧ decodeTableWord 32 0 = none := by
  decide

theorem test_encode_srai : encode (.srai 6 7 29) = 0x41D3D313 := by decide
theorem test_encode_beq : encode (.beq 8 30 16) = 0x01E40863 := by decide
theorem test_encode_jal : encode (.jal 1 0xA67F8) = 0x7F8A60EF := by decide

/-- R79 on a word whose seven fields are 1, 2, 3, 4, 5, 6 and 7. -/
theorem test_fieldsR4 : fieldsR4 (0b00001#5 ++ 0b10#2 ++ 0b00011#5 ++ 0b00100#5 ++ 0b101#3 ++ 0b00110#5 ++ 0b0000111#7) =
    ⟨1, 2, 3, 4, 5, 6, 7⟩ := by decide

/-! ### One step of each instruction -/

theorem test_add : stepReg 0x007302B3 [(6, 0xFFFFFFFF), (7, 0x00000001)] [] 5 = some (0x00000000, 0x104) := by decide
theorem test_add_overflow :
    stepReg 0x007302B3 [(6, 0x7FFFFFFF), (7, 0x00000001)] [] 5 = some (0x80000000, 0x104) := by decide
theorem test_sub : stepReg 0x407302B3 [(6, 0x00000005), (7, 0x00000007)] [] 5 = some (0xFFFFFFFE, 0x104) := by decide
theorem test_sub_overflow :
    stepReg 0x407302B3 [(6, 0x80000000), (7, 0x00000001)] [] 5 = some (0x7FFFFFFF, 0x104) := by decide
theorem test_sll : stepReg 0x007312B3 [(6, 0x00000001), (7, 0x00000021)] [] 5 = some (0x00000002, 0x104) := by decide
theorem test_sll_top :
    stepReg 0x007312B3 [(6, 0x0FFFFFFF), (7, 0x00000005)] [] 5 = some (0xFFFFFFE0, 0x104) := by decide
theorem test_slt : stepReg 0x007322B3 [(6, 0x80000000), (7, 0x7FFFFFFF)] [] 5 = some (0x00000001, 0x104) := by decide
theorem test_slt_not :
    stepReg 0x007322B3 [(6, 0x00000000), (7, 0xFFFFFFFF)] [] 5 = some (0x00000000, 0x104) := by decide
theorem test_sltu : stepReg 0x007332B3 [(6, 0x80000000), (7, 0x7FFFFFFF)] [] 5 = some (0x00000000, 0x104) := by decide
theorem test_sltu_below :
    stepReg 0x007332B3 [(6, 0x00000000), (7, 0xFFFFFFFF)] [] 5 = some (0x00000001, 0x104) := by decide
theorem test_xor : stepReg 0x007342B3 [(6, 0xF0F0F0F0), (7, 0x0FF00FF0)] [] 5 = some (0xFF00FF00, 0x104) := by decide
theorem test_or : stepReg 0x007362B3 [(6, 0xF0F0F0F0), (7, 0x0FF00FF0)] [] 5 = some (0xFFF0FFF0, 0x104) := by decide
theorem test_and : stepReg 0x007372B3 [(6, 0xF0F0F0F0), (7, 0x0FF00FF0)] [] 5 = some (0x00F000F0, 0x104) := by decide
theorem test_srl : stepReg 0x007352B3 [(6, 0xFFFFFFFF), (7, 0x00000004)] [] 5 = some (0x0FFFFFFF, 0x104) := by decide
theorem test_srl_amount_32 :
    stepReg 0x007352B3 [(6, 0x80000000), (7, 0x00000020)] [] 5 = some (0x80000000, 0x104) := by decide
theorem test_sra : stepReg 0x407352B3 [(6, 0xFFFFFF00), (7, 0x00000004)] [] 5 = some (0xFFFFFFF0, 0x104) := by decide
theorem test_sra_31 :
    stepReg 0x407352B3 [(6, 0x80000000), (7, 0x0000001F)] [] 5 = some (0xFFFFFFFF, 0x104) := by decide

theorem test_addi : stepReg 0x80030293 [(6, 0x00000800)] [] 5 = some (0x00000000, 0x104) := by decide
theorem test_addi_wraps : stepReg 0x00130293 [(6, 0x7FFFFFFF)] [] 5 = some (0x80000000, 0x104) := by decide
theorem test_slti : stepReg 0x80032293 [(6, 0x80000000)] [] 5 = some (0x00000001, 0x104) := by decide
theorem test_slti_not : stepReg 0xFFF32293 [(6, 0x00000000)] [] 5 = some (0x00000000, 0x104) := by decide
theorem test_sltiu : stepReg 0x80033293 [(6, 0xFFFFF7FF)] [] 5 = some (0x00000001, 0x104) := by decide
theorem test_sltiu_equal : stepReg 0xFFF33293 [(6, 0xFFFFFFFF)] [] 5 = some (0x00000000, 0x104) := by decide
theorem test_xori : stepReg 0xFFF34293 [(6, 0x12345678)] [] 5 = some (0xEDCBA987, 0x104) := by decide
theorem test_ori : stepReg 0xF0036293 [(6, 0x12345678)] [] 5 = some (0xFFFFFF78, 0x104) := by decide
theorem test_andi : stepReg 0xF0037293 [(6, 0x12345678)] [] 5 = some (0x12345600, 0x104) := by decide
theorem test_slli : stepReg 0x01F31293 [(6, 0x00000001)] [] 5 = some (0x80000000, 0x104) := by decide
theorem test_slli_5 : stepReg 0x00531293 [(6, 0x0FFFFFFF)] [] 5 = some (0xFFFFFFE0, 0x104) := by decide
theorem test_srli : stepReg 0x01F35293 [(6, 0x80000000)] [] 5 = some (0x00000001, 0x104) := by decide
theorem test_srli_4 : stepReg 0x00435293 [(6, 0xFFFFFFFF)] [] 5 = some (0x0FFFFFFF, 0x104) := by decide
theorem test_srai : stepReg 0x41D35293 [(6, 0x80000000)] [] 5 = some (0xFFFFFFFC, 0x104) := by decide
theorem test_srai_31 : stepReg 0x41F35293 [(6, 0x7FFFFFFF)] [] 5 = some (0x00000000, 0x104) := by decide

theorem test_lw : stepReg 0x00032283 [(6, 0x00001000)] loadData 5 = some (0x017FFF80, 0x104) := by decide
theorem test_lw_wraps : stepReg 0x00832283 [(6, 0xFFFFFFFC)] loadData 5 = some (0x44332211, 0x104) := by decide
theorem test_lh : stepReg 0x00031283 [(6, 0x00001000)] loadData 5 = some (0xFFFFFF80, 0x104) := by decide
theorem test_lh_high : stepReg 0x00231283 [(6, 0x00001000)] loadData 5 = some (0x0000017F, 0x104) := by decide
theorem test_lhu : stepReg 0x00035283 [(6, 0x00001000)] loadData 5 = some (0x0000FF80, 0x104) := by decide
theorem test_lb : stepReg 0x00030283 [(6, 0x00001000)] loadData 5 = some (0xFFFFFF80, 0x104) := by decide
theorem test_lb_positive : stepReg 0x00230283 [(6, 0x00001000)] loadData 5 = some (0x0000007F, 0x104) := by decide
theorem test_lbu : stepReg 0x7FF34283 [(6, 0x00000804)] loadData 5 = some (0x00000001, 0x104) := by decide
theorem test_lbu_byte : stepReg 0x00134283 [(6, 0x00001000)] loadData 5 = some (0x000000FF, 0x104) := by decide

/-- Little-endian stores; the word's other bytes stay (section 2.4). -/
theorem test_sw : bytesOf (step (start 0x100 0x00732023 [(6, 0x2000), (7, 0xA1B2C3D4)] [(0x2004, 0)] Config.flatMemMap))
    0x2000 5 = some [some 0xD4, some 0xC3, some 0xB2, some 0xA1, some 0] := by decide
theorem test_sw_same_register : bytesOf (step (start 0x100 0xFE632E23 [(6, 0x2004)] [] Config.flatMemMap)) 0x2000 4 =
    some [some 0x04, some 0x20, some 0, some 0] := by decide
theorem test_sh : bytesOf (step (start 0x100 0x00731123 [(6, 0x2000), (7, 0xA1B2C3D4)] [(0x2001, 0)] Config.flatMemMap))
    0x2000 5 = some [none, some 0, some 0xD4, some 0xC3, none] := by decide
theorem test_sb : bytesOf (step (start 0x100 0x007301A3 [(6, 0x2000), (7, 0xA1B2C3D4)] [(0x2002, 0)] Config.flatMemMap))
    0x2000 5 = some [none, none, some 0, some 0xD4, none] := by decide

theorem test_beq : stepReg 0x81E40063 [(8, 5), (30, 5)] [] 8 = some (5, 0xFFFFF100) := by decide
theorem test_beq_not : stepReg 0x01E40363 [(8, 5), (30, 6)] [] 8 = some (5, 0x104) := by decide
theorem test_bne : stepReg 0xFFE41CE3 [(8, 5), (30, 6)] [] 8 = some (5, 0xF8) := by decide
theorem test_bne_not : stepReg 0xFFE41CE3 [(8, 5), (30, 5)] [] 8 = some (5, 0x104) := by decide
theorem test_blt : stepReg 0x01E44863 [(8, 0xFFFFFFFF), (30, 1)] [] 30 = some (1, 0x110) := by decide
theorem test_blt_not : stepReg 0x01E44863 [(8, 1), (30, 0xFFFFFFFF)] [] 8 = some (1, 0x104) := by decide
theorem test_bge : stepReg 0x01E45863 [(8, 5), (30, 5)] [] 8 = some (5, 0x110) := by decide
theorem test_bge_not : stepReg 0x01E45863 [(8, 0x80000000), (30, 0)] [] 30 = some (0, 0x104) := by decide
theorem test_bltu : stepReg 0x01E46863 [(8, 1), (30, 0xFFFFFFFF)] [] 8 = some (1, 0x110) := by decide
theorem test_bltu_not : stepReg 0x01E46863 [(8, 0xFFFFFFFF), (30, 1)] [] 30 = some (1, 0x104) := by decide
theorem test_bgeu : stepReg 0x01E47863 [(8, 0xFFFFFFFF), (30, 1)] [] 30 = some (1, 0x110) := by decide
theorem test_bgeu_not : stepReg 0x01E47863 [(8, 0), (30, 1)] [] 30 = some (1, 0x104) := by decide

theorem test_jal : stepReg 0x7FDFF2EF [] [] 5 = some (0x104, 0x1000FC) := by decide
theorem test_jal_wraps : regOf (step (start 0xFFFFFFFC 0x008000EF [] [] Config.flatMemMap)) 1 = some (0, 4) := by decide
theorem test_jalr_same_register : stepReg 0x000282E7 [(5, 0x200)] [] 5 = some (0x104, 0x200) := by decide
theorem test_jalr_odd_base : stepReg 0x003280E7 [(5, 0x201)] [] 1 = some (0x104, 0x204) := by decide
theorem test_lui : stepReg 0x800002B7 [] [] 5 = some (0x80000000, 0x104) := by decide
theorem test_lui_x0 : stepReg 0x12345037 [] [] 0 = some (0, 0x104) := by decide
theorem test_auipc : regOf (step (start 0x1234 0x00001297 [] [] Config.flatMemMap)) 5 = some (0x2234, 0x1238) := by decide
theorem test_auipc_wraps : regOf (step (start 0x80000000 0x80000297 [] [] Config.flatMemMap)) 5 = some (0, 0x80000004) := by
  decide

/-! ### The nine stops (sections 2.1 to 2.9) -/

theorem test_misaligned_pc : stopOf (step (start 0x102 0x13 [] [] Config.flatMemMap)) =
    some (.fault (.instructionAddressMisaligned 0x102 0x102)) := by decide
theorem test_misaligned_jalr : stepStop 0x001280E7 [(5, 0x200)] [] =
    some (.fault (.instructionAddressMisaligned 0x100 0x201)) := by decide
theorem test_fetch_refused : stopOf (step (start 0x3000 0x13 [] [] lowMap)) =
    some (.fault (.instructionAccessFault 0x3000 0x3000)) := by decide
theorem test_illegal_word : stepStop 0x00000073 [] [] = some (.fault (.illegalInstruction 0x100 0x73)) := by decide
theorem test_misaligned_load : stepStop 0x00232003 [(6, 0x1000)] loadData =
    some (.fault (.loadAddressMisaligned 0x100 0x1002)) := by decide
theorem test_load_refused : stopOf (step (start 0x100 0x00032283 [(6, 0x3000)] [] lowMap)) =
    some (.fault (.loadAccessFault 0x100 0x3000)) := by decide
theorem test_misaligned_before_refused : stopOf (step (start 0x100 0x00032283 [(6, 0x3002)] [] lowMap)) =
    some (.fault (.loadAddressMisaligned 0x100 0x3002)) := by decide
theorem test_misaligned_store : stepStop 0x007310A3 [(6, 0x2000), (7, 0)] [] =
    some (.fault (.storeAddressMisaligned 0x100 0x2001)) := by decide
theorem test_store_refused : stopOf (step (start 0x100 0x00730023 [(6, 0x3000), (7, 0)] [] lowMap)) =
    some (.fault (.storeAccessFault 0x100 0x3000)) := by decide
theorem test_no_value_register : stepStop 0x00732023 [(6, 0x2000)] [] =
    some (.refusal (.uninitialisedRead 0x100 (.reg 7))) := by decide
theorem test_no_value_memory : stepStop 0x00432283 [(6, 0x1000)] loadData =
    some (.refusal (.uninitialisedRead 0x100 (.mem 0x1004))) := by decide

/-- The second vector of 2.9 on stored code: `sw x7, 0(x6)` at 0x100, then a fetch at 0x200 is refused although the
word stored there is the old one. -/
def storedCode : State :=
  { start 0x200 0x00000013 [] [] Config.flatMemMap with stored := [0x200, 0x201, 0x202, 0x203] }

theorem test_fetch_after_store : stopOf (step storedCode) = some (.refusal (.fetchAfterStore 0x200 0x200)) := by decide
theorem test_sw_marks_stored :
    (match step (start 0x100 0x00732023 [(6, 0x200), (7, 0x13)] [] Config.flatMemMap) with
      | .next t => t.stored
      | .fault _ => []
      | .refused _ => []) = [0x200, 0x201, 0x202, 0x203] := by decide

/-! ### Runs, placing, assembly -/

/-- A run that is over at once, one that stops, one whose steps are used up (P5). -/
theorem test_run_ends : run 3 (start 0xFF0 0x13 [] [] Config.flatMemMap) =
    .endedWell (start 0xFF0 0x13 [] [] Config.flatMemMap) := rfl
theorem test_run_stops : (run 2 (start 0x100 0x00000073 [] [] Config.flatMemMap)).record =
    some (.fault (.illegalInstruction 0x100 0x73)) := by decide
theorem test_host_reads : (run 1 (start 0xFF0 0x13 [(5, 7)] [] Config.flatMemMap)).register 5 = some 7 ∧
    (run 1 (start 0xFF0 0x13 [(5, 7)] [] Config.flatMemMap)).register 6 = none ∧
    (run 1 (start 0xFF0 0x13 [] [] Config.flatMemMap)).byte 0xFF0 = some 0x13 := by decide

theorem test_withFetchWord : regOf (step (State.reset.withFetchWord 32 0xFFFFF2B7)) 5 = some (0xFFFFF000, 4) := by decide
theorem test_withFetchWord_clears_stored : stopOf (step (storedCode.withFetchWord 32 0x13)) = none := by decide

/-- A branch over one instruction (S12's fields with offset 8, by R101); `li` of S16; S11 from its text; an immediate out
of range; the words of `call` and `j` in P3 and S19. -/
theorem test_assemble_beq : assembleText 0x70 ["beq s0, t5, L1".toList, "add s1, s2, s3".toList, "L1: addi s1, s1, -15 # x".toList] =
    some [0x01E40463, 0x013904B3, 0xFF148493] := by decide
theorem test_assemble_li : assembleText 0x100 ["LI x10, 0xDEADBEEF".toList] = some [0xDEADC537, 0xEEF50513] := by decide
theorem test_assemble_store : assembleText 0 ["sb t5, 0x2D(zero)".toList] = some [0x03E006A3] := by decide
theorem test_assemble_too_far : assembleText 0 ["addi x1, x1, 4096".toList] = none := by decide
theorem test_expandCall : (expandCall 0x884).map encode = [0x00001097, 0x884080E7] := by decide
theorem test_expandJ : (expandJ (-8)).map encode = [0xFF9FF06F] := by decide

/-! ### Witnesses: the hypotheses of each statement met together, at the ends of their ranges -/

/-- x5 and x6 hold values, x7 none; the two ends of memory hold bytes; bytes 0x40 to 0x43 are stored. -/
def some5 : State where
  regs := RegFile.ofList [(5, 0x1000), (6, 0xFFFFFFFF)]
  pc := 0x100
  mem := [(0, 0x13), (1, 0), (2, 0), (3, 0), (0x40, 1), (0x41, 2), (0x42, 3), (0x43, 4), (0x100, 0x13), (0x101, 0),
    (0x102, 0), (0x103, 0), (0xFFFFFFFC, 0xB7), (0xFFFFFFFD, 0xF2), (0xFFFFFFFE, 0xFF), (0xFFFFFFFF, 0xFF)]
  stored := [0x40, 0x41, 0x42, 0x43]
  fault := none
  memMap := Config.flatMemMap
  exitPc := 0xFF0

/-- The same with nothing admitted. -/
def noneAdmitted : State := { some5 with memMap := [] }

/-- The same at another `pc`. -/
def some5At (pc : Word) : State := { some5 with pc := pc }

theorem witness_DecodingUndoesEncoding :
    Instr.wellFormed (.bge 31 0 4094) = true ∧ Instr.wellFormed (.beq 0 31 (-4096)) = true ∧
    Instr.wellFormed (.jal 31 1048574) = true ∧ Instr.wellFormed (.jal 0 (-1048576)) = true ∧
    Instr.wellFormed (.srai 31 31 31) = true := by decide

theorem witness_EncodingUndoesDecoding : decode 0xFFFFFFE3 = .ok (.bgeu 31 31 (-2)) := by decide

theorem witness_OpcodeMapSelectsInstructions :
    ∀ row ∈ opcodeTable, row.pattern &&& row.mask = row.pattern := by decide

theorem witness_LayoutsWithSplitImmediates :
    (fieldOp 0xFFFFA023 = 0b0100011#7 ∧ fieldFunct3 0xFFFFA023 = 0b010#3) ∧
    (fieldOp 0x00000023 = 0b0100011#7 ∧ fieldFunct3 0x00000023 = 0b000#3) ∧
    (fieldOp 0x00001023 = 0b0100011#7 ∧ fieldFunct3 0x00001023 = 0b001#3) ∧
    (fieldOp 0x00000063 = 0b1100011#7 ∧ fieldFunct3 0x00000063 = 0b000#3) ∧
    (fieldOp 0x00001063 = 0b1100011#7 ∧ fieldFunct3 0x00001063 = 0b001#3) ∧
    (fieldOp 0x00004063 = 0b1100011#7 ∧ fieldFunct3 0x00004063 = 0b100#3) ∧
    (fieldOp 0x00005063 = 0b1100011#7 ∧ fieldFunct3 0x00005063 = 0b101#3) ∧
    (fieldOp 0x00006063 = 0b1100011#7 ∧ fieldFunct3 0x00006063 = 0b110#3) ∧
    (fieldOp 0xFFFFFFE3 = 0b1100011#7 ∧ fieldFunct3 0xFFFFFFE3 = 0b111#3) ∧
    fieldOp 0xFFFFFFEF = 0b1101111#7 := by decide

theorem witness_ImmediatesProduced : decode 0x80000023 = .ok (.sb 0 0 (-2048)) ∧ decode 0xFFF00013 = .ok (.addi 0 0 (-1)) ∧
    decode 0x7FFFF2EF = .ok (.jal 5 1048574) ∧ decode 0xFFFFF2B7 = .ok (.lui 5 0xFFFFF) ∧
    decode 0x81E40063 = .ok (.beq 8 30 (-4096)) ∧ decode 0x01F31293 = .ok (.slli 5 6 31) ∧
    decode 0x007302B3 = .ok (.add 5 6 7) := by decide

theorem witness_AssemblerOperandsFillTheirFields :
    (evenOffset (-4096 : BitVec 13) = true ∧ List.lookup ['l'] [(['l'], (0x100 : Word))] = some 0x100 ∧
      (0x100 : Word) - 0x1100 = immB (-4096)) ∧
    (evenOffset (4094 : BitVec 13) = true ∧ (0x10FE : Word) - 0x100 = immB 4094) ∧
    (evenOffset (-1048576 : BitVec 21) = true ∧ (0 : Word) - 0x100000 = immJ (-1048576)) ∧
    (evenOffset (1048574 : BitVec 21) = true ∧ (0xFFFFE : Word) - 0 = immJ 1048574) := by decide

theorem witness_StepRunsTheDecodedInstruction :
    ((some5At 0).fault = none ∧ FetchReads (some5At 0) 0x13 ∧ decode 0x13 = .ok (.addi 0 0 0)) ∧
    ((some5At 0xFFFFFFFC).fault = none ∧ FetchReads (some5At 0xFFFFFFFC) 0xFFFFF2B7 ∧
      decode 0xFFFFF2B7 = .ok (.lui 5 0xFFFFF)) := by
  unfold FetchReads
  decide

/-- The five stops of the fetch side: each remainder of `pc`, no access admitted, the last byte alone stored, the last
byte alone without a value, and an illegal word. -/
theorem witness_FetchSideStopsInOrder :
    ((some5At 0xFFFFFFFF).fault = none ∧ (some5At 0xFFFFFFFF).pc.toNat % 4 ≠ 0 ∧ (some5At 1).pc.toNat % 4 ≠ 0 ∧
      (some5At 2).pc.toNat % 4 ≠ 0) ∧
    (noneAdmitted.fault = none ∧ noneAdmitted.pc.toNat % 4 = 0 ∧
      memAdmits noneAdmitted.memMap noneAdmitted.pc .word .fetch = false) ∧
    (memAdmits some5.memMap 0x40 .word .fetch = true ∧
      ∃ k < 4, AddrSet.has (AddrSet.dropRange (some5At 0x40).stored 0x40 3) ((some5At 0x40).pc.toNat + k) = true) ∧
    (memAdmits some5.memMap 0x100 .word .fetch = true ∧ (∀ k < 4, AddrSet.has some5.stored (0x100 + k) = false) ∧
      ∃ k < 4, Memory.read (some5.mem.filter fun c => c.1 != 0x103) (0x100 + k) = none) ∧
    (FetchReads (start 0x100 0x73 [] [] Config.flatMemMap) 0x73 ∧ decode 0x73 = .error .opcode) := by
  unfold FetchReads
  decide

theorem witness_RecordedFaultEndsStepping :
    ({ some5 with fault := some (.fault (.illegalInstruction 0 0)) } : State).fault =
      some (.fault (.illegalInstruction 0 0)) ∧
    ({ some5 with fault := some (.refusal (.fetchAfterStore 0 0)) } : State).fault =
      some (.refusal (.fetchAfterStore 0 0)) := by decide

theorem witness_PlacedWordIsTheNextInstruction :
    (some5At 0xFFFFFFFC).fault = none ∧ (some5At 0xFFFFFFFC).pc.toNat % 4 = 0 ∧ (some5At 0).pc.toNat % 4 = 0 ∧
    memAdmits (some5At 0xFFFFFFFC).memMap (some5At 0xFFFFFFFC).pc .word .fetch = true ∧
    decodeTableWord 32 0x00500293 = some (.addi 5 0 5) := by decide

theorem witness_RegisterZeroStaysZero :
    destination (.addi 0 5 1) = some 0#5 ∧ ∃ t, exec (.addi 0 5 1) some5 = .next t := ⟨rfl, _, rfl⟩

/-- Sources that hold a value, one of them x0, and words that match the rows with every operand bit 1. -/
theorem witness_RegisterRegisterResults : some5.hasReg 5 = true ∧ some5.hasReg 0 = true ∧
    ([0x00000033#32, 0x40000033#32, 0x00001033#32, 0x00004033#32, 0x00005033#32, 0x00006033#32, 0x00007033#32].all fun p =>
      (p ||| 0x01FF8F80#32) &&& 0xFE00707F#32 == p) = true := by decide

theorem witness_SetLessThanAndArithmeticShiftResults : some5.hasReg 5 = true ∧ some5.hasReg 0 = true ∧
    ([0x00002033#32, 0x00003033#32, 0x40005033#32].all fun p =>
      (p ||| 0x01FF8F80#32) &&& 0xFE00707F#32 == p) = true := by decide

theorem witness_RegisterImmediateResults : some5.hasReg 5 = true ∧ some5.hasReg 0 = true ∧
    ([0x00000013#32, 0x00004013#32, 0x00006013#32, 0x00007013#32].all fun p =>
      (p ||| 0xFFFF8F80#32) &&& 0x0000707F#32 == p) = true ∧
    ([0x00001013#32, 0x00005013#32].all fun p =>
      (p ||| 0x01FF8F80#32) &&& 0xFE00707F#32 == p) = true := by decide

theorem witness_ImmediateComparesAndArithmeticShiftResults : some5.hasReg 5 = true ∧ some5.hasReg 0 = true ∧
    ([0x00002013#32, 0x00003013#32].all fun p =>
      (p ||| 0xFFFF8F80#32) &&& 0x0000707F#32 == p) = true ∧
    ([0x40005013#32].all fun p =>
      (p ||| 0x01FF8F80#32) &&& 0xFE00707F#32 == p) = true := by decide

theorem witness_UpperImmediateResults : ([0x00000037#32, 0x00000017#32].all fun p =>
      (p ||| 0xFFFFFF80#32) &&& 0x0000007F#32 == p) = true := by decide

theorem witness_BranchOutcomes_encodings : ([0x00000063#32, 0x00001063#32, 0x00004063#32, 0x00005063#32, 0x00006063#32, 0x00007063#32].all fun p =>
      (p ||| 0xFFFF8F80#32) &&& 0x0000707F#32 == p) = true := by decide

theorem witness_JumpOutcomes_encodings : ([0x00000067#32].all fun p =>
      (p ||| 0xFFFF8F80#32) &&& 0x0000707F#32 == p) = true ∧
    ([0x0000006F#32].all fun p =>
      (p ||| 0xFFFFFF80#32) &&& 0x0000007F#32 == p) = true := by decide

theorem witness_FirstSourceWithoutValueIsRefused :
    (sources (.add 5 6 7) = [6] ++ 7 :: [] ∧ (∀ q ∈ [(6 : RegIdx)], some5.hasReg q = true) ∧ some5.hasReg 7 = false) ∧
    (sources (.sw 31 7 0) = [] ++ 31 :: [7] ∧ some5.hasReg 31 = false) := by decide

theorem witness_EffectiveAddressIsBasePlusDisplacement :
    (∃ t, exec (.lb 1 6 0) some5 = .next t) ∧ (∃ t, exec (.lh 1 0 (-2)) some5 = .next t) ∧ (∃ t, exec (.lw 1 0 (-4)) some5 = .next t) ∧
    (∃ t, exec (.lbu 1 6 1) some5 = .next t) ∧ (∃ t, exec (.lhu 1 6 (-1)) some5 = .next t) ∧
    (∃ t, exec (.sb 6 5 0) some5 = .next t) ∧ (∃ t, exec (.sh 5 6 2046) some5 = .next t) ∧
    (∃ t, exec (.sw 5 6 (-2048)) some5 = .next t) :=
  ⟨⟨_, rfl⟩, ⟨_, rfl⟩, ⟨_, rfl⟩, ⟨_, rfl⟩, ⟨_, rfl⟩, ⟨_, rfl⟩, ⟨_, rfl⟩, ⟨_, rfl⟩⟩

/-- Loads at the top of memory: the last byte, the last half, the last word. -/
theorem witness_LoadsDeliverTheBytesOfMemory : some5.hasReg 6 = true ∧
    (memAdmits some5.memMap (loadAddress (some5.reg 6) 0) .byte .load = true ∧
      Memory.read some5.mem (loadAddress (some5.reg 6) 0).toNat = some 0xFF) ∧
    ((loadAddress (some5.reg 6) (-1)).toNat % 2 = 0 ∧
      memAdmits some5.memMap (loadAddress (some5.reg 6) (-1)) .half .load = true ∧
      Memory.read some5.mem (loadAddress (some5.reg 6) (-1)).toNat = some 0xFF ∧
      Memory.read some5.mem ((loadAddress (some5.reg 6) (-1)).toNat + 1) = some 0xFF) ∧
    ((loadAddress (some5.reg 6) (-3)).toNat % 4 = 0 ∧
      memAdmits some5.memMap (loadAddress (some5.reg 6) (-3)) .word .load = true ∧
      Memory.read some5.mem (loadAddress (some5.reg 6) (-3)).toNat = some 0xB7 ∧
      Memory.read some5.mem ((loadAddress (some5.reg 6) (-3)).toNat + 1) = some 0xF2 ∧
      Memory.read some5.mem ((loadAddress (some5.reg 6) (-3)).toNat + 2) = some 0xFF ∧
      Memory.read some5.mem ((loadAddress (some5.reg 6) (-3)).toNat + 3) = some 0xFF) := by decide

/-- A load stops: misaligned by 1, 2 and 3 (no byte access is misaligned), not admitted at each size, and with only the
last byte of each size without a value. -/
theorem witness_LoadsStopInOrder : some5.hasReg 6 = true ∧ noneAdmitted.hasReg 6 = true ∧
    (loadAddress (some5.reg 6) 0).toNat % 2 ≠ 0 ∧ (loadAddress (some5.reg 6) (-2)).toNat % 4 ≠ 0 ∧
    (loadAddress (some5.reg 6) (-1)).toNat % 4 ≠ 0 ∧ (loadAddress (some5.reg 6) 0).toNat % 4 ≠ 0 ∧
    ((loadAddress (noneAdmitted.reg 6) 1).toNat % 4 = 0 ∧
      memAdmits noneAdmitted.memMap (loadAddress (noneAdmitted.reg 6) 1) .byte .load = false ∧
      memAdmits noneAdmitted.memMap (loadAddress (noneAdmitted.reg 6) 1) .half .load = false ∧
      memAdmits noneAdmitted.memMap (loadAddress (noneAdmitted.reg 6) 1) .word .load = false) ∧
    ((loadAddress (some5.reg 6) 5).toNat % 4 = 0 ∧
      memAdmits some5.memMap (loadAddress (some5.reg 6) 5) .byte .load = true ∧
      memAdmits some5.memMap (loadAddress (some5.reg 6) 5) .half .load = true ∧
      memAdmits some5.memMap (loadAddress (some5.reg 6) 5) .word .load = true ∧
      (∃ k < 1, Memory.read some5.mem ((loadAddress (some5.reg 6) 5).toNat + k) = none) ∧
      (∃ k < 2, Memory.read (some5.mem ++ [(4, 0)]) ((loadAddress (some5.reg 6) 5).toNat + k) = none) ∧
      (∃ k < 4, Memory.read (some5.mem ++ [(4, 0), (5, 0), (6, 0)]) ((loadAddress (some5.reg 6) 5).toNat + k) =
        none)) := by decide

/-- Stores at the top of memory, and at address 0. -/
theorem witness_StoresWriteTheirBytes : some5.hasReg 6 = true ∧ some5.hasReg 5 = true ∧
    ((storeAddress (some5.reg 6) 0).toNat % 1 = 0 ∧
      memAdmits some5.memMap (storeAddress (some5.reg 6) 0) .byte .store = true) ∧
    ((storeAddress (some5.reg 6) (-1)).toNat % 2 = 0 ∧
      memAdmits some5.memMap (storeAddress (some5.reg 6) (-1)) .half .store = true) ∧
    ((storeAddress (some5.reg 6) (-3)).toNat % 4 = 0 ∧
      memAdmits some5.memMap (storeAddress (some5.reg 6) (-3)) .word .store = true) ∧
    ((storeAddress (some5.reg 6) 1).toNat % 4 = 0 ∧
      memAdmits some5.memMap (storeAddress (some5.reg 6) 1) .word .store = true) := by decide

theorem witness_StoresStopInOrder : some5.hasReg 6 = true ∧ some5.hasReg 5 = true ∧ noneAdmitted.hasReg 6 = true ∧
    noneAdmitted.hasReg 5 = true ∧ (storeAddress (some5.reg 6) 0).toNat % 2 ≠ 0 ∧
    (storeAddress (some5.reg 6) (-2)).toNat % 4 ≠ 0 ∧ (storeAddress (some5.reg 6) (-1)).toNat % 4 ≠ 0 ∧
    (storeAddress (some5.reg 6) 0).toNat % 4 ≠ 0 ∧
    ((storeAddress (noneAdmitted.reg 6) 1).toNat % 4 = 0 ∧
      memAdmits noneAdmitted.memMap (storeAddress (noneAdmitted.reg 6) 1) .byte .store = false ∧
      memAdmits noneAdmitted.memMap (storeAddress (noneAdmitted.reg 6) 1) .half .store = false ∧
      memAdmits noneAdmitted.memMap (storeAddress (noneAdmitted.reg 6) 1) .word .store = false) := by decide

theorem witness_MixedWidthReadsAfterStoreWord : ∃ t, exec (.sw 6 5 (-3)) some5 = .next t := ⟨_, rfl⟩

/-- The branch conditions, true and false, with targets at the ends of the range. -/
theorem witness_BranchOutcomes : some5.hasReg 5 = true ∧ some5.hasReg 6 = true ∧
    (decide ((some5.reg 5).toNat = (some5.reg 5).toNat) = true ∧
      decide ((some5.reg 5).toNat = (some5.reg 6).toNat) = false) ∧
    (decide ((some5.reg 6).toInt < (some5.reg 5).toInt) = true ∧
      decide ((some5.reg 5).toInt < (some5.reg 6).toInt) = false) ∧
    (decide ((some5.reg 5).toNat < (some5.reg 6).toNat) = true ∧
      decide ((some5.reg 6).toNat < (some5.reg 5).toNat) = false) ∧
    ((some5.pc.toNat : Int) + (-4096 : BitVec 13).toInt) % 4 = 0 ∧
    ((some5.pc.toNat : Int) + (4094 : BitVec 13).toInt) % 4 ≠ 0 := by decide

theorem witness_JumpOutcomes :
    ((some5.pc.toNat : Int) + (-1048576 : BitVec 21).toInt) % 4 = 0 ∧
    ((some5.pc.toNat : Int) + (1048574 : BitVec 21).toInt) % 4 ≠ 0 ∧ some5.hasReg 6 = true ∧
    (((some5.reg 6).toNat : Int) + (-2047 : BitVec 12).toInt) % 4 = 0 ∧
    (((some5.reg 6).toNat : Int) + (2047 : BitVec 12).toInt) % 4 ≠ 0 := by decide

theorem witness_LiLoadsEveryConstant : (31 : RegIdx) ≠ 0#5 := by decide

theorem witness_CallReachesEveryTarget : (0xFFFFFFFC : Word).toNat % 4 = 0 := by decide

theorem witness_LaunchStateFollowsTheTable : (5 : RegIdx) ≠ 0#5 ∧
    (programLaunch 0 0 [] [(5, 1), (5, 2)] [] []).initRegs.lookup 5 = some 1 ∧
    (programLaunch 0 0 [] [(5, 1), (5, 2)] [] []).initRegs.lookup 31 = none := by decide

/-- The invariant in a state whose memory and `Stored` are not empty, with a step. -/
theorem witness_EveryStepKeepsTheInvariant : Inv some5 ∧ ∃ t, step some5 = .next t where
  left :=
    { memory := by decide
      stored := by decide
      storedHasValue := fun a h => by
        have h : a ∈ [0x40, 0x41, 0x42, 0x43] := by simpa [some5, AddrSet.has] using h
        fin_cases h <;> rfl
      pcAligned := by decide
      noFault := rfl }
  right := ⟨_, rfl⟩

theorem witness_AlignedLaunchHasTheInvariant :
    (programLaunch 0xFFFFFFFC 0 [] [] [] []).resetPc.toNat % 4 = 0 := by decide

theorem witness_StepsOnlyAddKnowledge : (∃ t, step some5 = .next t) ∧ some5.hasReg 6 = true ∧
    (Memory.read some5.mem 0xFFFFFFFF).isSome = true ∧ AddrSet.has some5.stored 0x43 = true :=
  ⟨⟨_, rfl⟩, by decide⟩

/-- A jump, and a store that changes a byte, with the addresses on both sides of it outside. -/
theorem witness_OnlyDestinationsAndStoresChangeState :
    ((∃ t, exec (.jalr 1 5 0) some5 = .next t) ∧ destination (.jalr 1 5 0) ≠ some 5 ∧
      storeAccess (.jalr 1 5 0) some5 = none) ∧
    ((∃ t, exec (.sb 6 5 0) some5 = .next t ∧
        Memory.read t.mem (some5.reg 6).toNat ≠ Memory.read some5.mem (some5.reg 6).toNat) ∧
      destination (.sb 6 5 0) ≠ some 6 ∧ storeAccess (.sb 6 5 0) some5 = some (some5.reg 6, .byte)) :=
  ⟨⟨⟨_, rfl⟩, by decide⟩, ⟨_, rfl, by decide⟩, by decide⟩

/-- Two states that differ in x6 only, and an instruction of each outcome that does not read x6. -/
theorem witness_OnlySourcesMatter :
    let u : State := { some5 with regs := RegFile.ofList [(5, 0x1000)] }
    (some5.pc = u.pc ∧ some5.mem = u.mem ∧ some5.memMap = u.memMap ∧ some5.hasReg 6 ≠ u.hasReg 6 ∧
      ∀ r ∈ [(5 : RegIdx)], some5.reg r = u.reg r ∧ some5.hasReg r = u.hasReg r) ∧
    (sources (.addi 1 5 0) = [5] ∧ ∃ t, exec (.addi 1 5 0) some5 = .next t) ∧
    (sources (.lw 1 5 1) = [5] ∧ ∃ f, exec (.lw 1 5 1) some5 = .fault f) ∧
    (sources (.lw 1 5 0) = [5] ∧ ∃ r, exec (.lw 1 5 0) some5 = .refused r) :=
  ⟨by decide, ⟨rfl, _, rfl⟩, ⟨rfl, _, rfl⟩, rfl, _, rfl⟩

theorem witness_EveryStopHasItsCause :
    (∃ f, exec (.beq 5 5 2) some5 = .fault f) ∧ (∃ f, exec (.jal 1 2) some5 = .fault f) ∧ (∃ f, exec (.lh 1 5 1) some5 = .fault f) ∧
    (∃ f, exec (.lb 1 5 0) noneAdmitted = .fault f) ∧ (∃ f, exec (.sw 5 6 2) some5 = .fault f) ∧
    (∃ f, exec (.sb 5 6 0) noneAdmitted = .fault f) ∧ (∃ r, exec (.add 1 5 7) some5 = .refused r) ∧
    (∃ r, exec (.lbu 1 5 0) some5 = .refused r) :=
  ⟨⟨_, rfl⟩, ⟨_, rfl⟩, ⟨_, rfl⟩, ⟨_, rfl⟩, ⟨_, rfl⟩, ⟨_, rfl⟩, ⟨_, rfl⟩, ⟨_, rfl⟩⟩

theorem witness_StoredBytesAreNeverExecuted : AddrSet.has some5.stored 0x40 = true ∧
    ∃ u t, Host.Core.run Sys2Proof.core 0 some5 = .next u ∧ step u = .next t :=
  ⟨rfl, some5, _, rfl, rfl⟩

theorem witness_RunEndsAtExitPc : (some5At 0xFF0).fault = none ∧ (some5At 0xFF0).pc = (some5At 0xFF0).exitPc := by decide

/-- A run that ends well after one step, and one that stops after one. -/
theorem witness_FinishedRunsStayFinished :
    (∃ t, run 2 { some5 with exitPc := 0x104 } = .endedWell t) ∧ ∃ t, run 2 some5 = .stopped t := ⟨⟨_, rfl⟩, _, rfl⟩

theorem witness_GoodRunsStopAtTheFirstExit : ∃ t, run 2 { some5 with exitPc := 0x104 } = .endedWell t := ⟨_, rfl⟩

theorem witness_StoppedRunsOnlyRecordTheFault : some5.fault = none ∧ ∃ t, run 2 some5 = .stopped t := ⟨rfl, _, rfl⟩

end Sys2Proof.Tests
end

section
/-! The decoder as a reading of the opcode map, the masks of the map, the encoder as the inverse of the decoder, the
fields bit by bit, and the settled statements O3 to O6 (`30_encoding.md` R71 to R90, R101). -/

namespace Sys2Proof
open Sys2Proof.Machine

/-! ### The decoder reads the rows of the opcode map (R89, R90) -/

/-- The instruction of a mnemonic with its operands cut out of the word (`30_encoding.md` R71 to R78). -/
def Mnemonic.ofWord (w : Word) : Mnemonic → Instr
  | .lb => .lb (fieldRd w) (fieldRs1 w) (fieldImmI w)
  | .lh => .lh (fieldRd w) (fieldRs1 w) (fieldImmI w)
  | .lw => .lw (fieldRd w) (fieldRs1 w) (fieldImmI w)
  | .lbu => .lbu (fieldRd w) (fieldRs1 w) (fieldImmI w)
  | .lhu => .lhu (fieldRd w) (fieldRs1 w) (fieldImmI w)
  | .addi => .addi (fieldRd w) (fieldRs1 w) (fieldImmI w)
  | .slli => .slli (fieldRd w) (fieldRs1 w) (fieldUimm w)
  | .slti => .slti (fieldRd w) (fieldRs1 w) (fieldImmI w)
  | .sltiu => .sltiu (fieldRd w) (fieldRs1 w) (fieldImmI w)
  | .xori => .xori (fieldRd w) (fieldRs1 w) (fieldImmI w)
  | .srli => .srli (fieldRd w) (fieldRs1 w) (fieldUimm w)
  | .srai => .srai (fieldRd w) (fieldRs1 w) (fieldUimm w)
  | .ori => .ori (fieldRd w) (fieldRs1 w) (fieldImmI w)
  | .andi => .andi (fieldRd w) (fieldRs1 w) (fieldImmI w)
  | .auipc => .auipc (fieldRd w) (fieldUpimm w)
  | .sb => .sb (fieldRs1 w) (fieldRs2 w) (fieldImmS w)
  | .sh => .sh (fieldRs1 w) (fieldRs2 w) (fieldImmS w)
  | .sw => .sw (fieldRs1 w) (fieldRs2 w) (fieldImmS w)
  | .add => .add (fieldRd w) (fieldRs1 w) (fieldRs2 w)
  | .sub => .sub (fieldRd w) (fieldRs1 w) (fieldRs2 w)
  | .sll => .sll (fieldRd w) (fieldRs1 w) (fieldRs2 w)
  | .slt => .slt (fieldRd w) (fieldRs1 w) (fieldRs2 w)
  | .sltu => .sltu (fieldRd w) (fieldRs1 w) (fieldRs2 w)
  | .xor => .xor (fieldRd w) (fieldRs1 w) (fieldRs2 w)
  | .srl => .srl (fieldRd w) (fieldRs1 w) (fieldRs2 w)
  | .sra => .sra (fieldRd w) (fieldRs1 w) (fieldRs2 w)
  | .or => .or (fieldRd w) (fieldRs1 w) (fieldRs2 w)
  | .and => .and (fieldRd w) (fieldRs1 w) (fieldRs2 w)
  | .lui => .lui (fieldRd w) (fieldUpimm w)
  | .beq => .beq (fieldRs1 w) (fieldRs2 w) (fieldImmB w)
  | .bne => .bne (fieldRs1 w) (fieldRs2 w) (fieldImmB w)
  | .blt => .blt (fieldRs1 w) (fieldRs2 w) (fieldImmB w)
  | .bge => .bge (fieldRs1 w) (fieldRs2 w) (fieldImmB w)
  | .bltu => .bltu (fieldRs1 w) (fieldRs2 w) (fieldImmB w)
  | .bgeu => .bgeu (fieldRs1 w) (fieldRs2 w) (fieldImmB w)
  | .jalr => .jalr (fieldRd w) (fieldRs1 w) (fieldImmI w)
  | .jal => .jal (fieldRd w) (fieldImmJ w)

@[simp] theorem mnemonic_ofWord (m : Mnemonic) (w : Word) : (m.ofWord w).mnemonic = m := by
  cases m <;> rfl

/-- The word has the `funct3` and `funct7` that the row asks for (R89). -/
def OpcodeRow.FunctsMatch (row : OpcodeRow) (w : Word) : Prop :=
  (∀ f ∈ row.funct3, fieldFunct3 w = f) ∧ (∀ f ∈ row.funct7, fieldFunct7 w = f)

/-- The word has the codes of the row (R89). -/
def OpcodeRow.Selects (row : OpcodeRow) (w : Word) : Prop :=
  fieldOp w = row.op ∧ row.FunctsMatch w

/-- One of the rows asks for the word's `funct3` and `funct7`, and reading the word by that row's mnemonic makes the
instruction: what R90 says of the rows of one `op`. -/
def ReadBySomeRow (rows : List OpcodeRow) (w : Word) (i : Instr) : Prop :=
  ∃ row ∈ rows, row.FunctsMatch w ∧ row.mnemonic.ofWord w = i

theorem readBySomeRow_nil (w : Word) (i : Instr) : ¬ ReadBySomeRow [] w i := by
  simp [ReadBySomeRow]

theorem readBySomeRow_cons (row : OpcodeRow) (rows : List OpcodeRow) (w : Word) (i : Instr) :
    ReadBySomeRow (row :: rows) w i ↔
      (row.FunctsMatch w ∧ row.mnemonic.ofWord w = i) ∨ ReadBySomeRow rows w i := by
  simp [ReadBySomeRow]

theorem funct3_cases (f : BitVec 3) : f = 0b000#3 ∨ f = 0b001#3 ∨ f = 0b010#3 ∨ f = 0b011#3 ∨ f = 0b100#3 ∨
    f = 0b101#3 ∨ f = 0b110#3 ∨ f = 0b111#3 := by
  revert f; decide

theorem decodeLoad_eq_ok_iff (w : Word) (i : Instr) : decodeLoad w = .ok i ↔ ReadBySomeRow rowsLoad w i := by
  simp only [rowsLoad, readBySomeRow_cons, readBySomeRow_nil, OpcodeRow.FunctsMatch]
  unfold decodeLoad
  split <;> simp_all [Mnemonic.ofWord]

theorem decodeAluImm_eq_ok_iff (w : Word) (i : Instr) : decodeAluImm w = .ok i ↔ ReadBySomeRow rowsAluImm w i := by
  simp only [rowsAluImm, readBySomeRow_cons, readBySomeRow_nil, OpcodeRow.FunctsMatch]
  unfold decodeAluImm
  split
  case h_8 =>
    have remaining : fieldFunct3 w = 0b101#3 := by
      have := funct3_cases (fieldFunct3 w)
      tauto
    split_ifs <;> simp_all [Mnemonic.ofWord]
  case h_7 => split_ifs <;> simp_all [Mnemonic.ofWord]
  all_goals simp_all [Mnemonic.ofWord]

theorem decodeStore_eq_ok_iff (w : Word) (i : Instr) : decodeStore w = .ok i ↔ ReadBySomeRow rowsStore w i := by
  simp only [rowsStore, readBySomeRow_cons, readBySomeRow_nil, OpcodeRow.FunctsMatch]
  unfold decodeStore
  split <;> simp_all [Mnemonic.ofWord]

theorem decodeAluReg_eq_ok_iff (w : Word) (i : Instr) : decodeAluReg w = .ok i ↔ ReadBySomeRow rowsAluReg w i := by
  simp only [rowsAluReg, readBySomeRow_cons, readBySomeRow_nil, OpcodeRow.FunctsMatch]
  unfold decodeAluReg decodeAluRegPlain
  split_ifs
  · split
    case h_8 =>
      have remaining : fieldFunct3 w = 0b111#3 := by
        have := funct3_cases (fieldFunct3 w)
        tauto
      simp_all [Mnemonic.ofWord]
    all_goals simp_all [Mnemonic.ofWord]
  · split <;> simp_all [Mnemonic.ofWord]
  · simp_all

theorem decodeBranch_eq_ok_iff (w : Word) (i : Instr) : decodeBranch w = .ok i ↔ ReadBySomeRow rowsBranch w i := by
  simp only [rowsBranch, readBySomeRow_cons, readBySomeRow_nil, OpcodeRow.FunctsMatch]
  unfold decodeBranch
  split <;> simp_all [Mnemonic.ofWord]

theorem decodeJalr_eq_ok_iff (w : Word) (i : Instr) :
    decodeJalr w = .ok i ↔ ReadBySomeRow [rowsJumpUpper[2]] w i := by
  simp only [rowsJumpUpper, readBySomeRow_cons, readBySomeRow_nil, OpcodeRow.FunctsMatch]
  unfold decodeJalr
  split_ifs <;> simp_all [Mnemonic.ofWord]

/-- A single row whose codes the word has. -/
theorem ok_eq_ok_iff_readBySomeRow {row : OpcodeRow} {w : Word} {i : Instr} (h : row.FunctsMatch w) :
    (.ok (row.mnemonic.ofWord w) : Except DecodeError Instr) = .ok i ↔ ReadBySomeRow [row] w i := by
  simp [ReadBySomeRow, h]

/-- The decoder accepts a word as an instruction exactly when a row of the map has the word's codes and the word's
fields, read by the format of that row's mnemonic, are the instruction's operands (R89, R90). -/
theorem decode_eq_ok_iff (w : Word) (i : Instr) :
    decode w = .ok i ↔ ∃ row ∈ opcodeTable, row.Selects w ∧ row.mnemonic.ofWord w = i := by
  have rows_of_op : (∃ row ∈ opcodeTable, row.Selects w ∧ row.mnemonic.ofWord w = i) ↔
      ReadBySomeRow (opcodeTable.filter (fun row => fieldOp w == row.op)) w i := by
    simp [ReadBySomeRow, OpcodeRow.Selects, and_assoc]
  rw [rows_of_op]
  unfold decode
  split
  next h => rw [h]; exact decodeLoad_eq_ok_iff w i
  next h => rw [h]; exact decodeAluImm_eq_ok_iff w i
  next h => rw [h]; exact ok_eq_ok_iff_readBySomeRow (row := rowsJumpUpper[0]) ⟨nofun, nofun⟩
  next h => rw [h]; exact decodeStore_eq_ok_iff w i
  next h => rw [h]; exact decodeAluReg_eq_ok_iff w i
  next h => rw [h]; exact ok_eq_ok_iff_readBySomeRow (row := rowsJumpUpper[1]) ⟨nofun, nofun⟩
  next h => rw [h]; exact decodeBranch_eq_ok_iff w i
  next h => rw [h]; exact decodeJalr_eq_ok_iff w i
  next h => rw [h]; exact ok_eq_ok_iff_readBySomeRow (row := rowsJumpUpper[3]) ⟨nofun, nofun⟩
  next =>
    have none_left : opcodeTable.filter (fun row => fieldOp w == row.op) = [] := by
      have ops : ∀ row ∈ opcodeTable, row.op ∈ [0b0000011#7, 0b0010011#7, 0b0010111#7, 0b0100011#7, 0b0110011#7,
          0b0110111#7, 0b1100011#7, 0b1100111#7, 0b1101111#7] := by decide
      refine List.filter_eq_nil_iff.mpr fun row hrow hop => ?_
      have hmem := ops row hrow
      rw [← eq_of_beq hop] at hmem
      simp only [List.mem_cons, List.not_mem_nil, or_false] at hmem
      tauto
    simp [none_left, readBySomeRow_nil]

/-- A word that has a row's codes decodes by that row. -/
theorem decode_of_selects {row : OpcodeRow} {w : Word} (hrow : row ∈ opcodeTable) (hw : row.Selects w) :
    decode w = .ok (row.mnemonic.ofWord w) :=
  (decode_eq_ok_iff _ _).mpr ⟨row, hrow, hw, rfl⟩

/-- Each mnemonic has one row (R89). -/
theorem opcodeTable_mnemonic_injective :
    ∀ row ∈ opcodeTable, ∀ row' ∈ opcodeTable, row.mnemonic = row'.mnemonic → row = row' := by
  decide

theorem selects_iff_decode_mnemonic {row : OpcodeRow} (hrow : row ∈ opcodeTable) (w : Word) :
    row.Selects w ↔ ∃ i, decode w = .ok i ∧ i.mnemonic = row.mnemonic := by
  constructor
  · intro hw
    exact ⟨_, decode_of_selects hrow hw, mnemonic_ofWord _ _⟩
  · rintro ⟨i, hi, hm⟩
    obtain ⟨row', hrow', hw, rfl⟩ := (decode_eq_ok_iff _ _).mp hi
    rw [mnemonic_ofWord] at hm
    rwa [← opcodeTable_mnemonic_injective row' hrow' row hrow hm]

/-! ### Masks and matches as codes (R89) -/

theorem append_eq_append_iff {n m : Nat} {a c : BitVec n} {b d : BitVec m} : a ++ b = c ++ d ↔ a = c ∧ b = d := by
  constructor
  · intro h
    have hl := congrArg (BitVec.extractLsb' m n) h
    have hr := congrArg (BitVec.extractLsb' 0 m) h
    rw [BitVec.extractLsb'_append_eq_left, BitVec.extractLsb'_append_eq_left] at hl
    rw [BitVec.extractLsb'_append_eq_right, BitVec.extractLsb'_append_eq_right] at hr
    exact ⟨hl, hr⟩
  · rintro ⟨rfl, rfl⟩
    rfl

theorem maskOp_eq_iff (w : Word) (op : BitVec 7) : w &&& maskOp = 0#25 ++ op ↔ fieldOp w = op := by
  rw [maskOp_fields]
  exact BitVec.append_right_inj (w := 25) 0#25

theorem maskOpFunct3_eq_iff (w : Word) (f3 : BitVec 3) (op : BitVec 7) :
    w &&& maskOpFunct3 = 0#17 ++ f3 ++ 0#5 ++ op ↔ fieldFunct3 w = f3 ∧ fieldOp w = op := by
  have above_op : 0#17 ++ fieldFunct3 w ++ 0#5 = 0#17 ++ f3 ++ 0#5 ↔ fieldFunct3 w = f3 :=
    (BitVec.append_left_inj (w := 20) 0#5).trans (BitVec.append_right_inj (w := 17) 0#17)
  rw [maskOpFunct3_fields, ← above_op]
  exact append_eq_append_iff (n := 25)

theorem maskAll_eq_iff (w : Word) (f7 : BitVec 7) (f3 : BitVec 3) (op : BitVec 7) :
    w &&& maskAll = f7 ++ 0#10 ++ f3 ++ 0#5 ++ op ↔
      (fieldFunct7 w = f7 ∧ fieldFunct3 w = f3) ∧ fieldOp w = op := by
  have above_funct3 : fieldFunct7 w ++ 0#10 = f7 ++ 0#10 ↔ fieldFunct7 w = f7 := BitVec.append_left_inj (w := 7) 0#10
  have above_op : fieldFunct7 w ++ 0#10 ++ fieldFunct3 w ++ 0#5 = f7 ++ 0#10 ++ f3 ++ 0#5 ↔
      fieldFunct7 w ++ 0#10 = f7 ++ 0#10 ∧ fieldFunct3 w = f3 :=
    (BitVec.append_left_inj (w := 20) 0#5).trans (append_eq_append_iff (n := 17))
  rw [maskAll_fields, ← above_funct3, ← above_op]
  exact append_eq_append_iff (n := 25)

/-- The mask of a row and the word it is compared with, made from the row's codes. -/
def OpcodeRow.maskAndPattern (row : OpcodeRow) : Option (Word × Word) :=
  match row.funct3, row.funct7 with
  | none, none => some (maskOp, 0#25 ++ row.op)
  | some f3, none => some (maskOpFunct3, 0#17 ++ f3 ++ 0#5 ++ row.op)
  | some f3, some f7 => some (maskAll, f7 ++ 0#10 ++ f3 ++ 0#5 ++ row.op)
  | none, some _ => none

theorem opcodeTable_maskAndPattern : ∀ row ∈ opcodeTable, row.maskAndPattern = some (row.mask, row.pattern) := by
  decide

theorem mask_match_iff_selects {row : OpcodeRow} (h : row.maskAndPattern = some (row.mask, row.pattern)) (w : Word) :
    w &&& row.mask = row.pattern ↔ row.Selects w := by
  obtain ⟨m, fmt, op, f3, f7, pattern, mask⟩ := row
  cases f3 <;> cases f7 <;> simp only [OpcodeRow.maskAndPattern, Option.some.injEq, Prod.mk.injEq, reduceCtorEq] at h
  case none.none =>
    obtain ⟨rfl, rfl⟩ := h
    simp [maskOp_eq_iff, OpcodeRow.Selects, OpcodeRow.FunctsMatch]
  case some.none f3 =>
    obtain ⟨rfl, rfl⟩ := h
    simp [maskOpFunct3_eq_iff, OpcodeRow.Selects, OpcodeRow.FunctsMatch, and_comm]
  case some.some f3 f7 =>
    obtain ⟨rfl, rfl⟩ := h
    simp [maskAll_eq_iff, OpcodeRow.Selects, OpcodeRow.FunctsMatch, and_comm]

/-- Settles O3: mask and match are the row's codes spread over a word, the decoder reads the rows by their codes, and no
two rows share a mnemonic. -/
theorem opcodeMapSelectsInstructions : Obligations.OpcodeMapSelectsInstructions := by
  refine ⟨rfl, fun row hrow w => ?_⟩
  have hmask := mask_match_iff_selects (opcodeTable_maskAndPattern row hrow) w
  exact ⟨hmask, hmask.trans (selects_iff_decode_mnemonic hrow w)⟩

/-! ### The encoder is the decoder's inverse (R101) -/

/-- One half of R101: the fields of an encoded word are the operands it was made from. -/
theorem decode_encode (i : Instr) (hi : i.wellFormed = true) : decode (encode i) = .ok i := by
  cases i with
  | beq | bne | blt | bge | bltu | bgeu => simp [encode, decode, decodeBranch, fieldImmB_encodeB _ _ _ _ _ hi]
  | jal rd offset => simp [encode, decode, fieldImmJ_encodeJ _ _ _ hi]
  | lb | lh | lw | lbu | lhu => simp [encode, decode, decodeLoad]
  | sb | sh | sw => simp [encode, decode, decodeStore]
  | add | sub | sll | slt | sltu | xor | srl | sra | or | and =>
    simp [encode, decode, decodeAluReg, decodeAluRegPlain]
  | addi | slli | slti | sltiu | xori | srli | srai | ori | andi => simp [encode, decode, decodeAluImm]
  | lui | auipc => simp [encode, decode]
  | jalr => simp [encode, decode, decodeJalr]

section FieldsOfAWord
variable {w : Word} {f7 : BitVec 7} {f3 : BitVec 3} {op : BitVec 7}

theorem encodeR_of_codes (h7 : fieldFunct7 w = f7) (h3 : fieldFunct3 w = f3) (hop : fieldOp w = op) :
    encodeR f7 (fieldRs2 w) (fieldRs1 w) f3 (fieldRd w) op = w := by
  subst h7 h3 hop
  exact encodeR_fields w

theorem encodeI_of_codes (h3 : fieldFunct3 w = f3) (hop : fieldOp w = op) :
    encodeI (fieldImmI w) (fieldRs1 w) f3 (fieldRd w) op = w := by
  subst h3 hop
  exact encodeI_fields w

theorem encodeS_of_codes (h3 : fieldFunct3 w = f3) (hop : fieldOp w = op) :
    encodeS (fieldImmS w) (fieldRs2 w) (fieldRs1 w) f3 op = w := by
  subst h3 hop
  exact encodeS_fields w

theorem encodeB_of_codes (h3 : fieldFunct3 w = f3) (hop : fieldOp w = op) :
    encodeB (fieldImmB w) (fieldRs2 w) (fieldRs1 w) f3 op = w := by
  subst h3 hop
  exact encodeB_fields w

theorem encodeU_of_codes (hop : fieldOp w = op) : encodeU (fieldUpimm w) (fieldRd w) op = w := by
  subst hop
  exact encodeU_fields w

theorem encodeJ_of_codes (hop : fieldOp w = op) : encodeJ (fieldImmJ w) (fieldRd w) op = w := by
  subst hop
  exact encodeJ_fields w

end FieldsOfAWord

/-- A selected word is the encoding of the instruction read from it, format by format; the shift amount stands where
`rs2` stands in format R (R74). -/
theorem encode_ofWord (w : Word) : ∀ row ∈ opcodeTable, row.Selects w → encode (row.mnemonic.ofWord w) = w := by
  simp only [opcodeTable, List.forall_mem_append]
  refine ⟨⟨⟨⟨⟨?load, ?aluImm⟩, ?store⟩, ?aluReg⟩, ?branch⟩, ?jumpUpper⟩
  case load =>
    rintro row hrow ⟨hop, h3, -⟩
    fin_cases hrow <;> exact encodeI_of_codes (h3 _ rfl) hop
  case aluImm =>
    rintro row hrow ⟨hop, h3, h7⟩
    fin_cases hrow
    -- in the order of the rows; the shifts `slli`, `srli` and `srai` have their funct7 above the amount
    · exact encodeI_of_codes (h3 _ rfl) hop
    · exact encodeR_of_codes (h7 _ rfl) (h3 _ rfl) hop
    · exact encodeI_of_codes (h3 _ rfl) hop
    · exact encodeI_of_codes (h3 _ rfl) hop
    · exact encodeI_of_codes (h3 _ rfl) hop
    · exact encodeR_of_codes (h7 _ rfl) (h3 _ rfl) hop
    · exact encodeR_of_codes (h7 _ rfl) (h3 _ rfl) hop
    · exact encodeI_of_codes (h3 _ rfl) hop
    · exact encodeI_of_codes (h3 _ rfl) hop
  case store =>
    rintro row hrow ⟨hop, h3, -⟩
    fin_cases hrow <;> exact encodeS_of_codes (h3 _ rfl) hop
  case aluReg =>
    rintro row hrow ⟨hop, h3, h7⟩
    fin_cases hrow <;> exact encodeR_of_codes (h7 _ rfl) (h3 _ rfl) hop
  case branch =>
    rintro row hrow ⟨hop, h3, -⟩
    fin_cases hrow <;> exact encodeB_of_codes (h3 _ rfl) hop
  case jumpUpper =>
    rintro row hrow ⟨hop, h3, -⟩
    fin_cases hrow
    · exact encodeU_of_codes hop
    · exact encodeU_of_codes hop
    · exact encodeI_of_codes (h3 _ rfl) hop
    · exact encodeJ_of_codes hop

theorem encode_of_decode {w : Word} {i : Instr} (h : decode w = .ok i) : encode i = w := by
  obtain ⟨row, hrow, hw, rfl⟩ := (decode_eq_ok_iff w i).mp h
  exact encode_ofWord w row hrow hw

theorem decode_eq_ok_iff_eq_encode {w : Word} {i : Instr} (hi : i.wellFormed = true) :
    decode w = .ok i ↔ w = encode i :=
  ⟨fun h => (encode_of_decode h).symm, fun h => h ▸ decode_encode i hi⟩

/-- Settles O4: each layout is the encoding of its instruction, which is well-formed without a condition. -/
theorem layoutsWithWholeFields : Obligations.LayoutsWithWholeFields := by
  refine ⟨?R, ?I, ?Ishift, ?U⟩
  all_goals
    intro e he
    fin_cases he
    all_goals
      intros
      exact decode_eq_ok_iff_eq_encode rfl

/-! ### Register numbers and immediates bit by bit (R71 to R78) -/

theorem getLsbD_fieldRd (w : Word) {k : Nat} (hk : k < 5) : (fieldRd w).getLsbD k = w.getLsbD (7 + k) := by
  simp [fieldRd, hk]

theorem getLsbD_fieldRs1 (w : Word) {k : Nat} (hk : k < 5) : (fieldRs1 w).getLsbD k = w.getLsbD (15 + k) := by
  simp [fieldRs1, hk]

theorem getLsbD_fieldRs2 (w : Word) {k : Nat} (hk : k < 5) : (fieldRs2 w).getLsbD k = w.getLsbD (20 + k) := by
  simp [fieldRs2, hk]

theorem getLsbD_fieldUimm (w : Word) {k : Nat} (hk : k < 5) : (fieldUimm w).getLsbD k = w.getLsbD (20 + k) := by
  simp [fieldUimm, hk]

theorem getLsbD_fieldImmI (w : Word) {k : Nat} (hk : k < 12) : (fieldImmI w).getLsbD k = w.getLsbD (20 + k) := by
  simp [fieldImmI, hk]

theorem getLsbD_fieldUpimm (w : Word) {k : Nat} (hk : k < 20) : (fieldUpimm w).getLsbD k = w.getLsbD (12 + k) := by
  simp [fieldUpimm, hk]

/-- R75, with the bit of the word as an unknown, so that a use needs only arithmetic. -/
theorem getLsbD_fieldImmS (w : Word) {k j : Nat} (hk : k < 12) (hj : j = if k < 5 then 7 + k else 20 + k) :
    (fieldImmS w).getLsbD k = w.getLsbD j := by
  subst hj
  simp only [fieldImmS, BitVec.getLsbD_append, BitVec.getLsbD_extractLsb']
  interval_cases k <;> simp

theorem getLsbD_fieldImmB_zero (w : Word) : (fieldImmB w).getLsbD 0 = false := by
  simpa [evenOffset] using evenOffset_fieldImmB w

/-- R76, with the bit of the word as an unknown. -/
theorem getLsbD_fieldImmB (w : Word) {k j : Nat} (h0 : 0 < k) (hk : k < 13)
    (hj : j = if k < 5 then 7 + k else if k < 11 then 20 + k else if k = 11 then 7 else 31) :
    (fieldImmB w).getLsbD k = w.getLsbD j := by
  subst hj
  simp only [fieldImmB, BitVec.getLsbD_append, BitVec.getLsbD_extractLsb']
  interval_cases k <;> simp

theorem getLsbD_fieldImmJ_zero (w : Word) : (fieldImmJ w).getLsbD 0 = false := by
  simpa [evenOffset] using evenOffset_fieldImmJ w

/-- R78, with the bit of the word as an unknown. -/
theorem getLsbD_fieldImmJ (w : Word) {k j : Nat} (h0 : 0 < k) (hk : k < 21)
    (hj : j = if k < 11 then 20 + k else if k = 11 then 20 else if k < 20 then k else 31) :
    (fieldImmJ w).getLsbD k = w.getLsbD j := by
  subst hj
  simp only [fieldImmJ, BitVec.getLsbD_append, BitVec.getLsbD_extractLsb']
  interval_cases k <;> simp

/-- Settles O5: the operands are the fields of the word, whose bits are known. -/
theorem layoutsWithSplitImmediates : Obligations.LayoutsWithSplitImmediates := by
  refine ⟨?S, ?B, ?J⟩
  case S =>
    intro e he w hop hf3
    have hdecode : decode w = .ok (e.1 (fieldRs1 w) (fieldRs2 w) (fieldImmS w)) := by
      fin_cases he <;> simp_all [decode, decodeStore]
    exact ⟨_, _, _, hdecode, fun k => getLsbD_fieldRs1 w, fun k => getLsbD_fieldRs2 w,
      fun k hk => getLsbD_fieldImmS w (by omega) (if_pos hk).symm,
      fun k hk => getLsbD_fieldImmS w (by omega) (by rw [if_neg (by omega)]; omega)⟩
  case B =>
    intro e he w hop hf3
    have hdecode : decode w = .ok (e.1 (fieldRs1 w) (fieldRs2 w) (fieldImmB w)) := by
      fin_cases he <;> simp_all [decode, decodeBranch]
    exact ⟨_, _, _, hdecode, fun k => getLsbD_fieldRs1 w, fun k => getLsbD_fieldRs2 w, getLsbD_fieldImmB_zero w,
      fun k hk => getLsbD_fieldImmB w (by omega) (by omega) (by split_ifs <;> omega),
      fun k hk => getLsbD_fieldImmB w (by omega) (by omega) (by split_ifs <;> omega),
      getLsbD_fieldImmB w (by omega) (by omega) rfl, getLsbD_fieldImmB w (by omega) (by omega) rfl⟩
  case J =>
    intro w hop
    have hdecode : decode w = .ok (.jal (fieldRd w) (fieldImmJ w)) := by simp [decode, hop]
    exact ⟨_, _, hdecode, fun k => getLsbD_fieldRd w, getLsbD_fieldImmJ_zero w,
      fun k hk => getLsbD_fieldImmJ w (by omega) (by omega) (by split_ifs <;> omega),
      getLsbD_fieldImmJ w (by omega) (by omega) rfl,
      fun k hk => getLsbD_fieldImmJ w (by omega) (by omega) (by split_ifs <;> omega),
      getLsbD_fieldImmJ w (by omega) (by omega) rfl⟩

/-! ### Immediates as words (R81 to R86) -/

/-- `sext_n`: bit `k` of the word is bit `k` of the field, and the field's highest bit from there on (`00_scope.md` R10). -/
theorem getLsbD_signExtend_word {n k : Nat} (x : BitVec n) (hk : k < 32) :
    (x.signExtend 32).getLsbD k = x.getLsbD (min k (n - 1)) := by
  rw [BitVec.getLsbD_signExtend, BitVec.msb_eq_getLsbD_last]
  split
  · rw [Nat.min_eq_left (by omega)]; simp [hk]
  · rw [Nat.min_eq_right (by omega)]; simp [hk]

theorem getLsbD_immI (w : Word) {k : Nat} (hk : k < 32) :
    (immI (fieldImmI w)).getLsbD k = w.getLsbD (if k < 11 then 20 + k else 31) := by
  rw [immI, getLsbD_signExtend_word _ hk, getLsbD_fieldImmI w (by omega)]
  congr 1
  split_ifs <;> omega

theorem getLsbD_immS (w : Word) {k : Nat} (hk : k < 32) :
    (immS (fieldImmS w)).getLsbD k = w.getLsbD (if k < 5 then 7 + k else if k < 11 then 20 + k else 31) := by
  rw [immS, getLsbD_signExtend_word _ hk]
  exact getLsbD_fieldImmS w (by omega) (by split_ifs <;> omega)

theorem getLsbD_immB (w : Word) {k : Nat} (hk : k < 32) : (immB (fieldImmB w)).getLsbD k = (decide (k ≠ 0) &&
    w.getLsbD (if k < 5 then 7 + k else if k < 11 then 20 + k else if k = 11 then 7 else 31)) := by
  rw [immB, getLsbD_signExtend_word _ hk]
  rcases Nat.eq_zero_or_pos k with rfl | h0
  · exact getLsbD_fieldImmB_zero w
  · rw [decide_eq_true (by omega), Bool.true_and]
    exact getLsbD_fieldImmB w (by omega) (by omega) (by split_ifs <;> omega)

theorem getLsbD_immU (w : Word) {k : Nat} (hk : k < 32) :
    (immU (fieldUpimm w)).getLsbD k = (decide (12 ≤ k) && w.getLsbD k) := by
  rw [immU, BitVec.getLsbD_append]
  split
  · simp; omega
  · rw [getLsbD_fieldUpimm w (by omega)]
    have : 12 ≤ k := by omega
    simp [*]

theorem getLsbD_immJ (w : Word) {k : Nat} (hk : k < 32) : (immJ (fieldImmJ w)).getLsbD k = (decide (k ≠ 0) &&
    w.getLsbD (if k < 11 then 20 + k else if k = 11 then 20 else if k < 20 then k else 31)) := by
  rw [immJ, getLsbD_signExtend_word _ hk]
  rcases Nat.eq_zero_or_pos k with rfl | h0
  · exact getLsbD_fieldImmJ_zero w
  · rw [decide_eq_true (by omega), Bool.true_and]
    exact getLsbD_fieldImmJ w (by omega) (by omega) (by split_ifs <;> omega)

theorem toInt_signExtend_word_bounds {n : Nat} (x : BitVec n) (hn : n ≤ 32) :
    -2 ^ (n - 1) ≤ (x.signExtend 32).toInt ∧ (x.signExtend 32).toInt ≤ 2 ^ (n - 1) - 1 := by
  rw [BitVec.toInt_signExtend_of_le hn]
  exact ⟨x.le_toInt, x.toInt_le⟩

theorem evenOffset_intMax {n : Nat} (hn : 1 < n) : evenOffset (BitVec.intMax n) = false := by
  simp [evenOffset, BitVec.getLsbD_intMax, hn]

/-- The largest number of a width is odd, so an even offset stays below it. -/
theorem toInt_signExtend_word_bounds_of_even {n : Nat} (x : BitVec n) (h1 : 1 < n) (hn : n ≤ 32)
    (hx : evenOffset x = true) :
    -2 ^ (n - 1) ≤ (x.signExtend 32).toInt ∧ (x.signExtend 32).toInt ≤ 2 ^ (n - 1) - 2 := by
  obtain ⟨hmin, hmax⟩ := toInt_signExtend_word_bounds x hn
  have hne : (x.signExtend 32).toInt ≠ 2 ^ (n - 1) - 1 := by
    rw [BitVec.toInt_signExtend_of_le hn, ← BitVec.toInt_intMax]
    intro h
    rw [BitVec.eq_of_toInt_eq h, evenOffset_intMax h1] at hx
    contradiction
  exact ⟨hmin, by omega⟩

theorem exists_ofWord_of_decode {w : Word} {i : Instr} (h : decode w = .ok i) : ∃ m : Mnemonic, m.ofWord w = i := by
  obtain ⟨row, -, -, hi⟩ := (decode_eq_ok_iff w i).mp h
  exact ⟨row.mnemonic, hi⟩

/-- Settles O6: the bits of the extended fields, the ranges of their widths, and the decoder's reading of the fields. -/
theorem immediatesProduced : Obligations.ImmediatesProduced := by
  intro w
  refine ⟨fun k => getLsbD_immI w, fun k => getLsbD_immS w, fun k => getLsbD_immB w, fun k => getLsbD_immU w,
    fun k => getLsbD_immJ w, fun k => getLsbD_fieldUimm w, toInt_signExtend_word_bounds _ (by omega),
    toInt_signExtend_word_bounds _ (by omega), ?_, ?_, ?_⟩
  · exact toInt_signExtend_word_bounds_of_even _ (by omega) (by omega) (evenOffset_fieldImmB w)
  · exact toInt_signExtend_word_bounds_of_even _ (by omega) (by omega) (evenOffset_fieldImmJ w)
  · intro i hi
    obtain ⟨m, rfl⟩ := exists_ofWord_of_decode hi
    cases m <;> trivial

end Sys2Proof
end

section
/-! The register-register instructions whose values the spec states outright, `add sub sll xor srl or and`, and the
settled statement O15 (`40_r_type_alu.md` R110 to R120). -/

namespace Sys2Proof
open Sys2Proof.Machine

/-- A word that matches a row of the opcode map under the row's mask decodes by that row (R89, R90). -/
theorem decode_of_mask_match {row : OpcodeRow} (hrow : row ∈ opcodeTable) {w : Word}
    (hw : w &&& row.mask = row.pattern) : decode w = .ok (row.mnemonic.ofWord w) :=
  decode_of_selects hrow ((mask_match_iff_selects (opcodeTable_maskAndPattern row hrow) w).mp hw)

/-! ### Values as numbers (`00_scope.md` R11, R13) -/

theorem sub_eq_ofInt (a b : Word) : a - b = BitVec.ofInt 32 ((a.toNat : Int) - (b.toNat : Int)) := by
  simp only [Int.sub_eq_add_neg, BitVec.ofInt_add, BitVec.ofInt_neg, BitVec.ofInt_natCast, BitVec.ofNat_toNat,
    BitVec.setWidth_eq, BitVec.sub_eq_add_neg]

/-- "Only the low 5 bits of `x[rs2]` count" (R113, R117). -/
theorem toNat_shiftAmount (b : Word) : (shiftAmount b).toNat = b.toNat % 32 :=
  BitVec.extractLsb'_toNat 0 5 b

theorem shiftLeft_eq_ofNat (a : Word) (n : BitVec 5) : shiftLeft a n = BitVec.ofNat 32 (a.toNat * 2 ^ n.toNat) := by
  apply BitVec.eq_of_toNat_eq
  rw [shiftLeft, BitVec.toNat_shiftLeft, Nat.shiftLeft_eq, BitVec.toNat_ofNat]

theorem shiftRightLogical_eq_ofNat (a : Word) (n : BitVec 5) :
    shiftRightLogical a n = BitVec.ofNat 32 (a.toNat / 2 ^ n.toNat) := by
  rw [shiftRightLogical, ← Nat.shiftRight_eq_div_pow, ← BitVec.toNat_ushiftRight, BitVec.ofNat_toNat,
    BitVec.setWidth_eq]

theorem shiftLeft_shiftAmount_eq_ofNat (a b : Word) :
    shiftLeft a (shiftAmount b) = BitVec.ofNat 32 (a.toNat * 2 ^ (b.toNat % 32)) := by
  rw [shiftLeft_eq_ofNat, toNat_shiftAmount]

theorem shiftRightLogical_shiftAmount_eq_ofNat (a b : Word) :
    shiftRightLogical a (shiftAmount b) = BitVec.ofNat 32 (a.toNat / 2 ^ (b.toNat % 32)) := by
  rw [shiftRightLogical_eq_ofNat, toNat_shiftAmount]

/-! ### The common rule of the register-register instructions (R110) -/

theorem aluReg_of_hasReg (f : Word → Word → Word) (rd : RegIdx) {rs1 rs2 : RegIdx} {s : State}
    (h1 : s.hasReg rs1 = true) (h2 : s.hasReg rs2 = true) :
    aluReg f rd rs1 rs2 s = .next (s.setReg rd (f (s.reg rs1) (s.reg rs2))).advance :=
  (aluReg_next_iff ..).mpr ⟨h1, h2, rfl⟩

/-- An instruction that has a row of the opcode map and the common rule with the function `f`: the words of the row
decode to it, and from every state whose sources hold a value it completes with `value`, the function `f`
in the spec's terms. -/
theorem results_of_aluReg_row {row : OpcodeRow} {mk : RegIdx → RegIdx → RegIdx → Instr}
    {f value : Word → Word → Word} (hrow : row ∈ opcodeTable)
    (hofWord : ∀ w, row.mnemonic.ofWord w = mk (fieldRd w) (fieldRs1 w) (fieldRs2 w))
    (hexec : ∀ rd rs1 rs2 s, exec (mk rd rs1 rs2) s = aluReg f rd rs1 rs2 s) (hvalue : ∀ a b, f a b = value a b) :
    (∀ w, w &&& row.mask = row.pattern → decode w = .ok (mk (fieldRd w) (fieldRs1 w) (fieldRs2 w))) ∧
    ∀ rd rs1 rs2 s, s.hasReg rs1 = true → s.hasReg rs2 = true →
      ∃ t, exec (mk rd rs1 rs2) s = .next t ∧ OnlyRegWritten s t rd (value (s.reg rs1) (s.reg rs2)) ∧
        t.pc = s.pc + 4#32 := by
  refine ⟨fun w hw => ?_, fun rd rs1 rs2 s h1 h2 => ?_⟩
  · rw [← hofWord]
    exact decode_of_mask_match hrow hw
  · rw [hexec, aluReg_of_hasReg f rd h1 h2, ← hvalue]
    exact ⟨_, rfl, setReg_advance_only s rd _, rfl⟩

/-- Settles O15: each of the seven is its row of the opcode map and the common rule with its own function, which is the
value of the rule: by definition for `add` and the bitwise operators, as numbers for `sub` and the shifts. -/
theorem registerRegisterResults : Obligations.RegisterRegisterResults := by
  simp only [Obligations.RegisterRegisterResults, List.forall_mem_cons]
  refine ⟨?add, ?sub, ?sll, ?xor, ?srl, ?or, ?and, List.forall_mem_nil _⟩
  case add =>
    exact results_of_aluReg_row (row := rowsAluReg[0]) (by decide) (fun _ => rfl) (fun _ _ _ _ => rfl)
      BitVec.add_def
  case sub =>
    exact results_of_aluReg_row (row := rowsAluReg[1]) (by decide) (fun _ => rfl) (fun _ _ _ _ => rfl)
      sub_eq_ofInt
  case sll =>
    exact results_of_aluReg_row (row := rowsAluReg[2]) (by decide) (fun _ => rfl) (fun _ _ _ _ => rfl)
      shiftLeft_shiftAmount_eq_ofNat
  case xor =>
    exact results_of_aluReg_row (row := rowsAluReg[5]) (by decide) (fun _ => rfl) (fun _ _ _ _ => rfl)
      fun _ _ => rfl
  case srl =>
    exact results_of_aluReg_row (row := rowsAluReg[6]) (by decide) (fun _ => rfl) (fun _ _ _ _ => rfl)
      shiftRightLogical_shiftAmount_eq_ofNat
  case or =>
    exact results_of_aluReg_row (row := rowsAluReg[8]) (by decide) (fun _ => rfl) (fun _ _ _ _ => rfl)
      fun _ _ => rfl
  case and =>
    exact results_of_aluReg_row (row := rowsAluReg[9]) (by decide) (fun _ => rfl) (fun _ _ _ _ => rfl)
      fun _ _ => rfl

end Sys2Proof
end

section
/-! The register-immediate instructions whose values the spec states outright, `addi xori ori andi slli srli`, and the
settled statement O17 (`41_i_type_alu.md` R130 to R138). -/

namespace Sys2Proof
open Sys2Proof.Machine

/-! ### The immediate and the sum as numbers (`00_scope.md` R10, R13) -/

theorem immI_eq_ofInt (imm : BitVec 12) : immI imm = BitVec.ofInt 32 imm.toInt := rfl

theorem add_immI_eq_ofInt (a : Word) (imm : BitVec 12) :
    a + immI imm = BitVec.ofInt 32 ((a.toNat : Int) + imm.toInt) := by
  rw [immI_eq_ofInt, BitVec.ofInt_add, BitVec.ofInt_natCast, BitVec.ofNat_toNat, BitVec.setWidth_eq]

/-! ### The common rule of the register-immediate instructions (R130) -/

theorem aluImm_of_hasReg (f : Word → Word) (rd : RegIdx) {rs1 : RegIdx} {s : State} (h : s.hasReg rs1 = true) :
    aluImm f rd rs1 s = .next (s.setReg rd (f (s.reg rs1))).advance :=
  (aluImm_next_iff ..).mpr ⟨h, rfl⟩

/-- An instruction that has a row of the opcode map and the common rule with the function `f` of the register and of the
immediate that `field` cuts out of the word, 12 bits or a shift amount: the words of the row decode to it, and from
every state whose source holds a value it completes with `value`, the function `f` in the spec's terms. -/
theorem results_of_aluImm_row {n : Nat} {field : Word → BitVec n} {row : OpcodeRow}
    {mk : RegIdx → RegIdx → BitVec n → Instr} {f value : Word → BitVec n → Word} (hrow : row ∈ opcodeTable)
    (hofWord : ∀ w, row.mnemonic.ofWord w = mk (fieldRd w) (fieldRs1 w) (field w))
    (hexec : ∀ rd rs1 imm s, exec (mk rd rs1 imm) s = aluImm (f · imm) rd rs1 s)
    (hvalue : ∀ a imm, f a imm = value a imm) :
    (∀ w, w &&& row.mask = row.pattern → decode w = .ok (mk (fieldRd w) (fieldRs1 w) (field w))) ∧
    ∀ rd rs1 imm s, s.hasReg rs1 = true →
      ∃ t, exec (mk rd rs1 imm) s = .next t ∧ OnlyRegWritten s t rd (value (s.reg rs1) imm) ∧
        t.pc = s.pc + 4#32 := by
  refine ⟨fun w hw => ?_, fun rd rs1 imm s h => ?_⟩
  · rw [← hofWord]
    exact decode_of_mask_match hrow hw
  · rw [hexec, aluImm_of_hasReg _ rd h, ← hvalue]
    exact ⟨_, rfl, setReg_advance_only s rd _, rfl⟩

/-- Settles O17: each of the six is its row of the opcode map and the common rule with its own function, which is the
value of the rule: as numbers for `addi` and the shifts, and by the immediate as a word for the bitwise operators. -/
theorem registerImmediateResults : Obligations.RegisterImmediateResults := by
  simp only [Obligations.RegisterImmediateResults, List.forall_mem_cons]
  refine ⟨⟨?addi, ?xori, ?ori, ?andi, List.forall_mem_nil _⟩, ?slli, ?srli, List.forall_mem_nil _⟩
  case addi =>
    exact results_of_aluImm_row (row := rowsAluImm[0]) (by decide) (fun _ => rfl) (fun _ _ _ _ => rfl)
      add_immI_eq_ofInt
  case xori =>
    exact results_of_aluImm_row (row := rowsAluImm[4]) (by decide) (fun _ => rfl) (fun _ _ _ _ => rfl)
      fun a imm => congrArg (a ^^^ ·) (immI_eq_ofInt imm)
  case ori =>
    exact results_of_aluImm_row (row := rowsAluImm[7]) (by decide) (fun _ => rfl) (fun _ _ _ _ => rfl)
      fun a imm => congrArg (a ||| ·) (immI_eq_ofInt imm)
  case andi =>
    exact results_of_aluImm_row (row := rowsAluImm[8]) (by decide) (fun _ => rfl) (fun _ _ _ _ => rfl)
      fun a imm => congrArg (a &&& ·) (immI_eq_ofInt imm)
  case slli =>
    exact results_of_aluImm_row (row := rowsAluImm[1]) (by decide) (fun _ => rfl) (fun _ _ _ _ => rfl)
      shiftLeft_eq_ofNat
  case srli =>
    exact results_of_aluImm_row (row := rowsAluImm[5]) (by decide) (fun _ => rfl) (fun _ _ _ _ => rfl)
      shiftRightLogical_eq_ofNat

end Sys2Proof
end

section
/-! The two upper-immediate instructions `lui` and `auipc`, and the settled statement O19 (`46_upper_immediate.md` R190,
R191). -/

namespace Sys2Proof
open Sys2Proof.Machine

/-! ### The upper immediate and its sum as numbers (`00_scope.md` R9, R11, `30_encoding.md` R84) -/

/-- The 12 zero bits below the field multiply it by 4096, and 20 bits times 4096 stay below `2^32`. -/
theorem immU_eq_ofNat (upimm : BitVec 20) : immU upimm = BitVec.ofNat 32 (upimm.toNat * 4096) := by
  have hlt : upimm.toNat * 4096 < 2 ^ 32 := by omega
  apply BitVec.eq_of_toNat_eq
  rw [immU, BitVec.toNat_append, BitVec.toNat_ofNat, BitVec.toNat_ofNat, Nat.zero_mod, Nat.or_zero, Nat.shiftLeft_eq,
    Nat.mod_eq_of_lt hlt]

theorem add_immU_eq_ofNat (a : Word) (upimm : BitVec 20) :
    a + immU upimm = BitVec.ofNat 32 (a.toNat + upimm.toNat * 4096) := by
  rw [immU_eq_ofNat, BitVec.ofNat_add, BitVec.ofNat_toNat, BitVec.setWidth_eq]

/-! ### The two instructions and their common end -/

theorem exec_lui (rd : RegIdx) (upimm : BitVec 20) (s : State) :
    exec (.lui rd upimm) s = writeAndAdvance rd (immU upimm) s := rfl

theorem exec_auipc (rd : RegIdx) (upimm : BitVec 20) (s : State) :
    exec (.auipc rd upimm) s = writeAndAdvance rd (s.pc + immU upimm) s := rfl

/-- The common end of the two asks nothing of the state. -/
theorem writeAndAdvance_completes (rd : RegIdx) (v : Word) (s : State) :
    ∃ t, writeAndAdvance rd v s = .next t ∧ OnlyRegWritten s t rd v ∧ t.pc = s.pc + 4#32 :=
  ⟨_, rfl, setReg_advance_only s rd v, rfl⟩

/-- Settles O19: each of the two is its row of the opcode map, and the common end with its value, which is the number of
the rule. -/
theorem upperImmediateResults : Obligations.UpperImmediateResults := by
  refine ⟨fun w => ?luiWord, fun w => ?auipcWord, fun rd upimm s => ⟨?lui, ?auipc⟩⟩
  case luiWord => exact decode_of_mask_match (row := rowsJumpUpper[1]) (by decide)
  case auipcWord => exact decode_of_mask_match (row := rowsJumpUpper[0]) (by decide)
  case lui =>
    rw [exec_lui, ← immU_eq_ofNat]
    exact writeAndAdvance_completes rd _ s
  case auipc =>
    rw [exec_auipc, ← add_immU_eq_ofNat]
    exact writeAndAdvance_completes rd _ s

end Sys2Proof
end

section
/-! The two halves of R101 for whole instructions, the classes of illegal words, the printed words, and the settled
statements O1, O2, O7, O8 (`30_encoding.md` R90, R91, R101, `95_test_vectors.md` section 1.1). -/

namespace Sys2Proof
open Sys2Proof.Machine

/-! ### Encoder and decoder are inverse (R101) -/

/-- Settles O1: the earlier half of R101. -/
theorem decodingUndoesEncoding : Obligations.DecodingUndoesEncoding := decode_encode

/-- The decoder only makes even offsets, because it sets their bit 0 to zero (R83, R85). -/
theorem wellFormed_ofWord (m : Mnemonic) (w : Word) : (m.ofWord w).wellFormed = true := by
  cases m with
  | beq | bne | blt | bge | bltu | bgeu => exact evenOffset_fieldImmB w
  | jal => exact evenOffset_fieldImmJ w
  | _ => rfl

/-- Settles O2: a decoded instruction is read from the word by a row of the map, so it is well-formed and encodes to the
word. -/
theorem encodingUndoesDecoding : Obligations.EncodingUndoesDecoding := by
  intro w i h
  obtain ⟨m, rfl⟩ := exists_ofWord_of_decode h
  exact ⟨wellFormed_ofWord m w, encode_of_decode h⟩

/-! ### The illegal words by their classes (R91) -/

/-- The words of a class of R91; no word is too short. -/
def DecodeError.Covers (w : Word) : DecodeError → Prop
  | .opcode => fieldOp w ∉ [0b0000011#7, 0b0010011#7, 0b0010111#7, 0b0100011#7, 0b0110011#7, 0b0110111#7, 0b1100011#7,
      0b1100111#7, 0b1101111#7]
  | .loadFunct3 => fieldOp w = 0b0000011#7 ∧ fieldFunct3 w ∈ [0b011#3, 0b110#3, 0b111#3]
  | .shiftFunct7 => fieldOp w = 0b0010011#7 ∧
      ((fieldFunct3 w = 0b001#3 ∧ fieldFunct7 w ≠ 0b0000000#7) ∨
        (fieldFunct3 w = 0b101#3 ∧ fieldFunct7 w ≠ 0b0000000#7 ∧ fieldFunct7 w ≠ 0b0100000#7))
  | .storeFunct3 => fieldOp w = 0b0100011#7 ∧ fieldFunct3 w ∈ [0b011#3, 0b100#3, 0b101#3, 0b110#3, 0b111#3]
  | .regFunct7 => fieldOp w = 0b0110011#7 ∧
      ((fieldFunct7 w ≠ 0b0000000#7 ∧ fieldFunct7 w ≠ 0b0100000#7) ∨
        (fieldFunct7 w = 0b0100000#7 ∧ fieldFunct3 w ∉ [0b000#3, 0b101#3]))
  | .branchFunct3 => fieldOp w = 0b1100011#7 ∧ fieldFunct3 w ∈ [0b010#3, 0b011#3]
  | .jalrFunct3 => fieldOp w = 0b1100111#7 ∧ fieldFunct3 w ≠ 0b000#3
  | .tooFewBytes => False

section OneOpcode
variable {w : Word}

theorem decodeLoad_eq_error_iff (h : fieldOp w = 0b0000011#7) (e : DecodeError) :
    decodeLoad w = .error e ↔ e.Covers w := by
  have := funct3_cases (fieldFunct3 w)
  unfold decodeLoad
  split <;> cases e <;> simp_all [DecodeError.Covers]

theorem decodeAluImm_eq_error_iff (h : fieldOp w = 0b0010011#7) (e : DecodeError) :
    decodeAluImm w = .error e ↔ e.Covers w := by
  have := funct3_cases (fieldFunct3 w)
  unfold decodeAluImm
  split
  case h_7 => split_ifs <;> cases e <;> simp_all [DecodeError.Covers]
  case h_8 => split_ifs <;> cases e <;> simp_all [DecodeError.Covers]
  all_goals cases e <;> simp_all [DecodeError.Covers]

theorem decodeStore_eq_error_iff (h : fieldOp w = 0b0100011#7) (e : DecodeError) :
    decodeStore w = .error e ↔ e.Covers w := by
  have := funct3_cases (fieldFunct3 w)
  unfold decodeStore
  split <;> cases e <;> simp_all [DecodeError.Covers]

theorem decodeAluReg_eq_error_iff (h : fieldOp w = 0b0110011#7) (e : DecodeError) :
    decodeAluReg w = .error e ↔ e.Covers w := by
  unfold decodeAluReg
  split_ifs
  · cases e <;> simp_all [DecodeError.Covers]
  · split <;> cases e <;> simp_all [DecodeError.Covers]
  · cases e <;> simp_all [DecodeError.Covers]

theorem decodeBranch_eq_error_iff (h : fieldOp w = 0b1100011#7) (e : DecodeError) :
    decodeBranch w = .error e ↔ e.Covers w := by
  have := funct3_cases (fieldFunct3 w)
  unfold decodeBranch
  split <;> cases e <;> simp_all [DecodeError.Covers]

theorem decodeJalr_eq_error_iff (h : fieldOp w = 0b1100111#7) (e : DecodeError) :
    decodeJalr w = .error e ↔ e.Covers w := by
  unfold decodeJalr
  split_ifs <;> cases e <;> simp_all [DecodeError.Covers]

/-- A word whose `op` alone selects its instruction lies in no class. -/
theorem not_covers_of_opOnly (h : fieldOp w ∈ [0b0010111#7, 0b0110111#7, 0b1101111#7]) (e : DecodeError) :
    ¬ e.Covers w := by
  simp only [List.mem_cons, List.not_mem_nil, or_false] at h
  rcases h with h | h | h <;> cases e <;> simp [DecodeError.Covers, h]

end OneOpcode

/-- The decoder rejects a word under the name of a class exactly when the word lies in it (R91). -/
theorem decode_eq_error_iff (w : Word) (e : DecodeError) : decode w = .error e ↔ e.Covers w := by
  have accepted {i : Instr} (h : fieldOp w ∈ [0b0010111#7, 0b0110111#7, 0b1101111#7]) :
      (.ok i : Except DecodeError Instr) = .error e ↔ e.Covers w := by
    simpa using not_covers_of_opOnly h e
  unfold decode
  split
  next h => exact decodeLoad_eq_error_iff h e
  next h => exact decodeAluImm_eq_error_iff h e
  next h => exact accepted (by simp [h])
  next h => exact decodeStore_eq_error_iff h e
  next h => exact decodeAluReg_eq_error_iff h e
  next h => exact accepted (by simp [h])
  next h => exact decodeBranch_eq_error_iff h e
  next h => exact decodeJalr_eq_error_iff h e
  next h => exact accepted (by simp [h])
  next => cases e <;> simp_all [DecodeError.Covers]

/-- Settles O7: the statement lists the classes one by one. -/
theorem illegalWordsByClass : Obligations.IllegalWordsByClass := by
  intro w
  refine ⟨decode_eq_error_iff w .opcode, decode_eq_error_iff w .loadFunct3, decode_eq_error_iff w .shiftFunct7,
    decode_eq_error_iff w .storeFunct3, decode_eq_error_iff w .regFunct7, decode_eq_error_iff w .branchFunct3,
    decode_eq_error_iff w .jalrFunct3, fun h => ?_⟩
  exact (decode_eq_error_iff w .tooFewBytes).mp h

/-- Settles O8: each printed word is the encoding of its instruction. -/
theorem workedWordsDecode : Obligations.WorkedWordsDecode :=
  ⟨decode_encode (.add 18#5 19#5 20#5) rfl, decode_encode (.sub 5#5 6#5 7#5) rfl,
    decode_encode (.addi 8#5 9#5 12#12) rfl, decode_encode (.addi 18#5 6#5 (-14#12)) rfl,
    decode_encode (.lw 7#5 19#5 (-6#12)) rfl, decode_encode (.lb 20#5 20#5 0x1F#12) rfl,
    decode_encode (.slli 18#5 23#5 5#5) rfl, decode_encode (.srai 6#5 7#5 29#5) rfl,
    decode_encode (.sw 19#5 7#5 (-6#12)) rfl, decode_encode (.sh 5#5 20#5 23#12) rfl,
    decode_encode (.sb 0#5 30#5 0x2D#12) rfl, decode_encode (.beq 8#5 30#5 16#13) rfl,
    decode_encode (.jal 1#5 0xA67F8#21) rfl, decode_encode (.lui 21#5 0x8CDEF#20) rfl⟩

end Sys2Proof
end

section
/-! The fetch side of a step as single rules, one for each outcome, and the settled statements O10 to O13
(`20_memory.md` R44, R48, `60_exceptions.md` R232, R233). -/

namespace Sys2Proof
open Sys2Proof.Machine

/-! ### A step by what its fetch finds (R18, R232) -/

theorem step_of_recorded {s : State} {r : FaultRecord} (h : s.fault = some r) : step s = raise r := by
  simp [step, h]

section NoFault
variable {s : State} (hf : s.fault = none)
include hf

theorem step_of_noFault : step s = fetchInstr s fun i => exec i s := by
  simp [step, hf]

theorem step_of_pc_misaligned (ha : aligned s.pc .word = false) :
    step s = .fault (.instructionAddressMisaligned s.pc s.pc) := by
  simp [step_of_noFault hf, fetchInstr, fetch, ha, raise]

theorem step_of_fetch_not_admitted (ha : aligned s.pc .word = true)
    (hm : memAdmits s.memMap s.pc .word .fetch = false) : step s = .fault (.instructionAccessFault s.pc s.pc) := by
  simp [step_of_noFault hf, fetchInstr, fetch, ha, hm, raise]

theorem step_of_fetch_stored (ha : aligned s.pc .word = true) (hm : memAdmits s.memMap s.pc .word .fetch = true)
    (hs : AddrSet.meets s.stored s.pc.toNat 4 = true) : step s = .refused (.fetchAfterStore s.pc s.pc) := by
  simp [step_of_noFault hf, fetchInstr, fetch, ha, hm, hs, raise]

theorem step_of_fetch_no_value (ha : aligned s.pc .word = true) (hm : memAdmits s.memMap s.pc .word .fetch = true)
    (hs : AddrSet.meets s.stored s.pc.toNat 4 = false) (hv : Memory.readWord s.mem s.pc.toNat = none) :
    step s = .refused (.uninitialisedRead s.pc (.mem s.pc)) := by
  simp [step_of_noFault hf, fetchInstr, fetch, ha, hm, hs, hv, raise]

end NoFault

/-! ### Four bytes as a word (R43, R44) -/

/-- Bits `k` to `k + 7` of a word as a number. -/
theorem byteAt_eq_ofNat (w : Word) (k : Nat) : w.extractLsb' k 8 = BitVec.ofNat 8 (w.toNat / 2 ^ k) := by
  rw [BitVec.extractLsb', Nat.shiftRight_eq_div_pow]

/-- The four bytes of a word, by their place. -/
theorem wordBytes_getElem? (w : Word) {k : Nat} (hk : k < 4) : (wordBytes w)[k]? = some (w.extractLsb' (8 * k) 8) := by
  interval_cases k <;> rfl

theorem readWord_of_bytesOf {m : Memory} {a : Nat} {w : Word}
    (h : ∀ k < 4, Memory.read m (a + k) = some (w.extractLsb' (8 * k) 8)) : Memory.readWord m a = some w := by
  have bytes := memory_readWord_of_bytes (h 0 (by omega)) (h 1 (by omega)) (h 2 (by omega)) (h 3 (by omega))
  exact bytes.trans (congrArg some (wordOfBytes_wordBytes w))

theorem readWord_none_iff_exists (m : Memory) (a : Nat) :
    Memory.readWord m a = none ↔ ∃ k < 4, Memory.read m (a + k) = none := by
  rw [memory_readWord_none_iff]
  constructor
  · rintro (h | h | h | h)
    exacts [⟨0, by omega, h⟩, ⟨1, by omega, h⟩, ⟨2, by omega, h⟩, ⟨3, by omega, h⟩]
  · rintro ⟨k, hk, h⟩
    interval_cases k <;> simp_all

theorem addrSet_meets_eq_false_iff (l : AddrSet) (a n : Nat) :
    AddrSet.meets l a n = false ↔ ∀ k < n, AddrSet.has l (a + k) = false := by
  rw [← Bool.not_eq_true, addrSet_meets_iff]
  simp

/-- A fetch that reads a word goes on with it (R48). -/
theorem fetch_of_fetchReads {s : State} {w : Word} (h : FetchReads s w) (k : Word → Result) : fetch s k = k w := by
  obtain ⟨ha, hm, hbytes⟩ := h
  have notStored : AddrSet.meets s.stored s.pc.toNat 4 = false :=
    (addrSet_meets_eq_false_iff ..).mpr fun k hk => (hbytes k hk).1
  have word : Memory.readWord s.mem s.pc.toNat = some w :=
    readWord_of_bytesOf fun k hk => by rw [(hbytes k hk).2, byteAt_eq_ofNat]
  simp [fetch, (aligned_word_iff _).mpr ha, hm, notStored, word]

section FetchedWord
variable {s : State} {w : Word}

theorem step_of_fetched_instr {i : Instr} (hf : s.fault = none) (h : FetchReads s w) (hi : decode w = .ok i) :
    step s = exec i s := by
  simp [step_of_noFault hf, fetchInstr, fetch_of_fetchReads h, hi]

theorem step_of_fetched_illegal {e : DecodeError} (hf : s.fault = none) (h : FetchReads s w)
    (he : decode w = .error e) : step s = .fault (.illegalInstruction s.pc w) := by
  simp [step_of_noFault hf, fetchInstr, fetch_of_fetchReads h, he, raise]

end FetchedWord

/-- Settles O10: the fetch goes on with the word, and the decoder with its instruction. -/
theorem stepRunsTheDecodedInstruction : Obligations.StepRunsTheDecodedInstruction :=
  fun _ _ _ => step_of_fetched_instr

/-- Settles O11: the rules of the five stops, their conditions said byte by byte. -/
theorem fetchSideStopsInOrder : Obligations.FetchSideStopsInOrder := by
  intro s hf
  simp only [← addrSet_meets_iff, ← addrSet_meets_eq_false_iff, ← readWord_none_iff_exists, ← aligned_word_iff,
    ne_eq, Bool.not_eq_true]
  refine ⟨step_of_pc_misaligned hf, step_of_fetch_not_admitted hf, step_of_fetch_stored hf,
    step_of_fetch_no_value hf, fun _ _ => step_of_fetched_illegal hf⟩

/-- Settles O12: the recorded reason is no next state. -/
theorem recordedFaultEndsStepping : Obligations.RecordedFaultEndsStepping := by
  intro s r h
  rw [step_of_recorded h]
  exact ⟨rfl, raise_ne_next r⟩

/-! ### Placing a word (assumption log entry 7) -/

section Placing
variable (s : State) (w : Word)

@[simp] theorem placeAtPc_pc : (placeAtPc s w).pc = s.pc := rfl

theorem placeAtPc_sameRegisters : SameRegisters s (placeAtPc s w) := fun _ => ⟨rfl, rfl⟩

theorem placeAtPc_samePlatform : SamePlatform s (placeAtPc s w) := ⟨rfl, rfl, rfl⟩

theorem placeAtPc_read (a : Nat) : Memory.read (placeAtPc s w).mem a =
    if s.pc.toNat ≤ a ∧ a < s.pc.toNat + 4 then (wordBytes w)[a - s.pc.toNat]? else Memory.read s.mem a :=
  memory_read_writeBytes s.mem s.pc.toNat a (wordBytes w)

theorem placeAtPc_has_stored (a : Nat) : AddrSet.has (placeAtPc s w).stored a =
    (AddrSet.has s.stored a && !decide (s.pc.toNat ≤ a ∧ a < s.pc.toNat + 4)) :=
  addrSet_has_dropRange s.stored s.pc.toNat 4 a

theorem placeAtPc_sameMemoryOutside : SameMemoryOutside s (placeAtPc s w) s.pc 4 := by
  intro a ha
  rw [placeAtPc_read, placeAtPc_has_stored, if_neg ha]
  simp [ha]

/-- Where `pc` is aligned and the platform admits the fetch, the placed word is what the fetch reads. -/
theorem placeAtPc_fetchReads (ha : s.pc.toNat % 4 = 0) (hm : memAdmits s.memMap s.pc .word .fetch = true) :
    FetchReads (placeAtPc s w) w := by
  refine ⟨ha, hm, fun k hk => ?_⟩
  rw [placeAtPc_pc, placeAtPc_has_stored, placeAtPc_read, if_pos (by omega), Nat.add_sub_cancel_left,
    wordBytes_getElem? w hk, byteAt_eq_ofNat]
  simp [hk]

end Placing

/-- Settles O13: the fetch after the placing reads the placed word, and the placing keeps the rest. -/
theorem placedWordIsTheNextInstruction : Obligations.PlacedWordIsTheNextInstruction := by
  intro s w i hf ha hm hi
  have decoded : decode (tableWord 32 w) = .ok i := by
    rw [decodeTableWord_eq] at hi
    cases hd : decode (tableWord 32 w) with
    | ok j => simpa [hd, Except.toOption] using hi
    | error e => simp [hd, Except.toOption] at hi
  exact ⟨step_of_fetched_instr hf (placeAtPc_fetchReads s _ ha hm) decoded, rfl, placeAtPc_sameRegisters s _,
    placeAtPc_samePlatform s _, placeAtPc_sameMemoryOutside s _⟩

end Sys2Proof
end

section
/-! What every completed instruction and every step keeps, from the three effects an instruction can have, the start of
a run, and the settled statements O14, O31 to O37, O40 (`10_state.md` R22 to R35, `20_memory.md` R61,
`70_reset_and_hazards.md` R260 to R263). -/

namespace Sys2Proof
open Sys2Proof.Machine

/-! ### The effects of an instruction, one property at a time -/

section EffectKeeps
variable {i : Instr} {s t : State} (h : Effect i s t)
include h

theorem effect_samePlatform : SamePlatform s t := by
  cases h <;> exact ⟨rfl, rfl, rfl⟩

/-- An effect without a destination leaves the registers alone, and so does one whose destination is `x0` (R22). -/
theorem effect_sameRegisters_of_x0 (hd : destination i = some 0#5) : SameRegisters s t := by
  cases h with
  | wrote rd v pc hrd =>
    obtain rfl : rd = 0#5 := Option.some.inj (hrd.symm.trans hd)
    exact fun _ => ⟨rfl, rfl⟩
  | stored n a bs hnone => simp [hnone] at hd
  | moved pc hnone => simp [hnone] at hd

theorem effect_reg_of_ne_destination {j : RegIdx} (hj : destination i ≠ some j) :
    t.reg j = s.reg j ∧ t.hasReg j = s.hasReg j := by
  cases h with
  | wrote rd v pc hrd =>
    have hne : j ≠ rd := fun e => hj (e ▸ hrd)
    simp [setReg_reg, setReg_hasReg, hne]
  | stored => exact ⟨rfl, rfl⟩
  | moved => exact ⟨rfl, rfl⟩

theorem effect_sameMemory (hs : storeAccess i s = none) : SameMemory s t := by
  cases h with
  | wrote => exact fun _ => ⟨rfl, rfl⟩
  | stored n a bs hd hsome => simp [hsome] at hs
  | moved => exact fun _ => ⟨rfl, rfl⟩

theorem effect_sameMemoryOutside {addr : Word} {n : AccessSize} (hs : storeAccess i s = some (addr, n)) :
    SameMemoryOutside s t addr (AccessSize.bytes n) := by
  cases h with
  | wrote rd v pc hd hnone => simp [hnone] at hs
  | moved pc hd hnone => simp [hnone] at hs
  | stored m a bs hd hsome ha hl =>
    obtain ⟨rfl, rfl⟩ : a = addr ∧ m = n := by simpa [hsome] using hs
    obtain ⟨-, outside, -, -⟩ := storeBytes_advance_only s a bs
    exact hl ▸ outside

theorem effect_hasReg {j : RegIdx} (hj : s.hasReg j = true) : t.hasReg j = true := by
  cases h <;> simp [setReg_hasReg, hj]

/-- A byte that is stored over holds the stored value, and every other keeps its own. -/
theorem effect_mem_isSome {a : Nat} (ha : (Memory.read s.mem a).isSome = true) :
    (Memory.read t.mem a).isSome = true := by
  cases h with
  | wrote => exact ha
  | moved => exact ha
  | stored n b bs =>
    rw [advance_mem, storeBytes_mem, memory_read_writeBytes]
    split
    · simp; omega
    · exact ha

theorem effect_has_stored {a : Nat} (ha : AddrSet.has s.stored a = true) : AddrSet.has t.stored a = true := by
  cases h with
  | wrote => exact ha
  | moved => exact ha
  | stored n b bs => simp [addrSet_has_addRange, ha]

/-- Every effect keeps the invariant: a store lies whole in the address space because it is aligned, and `pc` advances
by 4 or goes to a target that was checked (R27, R49). -/
theorem effect_keeps_inv (hi : Inv s) : Inv t := by
  obtain ⟨hmem, hstored, hvalue, hpc, hfault⟩ := hi
  have moves {pc : Word} (h : pc = s.pc + 4#32 ∨ aligned pc .word = true) : aligned pc .word = true :=
    h.elim (fun e => e ▸ aligned_add_four hpc) id
  cases h with
  | wrote rd v pc hd hs hnew => exact ⟨hmem, hstored, hvalue, moves hnew, hfault⟩
  | moved pc hd hs hnew => exact ⟨hmem, hstored, hvalue, moves hnew, hfault⟩
  | stored n a bs hd hs ha hl =>
    have fits : a.toNat + bs.length ≤ 2 ^ 32 := hl ▸ aligned_fits a n ha
    refine ⟨memory_writeBytes_wf hmem bs fits, addrSet_addRange_wf hstored fits, fun b hb => ?_,
      aligned_add_four hpc, hfault⟩
    rw [advance_mem, storeBytes_mem, memory_read_writeBytes]
    rw [advance_stored, storeBytes_stored, addrSet_has_addRange] at hb
    split
    · simp; omega
    · next houtside => exact hvalue b (by simpa [houtside] using hb)

end EffectKeeps

/-- A step that goes on began with no fault recorded, and what it did is the effect of an instruction. -/
theorem step_effect {s t : State} (h : step s = .next t) : s.fault = none ∧ ∃ i, Effect i s t := by
  obtain ⟨hf, -, -, -, w, i, -, -, hexec⟩ := step_next h
  exact ⟨hf, i, exec_effect hexec⟩

/-! ### The rules of the whole machine -/

/-- Settles O14: a write to `x0` is the identity, so an effect whose destination it is changes no register. -/
theorem registerZeroStaysZero : Obligations.RegisterZeroStaysZero :=
  ⟨fun s => ⟨reg_zero s, hasReg_zero s⟩, setReg_zero,
    fun _ _ _ hd hexec => effect_sameRegisters_of_x0 (exec_effect hexec) hd⟩

/-- Settles O33: a step that goes on is an effect, and every effect keeps the invariant. -/
theorem everyStepKeepsTheInvariant : Obligations.EveryStepKeepsTheInvariant := by
  intro s t hi hstep
  obtain ⟨-, i, heffect⟩ := step_effect hstep
  exact effect_keeps_inv heffect hi

/-- Settles O36: no effect takes a value or a mark away, and a step begins with no fault recorded. -/
theorem stepsOnlyAddKnowledge : Obligations.StepsOnlyAddKnowledge := by
  intro s t hstep
  obtain ⟨hf, i, heffect⟩ := step_effect hstep
  obtain ⟨hfault, hmap, hexit⟩ := effect_samePlatform heffect
  exact ⟨hmap, hexit, hfault.trans hf, fun _ => effect_hasReg heffect, fun _ => effect_mem_isSome heffect,
    fun _ => effect_has_stored heffect⟩

/-- Settles O37: the frames of the effect of the instruction. -/
theorem onlyDestinationsAndStoresChangeState : Obligations.OnlyDestinationsAndStoresChangeState := by
  intro i s t hexec
  have heffect := exec_effect hexec
  exact ⟨fun _ => effect_reg_of_ne_destination heffect, effect_sameMemory heffect,
    fun _ _ => effect_sameMemoryOutside heffect, effect_samePlatform heffect⟩

/-- What a store has marked stays marked along a run (R34, R61). -/
theorem core_run_has_stored {k : Nat} {s u : State} {a : Nat} (ha : AddrSet.has s.stored a = true)
    (h : Host.Core.run core k s = .next u) : AddrSet.has u.stored a = true := by
  induction k generalizing s with
  | zero =>
    cases h
    exact ha
  | succ k ih =>
    obtain ⟨t, hstep, hrun⟩ := core_run_succ_next h
    obtain ⟨-, i, heffect⟩ := step_effect hstep
    exact ih (effect_has_stored heffect ha) hrun

/-- Settles O40: the byte is still marked when the step begins, and a step that goes on has found no marked byte under
its `pc`. -/
theorem storedBytesAreNeverExecuted : Obligations.StoredBytesAreNeverExecuted := by
  intro k s u t a ha hrun hstep ⟨hlow, hhigh⟩
  have marked := core_run_has_stored ha hrun
  obtain ⟨-, -, -, hmeets, -⟩ := step_next hstep
  have unmarked := (addrSet_meets_eq_false_iff ..).mp hmeets (a - u.pc.toNat) (by omega)
  rw [Nat.add_sub_cancel' hlow, marked] at unmarked
  contradiction

/-! ### The start of a run -/

/-- A register of a launch other than `x0` (R262). -/
theorem launch_reg (l : Launch) {i : RegIdx} (hi : i ≠ 0#5) :
    (State.launch l).reg i = (l.initRegs.lookup i).getD 0#32 :=
  (regFile_ofList l.initRegs i hi).1

/-- A register of a launch other than `x0` holds a value when `InitRegs` names it (R35). -/
theorem launch_hasReg (l : Launch) {i : RegIdx} (hi : i ≠ 0#5) :
    (State.launch l).hasReg i = (l.initRegs.lookup i).isSome :=
  (regFile_ofList l.initRegs i hi).2

/-- Settles O31: the registers and bytes that a launch writes are those its lists name first. -/
theorem launchStateFollowsTheTable : Obligations.LaunchStateFollowsTheTable := by
  intro l
  refine ⟨rfl, rfl, fun i hi v hv => ?_, fun i hi hv => ?_, memory_read_ofList l.initMem, fun _ => rfl, rfl, rfl,
    rfl⟩
  · rw [launch_reg l hi, launch_hasReg l hi, hv]
    exact ⟨rfl, rfl⟩
  · rw [launch_hasReg l hi, hv]
    rfl

theorem zeroRegs_lookup (i : RegIdx) : Config.zeroRegs.lookup i = some 0#32 := by
  revert i; decide

theorem reset_reg (i : RegIdx) : State.reset.reg i = 0#32 ∧ State.reset.hasReg i = true := by
  rcases eq_or_ne i 0#5 with rfl | hi
  · exact ⟨rfl, rfl⟩
  · have named : Config.resetLaunch.initRegs.lookup i = some 0#32 := zeroRegs_lookup i
    rw [State.reset, launch_reg _ hi, launch_hasReg _ hi, named]
    exact ⟨rfl, rfl⟩

/-- Settles O32: the first step finds an aligned `pc`, an admitted fetch, and no byte. -/
theorem resetIsTheLaunchTheModelNames : Obligations.ResetIsTheLaunchTheModelNames := by
  refine ⟨rfl, rfl, rfl, reset_reg, fun _ => ⟨rfl, rfl⟩, flatMemMap_admits, ?_⟩
  exact step_of_fetch_no_value (s := State.reset) rfl rfl (flatMemMap_admits ..) rfl rfl

/-- The invariant of a launch: nothing is stored yet, and memory is made by writes (R262). -/
theorem launch_inv {l : Launch} (h : l.resetPc.toNat % 4 = 0) : Inv (State.launch l) where
  memory := memory_ofList_wf l.initMem
  stored := ⟨List.Pairwise.nil, nofun⟩
  storedHasValue := nofun
  pcAligned := (aligned_word_iff _).mpr h
  noFault := rfl

/-- Settles O34: its `RESET_PC` is 0. -/
theorem resetHasTheInvariant : Obligations.ResetHasTheInvariant := launch_inv rfl

/-- Settles O35: the invariant of a launch. -/
theorem alignedLaunchHasTheInvariant : Obligations.AlignedLaunchHasTheInvariant := fun _ => launch_inv

end Sys2Proof
end

section
/-! The comparisons and the arithmetic shifts, `slt sltu sra slti sltiu srai`, and the settled statements O16 and O18
(`40_r_type_alu.md` R114 to R118, `41_i_type_alu.md` R132 to R139). -/

namespace Sys2Proof
open Sys2Proof.Machine

/-! ### Values as numbers (`00_scope.md` R10, R12, R13) -/

theorem boolWord_ltSigned (a b : Word) : boolWord (ltSigned a b) = if a.toInt < b.toInt then 1#32 else 0#32 := by
  simp only [boolWord, ltSigned, decide_eq_true_eq]

theorem boolWord_ltUnsigned (a b : Word) : boolWord (ltUnsigned a b) = if a.toNat < b.toNat then 1#32 else 0#32 := by
  simp only [boolWord, ltUnsigned, decide_eq_true_eq]

/-- An arithmetic right shift is the division by a power of two that rounds down. -/
theorem shiftRightArith_eq_ofInt (a : Word) (n : BitVec 5) :
    shiftRightArith a n = BitVec.ofInt 32 (a.toInt / 2 ^ n.toNat) := by
  rw [shiftRightArith, BitVec.sshiftRight, Int.shiftRight_eq_div_pow, Nat.cast_pow, Nat.cast_ofNat]

theorem shiftRightArith_shiftAmount_eq_ofInt (a b : Word) :
    shiftRightArith a (shiftAmount b) = BitVec.ofInt 32 (a.toInt / 2 ^ (b.toNat % 32)) := by
  rw [shiftRightArith_eq_ofInt, toNat_shiftAmount]

/-- The word of a number, read as an unsigned number (R11). -/
theorem ofInt_toNat (x : Int) : ((BitVec.ofInt 32 x : Word).toNat : Int) = x % 2 ^ 32 := by
  rw [BitVec.toNat_ofInt]
  omega

/-- Sign extension keeps the number (R10). -/
theorem immI_toInt (imm : BitVec 12) : (immI imm).toInt = imm.toInt :=
  BitVec.toInt_signExtend_of_le (by omega)

/-- The sign-extended immediate read as an unsigned number is its value modulo `2^32` (R133). -/
theorem immI_toNat (imm : BitVec 12) : ((immI imm).toNat : Int) = imm.toInt % 2 ^ 32 := by
  rw [immI_eq_ofInt, ofInt_toNat]

theorem boolWord_ltSigned_immI (a : Word) (imm : BitVec 12) :
    boolWord (ltSigned a (immI imm)) = if a.toInt < imm.toInt then 1#32 else 0#32 := by
  rw [boolWord_ltSigned, immI_toInt]

theorem boolWord_ltUnsigned_immI (a : Word) (imm : BitVec 12) :
    boolWord (ltUnsigned a (immI imm)) = if (a.toNat : Int) < imm.toInt % 2 ^ 32 then 1#32 else 0#32 := by
  rw [boolWord_ltUnsigned, ← immI_toNat]
  simp only [Int.ofNat_lt]

/-! ### The settled statements -/

/-- Settles O16: each of the three is its row of the opcode map and the common rule of R110 with its own function. -/
theorem setLessThanAndArithmeticShiftResults : Obligations.SetLessThanAndArithmeticShiftResults := by
  simp only [Obligations.SetLessThanAndArithmeticShiftResults, List.forall_mem_cons]
  refine ⟨?slt, ?sltu, ?sra, List.forall_mem_nil _⟩
  case slt =>
    exact results_of_aluReg_row (row := rowsAluReg[3]) (by decide) (fun _ => rfl) (fun _ _ _ _ => rfl)
      boolWord_ltSigned
  case sltu =>
    exact results_of_aluReg_row (row := rowsAluReg[4]) (by decide) (fun _ => rfl) (fun _ _ _ _ => rfl)
      boolWord_ltUnsigned
  case sra =>
    exact results_of_aluReg_row (row := rowsAluReg[7]) (by decide) (fun _ => rfl) (fun _ _ _ _ => rfl)
      shiftRightArith_shiftAmount_eq_ofInt

/-- Settles O18: each of the three is its row of the opcode map and the common rule of R130 with its own function. -/
theorem immediateComparesAndArithmeticShiftResults : Obligations.ImmediateComparesAndArithmeticShiftResults := by
  simp only [Obligations.ImmediateComparesAndArithmeticShiftResults, List.forall_mem_cons]
  refine ⟨⟨?slti, ?sltiu, List.forall_mem_nil _⟩, ?srai⟩
  case slti =>
    exact results_of_aluImm_row (row := rowsAluImm[2]) (by decide) (fun _ => rfl) (fun _ _ _ _ => rfl)
      boolWord_ltSigned_immI
  case sltiu =>
    exact results_of_aluImm_row (row := rowsAluImm[3]) (by decide) (fun _ => rfl) (fun _ _ _ _ => rfl)
      boolWord_ltUnsigned_immI
  case srai =>
    exact results_of_aluImm_row (row := rowsAluImm[6]) (by decide) (fun _ => rfl) (fun _ _ _ _ => rfl)
      shiftRightArith_eq_ofInt

end Sys2Proof
end

section
/-! The loads and the stores: addresses as numbers, the bytes that each width reads and writes, the common rules of
R150 and R160, and the settled statements O21 to O26 (`20_memory.md` R43 to R52, `42_loads.md`, `43_stores.md`). -/

namespace Sys2Proof
open Sys2Proof.Machine

/-! ### Addresses (R51) -/

theorem loadAddress_toNat (base : Word) (imm : BitVec 12) :
    ((loadAddress base imm).toNat : Int) = ((base.toNat : Int) + imm.toInt) % 2 ^ 32 := by
  rw [loadAddress, add_immI_eq_ofInt, ofInt_toNat]

/-- Loads and stores have one addressing mode (R51). -/
theorem storeAddress_eq_loadAddress (base : Word) (imm : BitVec 12) :
    storeAddress base imm = loadAddress base imm := rfl

/-- From `x0` the displacement reaches the two ends of the address space. -/
theorem loadAddress_zero_bounds (imm : BitVec 12) :
    (loadAddress 0#32 imm).toNat ≤ 0x7FF ∨ 0xFFFFF800 ≤ (loadAddress 0#32 imm).toNat := by
  have address := loadAddress_toNat 0#32 imm
  have lower : -2048 ≤ imm.toInt := imm.le_toInt
  have upper : imm.toInt ≤ 2047 := imm.toInt_le
  rw [BitVec.toNat_ofNat] at address
  omega

theorem aligned_iff (a : Word) (n : AccessSize) : aligned a n = true ↔ a.toNat % AccessSize.bytes n = 0 := by
  simp [aligned]

theorem aligned_eq_false_iff (a : Word) (n : AccessSize) :
    aligned a n = false ↔ a.toNat % AccessSize.bytes n ≠ 0 := by
  simp [aligned]

/-! ### The bytes a read needs (R46 step 3) -/

/-- The read finds a value exactly when each of the bytes of the access holds one. -/
def ReadsBytes {w : Nat} (n : AccessSize) (get : Memory → Nat → Option (BitVec w)) : Prop :=
  ∀ m a, get m a = none ↔ ∃ k < AccessSize.bytes n, Memory.read m (a + k) = none

theorem readByte_readsBytes : ReadsBytes .byte Memory.readByte := by
  simp [ReadsBytes, AccessSize.bytes, Memory.readByte]

theorem readHalf_readsBytes : ReadsBytes .half Memory.readHalf := by
  intro m a
  rw [memory_readHalf_none_iff]
  constructor
  · rintro (h | h)
    exacts [⟨0, Nat.zero_lt_two, h⟩, ⟨1, Nat.one_lt_two, h⟩]
  · rintro ⟨k, hk : k < 2, h⟩
    interval_cases k <;> simp_all

theorem readWord_readsBytes : ReadsBytes .word Memory.readWord := readWord_none_iff_exists

/-! ### The common rule of the loads (R150) -/

section LoadRule
variable {w : Nat} {n : AccessSize} {get : Memory → Nat → Option (BitVec w)} {ext : BitVec w → Word}
  {rd rs1 : RegIdx} {imm : BitVec 12} {s : State}

theorem loadInto_completes {v : BitVec w} (h : s.hasReg rs1 = true)
    (ha : aligned (loadAddress (s.reg rs1) imm) n = true)
    (hm : memAdmits s.memMap (loadAddress (s.reg rs1) imm) n .load = true)
    (hv : get s.mem (loadAddress (s.reg rs1) imm).toNat = some v) :
    ∃ t, loadInto n get ext rd rs1 imm s = .next t ∧ OnlyRegWritten s t rd (ext v) ∧ t.pc = s.pc + 4#32 :=
  ⟨_, (loadInto_next_iff ..).mpr ⟨h, ha, hm, v, hv, rfl⟩, setReg_advance_only s rd _, rfl⟩

/-- The stops of a load whose base holds a value, in their order (R150, R232 (7)). -/
theorem loadInto_stops (hget : ReadsBytes n get) (h : s.hasReg rs1 = true) :
    ((loadAddress (s.reg rs1) imm).toNat % AccessSize.bytes n ≠ 0 → loadInto n get ext rd rs1 imm s =
      .fault (.loadAddressMisaligned s.pc (loadAddress (s.reg rs1) imm))) ∧
    ((loadAddress (s.reg rs1) imm).toNat % AccessSize.bytes n = 0 →
      memAdmits s.memMap (loadAddress (s.reg rs1) imm) n .load = false → loadInto n get ext rd rs1 imm s =
      .fault (.loadAccessFault s.pc (loadAddress (s.reg rs1) imm))) ∧
    ((loadAddress (s.reg rs1) imm).toNat % AccessSize.bytes n = 0 →
      memAdmits s.memMap (loadAddress (s.reg rs1) imm) n .load = true →
      (∃ k < AccessSize.bytes n, Memory.read s.mem ((loadAddress (s.reg rs1) imm).toNat + k) = none) →
      loadInto n get ext rd rs1 imm s =
      .refused (.uninitialisedRead s.pc (.mem (loadAddress (s.reg rs1) imm)))) := by
  rw [← aligned_iff, ← aligned_eq_false_iff, ← hget s.mem, loadInto, readReg_of_hasReg h]
  refine ⟨fun ha => ?_, fun ha hm => ?_, fun ha hm hv => ?_⟩
  · simp [memRead, ha, raise]
  · simp [memRead, ha, hm, raise]
  · simp [memRead, ha, hm, hv, raise]

theorem loadInto_found (hget : ReadsBytes n get) {t : State} (h : loadInto n get ext rd rs1 imm s = .next t) :
    (∀ k < AccessSize.bytes n, (Memory.read s.mem ((loadAddress (s.reg rs1) imm).toNat + k)).isSome = true) ∧
      (rd ≠ rs1 → t.reg rs1 = s.reg rs1) := by
  obtain ⟨-, -, -, v, hv, rfl⟩ := (loadInto_next_iff ..).mp h
  refine ⟨fun k hk => ?_, fun hne => ?_⟩
  · rw [Option.isSome_iff_ne_none]
    intro hnone
    rw [(hget _ _).mpr ⟨k, hk, hnone⟩] at hv
    contradiction
  · rw [advance_reg, setReg_reg, if_neg fun e => hne e.1.symm]

end LoadRule

/-! ### The common rule of the stores (R160) -/

section StoreRule
variable {n : AccessSize} {bytesOf : Word → List Byte} {rs1 rs2 : RegIdx} {imm : BitVec 12} {s : State}

theorem storeFrom_completes (h1 : s.hasReg rs1 = true) (h2 : s.hasReg rs2 = true)
    (ha : (storeAddress (s.reg rs1) imm).toNat % AccessSize.bytes n = 0)
    (hm : memAdmits s.memMap (storeAddress (s.reg rs1) imm) n .store = true) :
    ∃ t, storeFrom n bytesOf rs1 rs2 imm s = .next t ∧
      OnlyBytesStored s t (storeAddress (s.reg rs1) imm) (bytesOf (s.reg rs2)) ∧ t.pc = s.pc + 4#32 :=
  ⟨_, (storeFrom_next_iff ..).mpr ⟨h1, h2, (aligned_iff _ _).mpr ha, hm, rfl⟩, storeBytes_advance_only s _ _, rfl⟩

/-- The stops of a store whose sources hold a value, in their order (R160, R232 (7)). -/
theorem storeFrom_stops (h1 : s.hasReg rs1 = true) (h2 : s.hasReg rs2 = true) :
    ((storeAddress (s.reg rs1) imm).toNat % AccessSize.bytes n ≠ 0 → storeFrom n bytesOf rs1 rs2 imm s =
      .fault (.storeAddressMisaligned s.pc (storeAddress (s.reg rs1) imm))) ∧
    ((storeAddress (s.reg rs1) imm).toNat % AccessSize.bytes n = 0 →
      memAdmits s.memMap (storeAddress (s.reg rs1) imm) n .store = false → storeFrom n bytesOf rs1 rs2 imm s =
      .fault (.storeAccessFault s.pc (storeAddress (s.reg rs1) imm))) := by
  rw [← aligned_iff, ← aligned_eq_false_iff, storeFrom, readReg_of_hasReg h1, readReg_of_hasReg h2]
  refine ⟨fun ha => ?_, fun ha hm => ?_⟩
  · simp [memWrite, ha, raise]
  · simp [memWrite, ha, hm, raise]

theorem storeFrom_wrote (hlen : ∀ v, (bytesOf v).length = AccessSize.bytes n) {t : State}
    (h : storeFrom n bytesOf rs1 rs2 imm s = .next t) :
    (∀ k < AccessSize.bytes n,
      Memory.read t.mem ((storeAddress (s.reg rs1) imm).toNat + k) = (bytesOf (s.reg rs2))[k]?) ∧
    SameMemoryOutside s t (storeAddress (s.reg rs1) imm) (AccessSize.bytes n) ∧ SameRegisters s t := by
  obtain ⟨-, -, -, -, rfl⟩ := (storeFrom_next_iff ..).mp h
  obtain ⟨inside, outside, sameRegisters, -⟩ :=
    storeBytes_advance_only s (storeAddress (s.reg rs1) imm) (bytesOf (s.reg rs2))
  rw [hlen] at inside outside
  refine ⟨fun k hk => ?_, outside, sameRegisters⟩
  rw [(inside _ (by omega) (by omega)).1, Nat.add_sub_cancel_left]

theorem storeFrom_found (hlen : ∀ v, (bytesOf v).length = AccessSize.bytes n) {t : State}
    (h : storeFrom n bytesOf rs1 rs2 imm s = .next t) :
    (∀ k < AccessSize.bytes n, (Memory.read t.mem ((storeAddress (s.reg rs1) imm).toNat + k)).isSome = true) ∧
    (∀ a, ¬((storeAddress (s.reg rs1) imm).toNat ≤ a ∧
        a < (storeAddress (s.reg rs1) imm).toNat + AccessSize.bytes n) →
      Memory.read t.mem a = Memory.read s.mem a) ∧
    t.reg rs1 = s.reg rs1 := by
  obtain ⟨written, outside, sameRegisters⟩ := storeFrom_wrote hlen h
  refine ⟨fun k hk => ?_, fun a ha => (outside a ha).1, (sameRegisters rs1).1⟩
  rw [written k hk, List.getElem?_eq_getElem ((hlen _).symm ▸ hk), Option.isSome_some]

end StoreRule

/-- Settles O21: the common rules, each with the bytes its width reads or writes. -/
theorem effectiveAddressIsBasePlusDisplacement : Obligations.EffectiveAddressIsBasePlusDisplacement := by
  simp only [Obligations.EffectiveAddressIsBasePlusDisplacement, List.forall_mem_cons, storeAddress_eq_loadAddress,
    and_self]
  refine ⟨loadAddress_toNat, loadAddress_zero_bounds, ⟨?lb, ?lh, ?lw, ?lbu, ?lhu, List.forall_mem_nil _⟩,
    ?sb, ?sh, ?sw, List.forall_mem_nil _⟩
  case lb => exact fun _ _ _ _ _ => loadInto_found readByte_readsBytes
  case lh => exact fun _ _ _ _ _ => loadInto_found readHalf_readsBytes
  case lw => exact fun _ _ _ _ _ => loadInto_found readWord_readsBytes
  case lbu => exact fun _ _ _ _ _ => loadInto_found readByte_readsBytes
  case lhu => exact fun _ _ _ _ _ => loadInto_found readHalf_readsBytes
  case sb => exact fun _ _ _ _ _ => storeFrom_found fun v => (storeOf_length v).1
  case sh => exact fun _ _ _ _ _ => storeFrom_found fun v => (storeOf_length v).2.1
  case sw => exact fun _ _ _ _ _ => storeFrom_found fun v => (storeOf_length v).2.2

/-! ### Loads: the value of the bytes (R43, R52) -/

theorem signExtByte_eq_ofInt (b : Byte) : signExtByte b = BitVec.ofInt 32 b.toInt := rfl

theorem zeroExtByte_eq_ofNat (b : Byte) : zeroExtByte b = BitVec.ofNat 32 b.toNat := (BitVec.ofNat_toNat 32 b).symm

theorem toNat_append_byte {n : Nat} (x : BitVec n) (b : Byte) : (x ++ b).toNat = x.toNat * 256 + b.toNat := by
  rw [BitVec.toNat_append, ← Nat.shiftLeft_add_eq_or_of_lt b.isLt, Nat.shiftLeft_eq]

theorem signExtHalf_append (b1 b0 : Byte) :
    signExtHalf (b1 ++ b0) = BitVec.ofInt 32 (b1.toInt * 256 + b0.toNat) := by
  have value : (b1 ++ b0).toInt = b1.toInt * 256 + b0.toNat := by
    rw [BitVec.toInt_append, if_neg (by decide), Int.mul_comm]
    rfl
  rw [signExtHalf, BitVec.signExtend, value]

theorem zeroExtHalf_append (b1 b0 : Byte) :
    zeroExtHalf (b1 ++ b0) = BitVec.ofNat 32 (b1.toNat * 256 + b0.toNat) := by
  rw [zeroExtHalf, ← toNat_append_byte, BitVec.ofNat_toNat]

theorem append_bytes_eq_ofNat (b3 b2 b1 b0 : Byte) : (b3 ++ b2 ++ b1 ++ b0 : Word) =
    BitVec.ofNat 32 (b3.toNat * 16777216 + b2.toNat * 65536 + b1.toNat * 256 + b0.toNat) := by
  apply BitVec.eq_of_toNat_eq
  rw [BitVec.toNat_ofNat, toNat_append_byte, toNat_append_byte, toNat_append_byte]
  omega

/-- Settles O22: the common rule completes with the bytes put together, and extending them gives the number. -/
theorem loadsDeliverTheBytesOfMemory : Obligations.LoadsDeliverTheBytesOfMemory := by
  intro s rd rs1 imm h
  refine ⟨fun b0 hm h0 => ⟨?lb, ?lbu⟩, fun b0 b1 ha hm h0 h1 => ⟨?lh, ?lhu⟩,
    fun b0 b1 b2 b3 ha hm h0 h1 h2 h3 => ?lw⟩
  case lb =>
    rw [← signExtByte_eq_ofInt]
    exact loadInto_completes h (aligned_byte _) hm h0
  case lbu =>
    rw [← zeroExtByte_eq_ofNat]
    exact loadInto_completes h (aligned_byte _) hm h0
  case lh =>
    rw [← signExtHalf_append]
    exact loadInto_completes h ((aligned_iff _ _).mpr ha) hm (memory_readHalf_of_bytes h0 h1)
  case lhu =>
    rw [← zeroExtHalf_append]
    exact loadInto_completes h ((aligned_iff _ _).mpr ha) hm (memory_readHalf_of_bytes h0 h1)
  case lw =>
    rw [← append_bytes_eq_ofNat]
    exact loadInto_completes h ((aligned_iff _ _).mpr ha) hm (memory_readWord_of_bytes h0 h1 h2 h3)

/-- Settles O23: the five loads have the common rule. -/
theorem loadsStopInOrder : Obligations.LoadsStopInOrder := by
  simp only [Obligations.LoadsStopInOrder, List.forall_mem_cons]
  refine ⟨?lb, ?lh, ?lw, ?lbu, ?lhu, List.forall_mem_nil _⟩
  case lb => exact fun _ _ _ _ => loadInto_stops readByte_readsBytes
  case lh => exact fun _ _ _ _ => loadInto_stops readHalf_readsBytes
  case lw => exact fun _ _ _ _ => loadInto_stops readWord_readsBytes
  case lbu => exact fun _ _ _ _ => loadInto_stops readByte_readsBytes
  case lhu => exact fun _ _ _ _ => loadInto_stops readHalf_readsBytes

/-! ### Stores: the bytes of the data register (R43, R52) -/

theorem storeByteOf_eq (v : Word) : storeByteOf v = [BitVec.ofNat 8 v.toNat] := by
  rw [storeByteOf, byteAt_eq_ofNat, Nat.pow_zero, Nat.div_one]

theorem storeHalfOf_eq (v : Word) : storeHalfOf v = [BitVec.ofNat 8 v.toNat, BitVec.ofNat 8 (v.toNat / 256)] := by
  simp [storeHalfOf, byteAt_eq_ofNat]

theorem storeWordOf_eq (v : Word) : storeWordOf v = [BitVec.ofNat 8 v.toNat, BitVec.ofNat 8 (v.toNat / 256),
    BitVec.ofNat 8 (v.toNat / 65536), BitVec.ofNat 8 (v.toNat / 16777216)] := by
  simp [storeWordOf, byteAt_eq_ofNat]

/-- Settles O24: the three stores have the common rule, and their bytes are the numbers of the statement. -/
theorem storesWriteTheirBytes : Obligations.StoresWriteTheirBytes := by
  simp only [Obligations.StoresWriteTheirBytes, List.forall_mem_cons, ← storeByteOf_eq, ← storeHalfOf_eq,
    ← storeWordOf_eq]
  refine ⟨?sb, ?sh, ?sw, List.forall_mem_nil _⟩
  case sb => exact fun _ _ _ _ => storeFrom_completes (n := .byte) (bytesOf := storeByteOf)
  case sh => exact fun _ _ _ _ => storeFrom_completes (n := .half) (bytesOf := storeHalfOf)
  case sw => exact fun _ _ _ _ => storeFrom_completes (n := .word) (bytesOf := storeWordOf)

/-- Settles O25: the three stores have the common rule. -/
theorem storesStopInOrder : Obligations.StoresStopInOrder := by
  simp only [Obligations.StoresStopInOrder, List.forall_mem_cons]
  refine ⟨?sb, ?sh, ?sw, List.forall_mem_nil _⟩
  case sb => exact fun _ _ _ _ => storeFrom_stops (n := .byte) (bytesOf := storeByteOf)
  case sh => exact fun _ _ _ _ => storeFrom_stops (n := .half) (bytesOf := storeHalfOf)
  case sw => exact fun _ _ _ _ => storeFrom_stops (n := .word) (bytesOf := storeWordOf)

/-- Two neighbouring bytes of a word are a half of it. -/
theorem append_extractLsb'_bytes (w : Word) (k : Nat) :
    w.extractLsb' (k + 8) 8 ++ w.extractLsb' k 8 = w.extractLsb' k 16 :=
  BitVec.extractLsb'_append_extractLsb'_eq_extractLsb' rfl

/-- Settles O26: memory holds the four bytes of the data register, and wider reads put them together. -/
theorem mixedWidthReadsAfterStoreWord : Obligations.MixedWidthReadsAfterStoreWord := by
  intro rs1 rs2 imm s t h
  have written : ∀ k < 4, Memory.read t.mem ((storeAddress (s.reg rs1) imm).toNat + k) =
      some ((s.reg rs2).extractLsb' (8 * k) 8) := fun k hk =>
    ((storeFrom_wrote (fun v => (storeOf_length v).2.2) h).1 k hk).trans (wordBytes_getElem? (s.reg rs2) hk)
  have lowHalf := memory_readHalf_of_bytes (written 0 (by omega)) (written 1 (by omega))
  have highHalf := memory_readHalf_of_bytes (written 2 (by omega)) (written 3 (by omega))
  rw [append_extractLsb'_bytes] at lowHalf highHalf
  exact ⟨written, lowHalf, highHalf, readWord_of_bytesOf written⟩

end Sys2Proof
end

section
/-! The branches, the jumps and the pairs of `li` and `call`, and the settled statements O27 to O30 (`44_branches.md`
R170 to R177, `45_jumps.md` R180 to R185, `47_pseudo_instructions.md` R202 to R204). -/

namespace Sys2Proof
open Sys2Proof.Machine

/-! ### Targets as numbers (R83, R85, R170, R180) -/

theorem add_signExtend_eq_ofInt {n : Nat} (a : Word) (x : BitVec n) :
    a + x.signExtend 32 = BitVec.ofInt 32 ((a.toNat : Int) + x.toInt) := by
  rw [BitVec.signExtend, BitVec.ofInt_add, BitVec.ofInt_natCast, BitVec.ofNat_toNat, BitVec.setWidth_eq]

theorem branchTarget_eq_ofInt (pc : Word) (offset : BitVec 13) :
    branchTarget pc offset = BitVec.ofInt 32 ((pc.toNat : Int) + offset.toInt) := add_signExtend_eq_ofInt pc offset

theorem jalTarget_eq_ofInt (pc : Word) (offset : BitVec 21) :
    jalTarget pc offset = BitVec.ofInt 32 ((pc.toNat : Int) + offset.toInt) := add_signExtend_eq_ofInt pc offset

theorem jalrTarget_eq_ofInt (base : Word) (imm : BitVec 12) :
    jalrTarget base imm = BitVec.ofInt 32 ((base.toNat : Int) + imm.toInt) := add_immI_eq_ofInt base imm

/-- 4 divides `2^32`, so reducing a target modulo `2^32` does not change whether it is a multiple of 4. -/
theorem aligned_ofInt_iff (x : Int) : aligned (BitVec.ofInt 32 x) .word = true ↔ x % 4 = 0 := by
  have value := ofInt_toNat x
  rw [aligned_word_iff]
  omega

theorem jumpTo_ofInt_of_aligned (s : State) {x : Int} (hx : x % 4 = 0) :
    jumpTo s (BitVec.ofInt 32 x) = .next (s.setPc (BitVec.ofInt 32 x)) :=
  (jumpTo_next_iff ..).mpr ⟨(aligned_ofInt_iff x).mpr hx, rfl⟩

theorem jumpTo_ofInt_of_misaligned (s : State) {x : Int} (hx : x % 4 ≠ 0) :
    jumpTo s (BitVec.ofInt 32 x) = .fault (.instructionAddressMisaligned s.pc (BitVec.ofInt 32 x)) := by
  rcases jumpTo_cases s (BitVec.ofInt 32 x) with ⟨ha, -⟩ | ⟨-, h⟩
  · exact absurd ((aligned_ofInt_iff x).mp ha) hx
  · exact h

/-! ### Conditions as comparisons of numbers (`00_scope.md` R12) -/

theorem eqWords_eq (a b : Word) : eqWords a b = decide (a.toNat = b.toNat) := by
  rw [eqWords, decide_eq_decide, BitVec.toNat_inj]

theorem neWords_eq (a b : Word) : neWords a b = decide (a.toNat ≠ b.toNat) := by
  rw [neWords, eqWords_eq, ← decide_not]

theorem geSigned_eq (a b : Word) : geSigned a b = decide (b.toInt ≤ a.toInt) := by
  rw [geSigned, ltSigned, ← decide_not, decide_eq_decide, Int.not_lt]

theorem geUnsigned_eq (a b : Word) : geUnsigned a b = decide (b.toNat ≤ a.toNat) := by
  rw [geUnsigned, ltUnsigned, ← decide_not, decide_eq_decide, Nat.not_lt]

/-! ### The common rule of the branches (R170) -/

section BranchRule
variable {cond : Word → Word → Bool} {rs1 rs2 : RegIdx} {offset : BitVec 13} {s : State}
  (h1 : s.hasReg rs1 = true) (h2 : s.hasReg rs2 = true)
include h1 h2

theorem branchIf_of_not_taken (hc : cond (s.reg rs1) (s.reg rs2) = false) :
    branchIf cond rs1 rs2 offset s = .next s.advance :=
  (branchIf_next_iff ..).mpr ⟨h1, h2, .inr ⟨hc, rfl⟩⟩

theorem branchIf_of_taken (hc : cond (s.reg rs1) (s.reg rs2) = true) :
    branchIf cond rs1 rs2 offset s = jumpTo s (BitVec.ofInt 32 ((s.pc.toNat : Int) + offset.toInt)) := by
  rw [branchIf, readReg_of_hasReg h1, readReg_of_hasReg h2, if_pos hc, branchTarget_eq_ofInt]

end BranchRule

/-- A branch that has a row of the opcode map and the common rule with the condition `cond`: the words of the row decode
to it, and from every state whose sources hold a value it has the three outcomes of R170 to R177. -/
theorem outcomes_of_branch_row {row : OpcodeRow} {mk : RegIdx → RegIdx → BitVec 13 → Instr}
    {cond value : Word → Word → Bool} (hrow : row ∈ opcodeTable)
    (hofWord : ∀ w, row.mnemonic.ofWord w = mk (fieldRs1 w) (fieldRs2 w) (fieldImmB w))
    (hexec : ∀ rs1 rs2 offset s, exec (mk rs1 rs2 offset) s = branchIf cond rs1 rs2 offset s)
    (hvalue : ∀ a b, cond a b = value a b) :
    (∀ w, w &&& row.mask = row.pattern → decode w = .ok (mk (fieldRs1 w) (fieldRs2 w) (fieldImmB w))) ∧
    ∀ rs1 rs2 offset s, s.hasReg rs1 = true → s.hasReg rs2 = true →
      (value (s.reg rs1) (s.reg rs2) = false →
        ∃ t, exec (mk rs1 rs2 offset) s = .next t ∧ OnlyPcChanged s t ∧ t.pc = s.pc + 4#32) ∧
      (value (s.reg rs1) (s.reg rs2) = true → ((s.pc.toNat : Int) + offset.toInt) % 4 = 0 →
        ∃ t, exec (mk rs1 rs2 offset) s = .next t ∧ OnlyPcChanged s t ∧
          t.pc = BitVec.ofInt 32 ((s.pc.toNat : Int) + offset.toInt)) ∧
      (value (s.reg rs1) (s.reg rs2) = true → ((s.pc.toNat : Int) + offset.toInt) % 4 ≠ 0 →
        exec (mk rs1 rs2 offset) s =
          .fault (.instructionAddressMisaligned s.pc (BitVec.ofInt 32 ((s.pc.toNat : Int) + offset.toInt)))) := by
  refine ⟨fun w hw => hofWord w ▸ decode_of_mask_match hrow hw, fun rs1 rs2 offset s h1 h2 => ?_⟩
  rw [hexec, ← hvalue]
  refine ⟨fun hc => ?_, fun hc ht => ?_, fun hc ht => ?_⟩
  · exact ⟨_, branchIf_of_not_taken h1 h2 hc, setPc_only s _, rfl⟩
  · exact ⟨_, (branchIf_of_taken h1 h2 hc).trans (jumpTo_ofInt_of_aligned s ht), setPc_only s _, rfl⟩
  · exact (branchIf_of_taken h1 h2 hc).trans (jumpTo_ofInt_of_misaligned s ht)

/-- Settles O27: each of the six is its row of the opcode map and the common rule with its own condition. -/
theorem branchOutcomes : Obligations.BranchOutcomes := by
  simp only [Obligations.BranchOutcomes, List.forall_mem_cons]
  refine ⟨?beq, ?bne, ?blt, ?bge, ?bltu, ?bgeu, List.forall_mem_nil _⟩
  case beq =>
    exact outcomes_of_branch_row (row := rowsBranch[0]) (by decide) (fun _ => rfl) (fun _ _ _ _ => rfl) eqWords_eq
  case bne =>
    exact outcomes_of_branch_row (row := rowsBranch[1]) (by decide) (fun _ => rfl) (fun _ _ _ _ => rfl) neWords_eq
  case blt =>
    exact outcomes_of_branch_row (row := rowsBranch[2]) (by decide) (fun _ => rfl) (fun _ _ _ _ => rfl) fun _ _ => rfl
  case bge =>
    exact outcomes_of_branch_row (row := rowsBranch[3]) (by decide) (fun _ => rfl) (fun _ _ _ _ => rfl) geSigned_eq
  case bltu =>
    exact outcomes_of_branch_row (row := rowsBranch[4]) (by decide) (fun _ => rfl) (fun _ _ _ _ => rfl) fun _ _ => rfl
  case bgeu =>
    exact outcomes_of_branch_row (row := rowsBranch[5]) (by decide) (fun _ => rfl) (fun _ _ _ _ => rfl) geUnsigned_eq

/-! ### The common end of the jumps (R180 to R183) -/

theorem exec_jal (rd : RegIdx) (offset : BitVec 21) (s : State) :
    exec (.jal rd offset) s = linkAndJump rd (BitVec.ofInt 32 ((s.pc.toNat : Int) + offset.toInt)) s :=
  congrArg (linkAndJump rd · s) (jalTarget_eq_ofInt s.pc offset)

theorem exec_jalr_of_hasReg {rs1 : RegIdx} {s : State} (h : s.hasReg rs1 = true) (rd : RegIdx) (imm : BitVec 12) :
    exec (.jalr rd rs1 imm) s = linkAndJump rd (jalrTarget (s.reg rs1) imm) s :=
  readReg_of_hasReg h fun base => linkAndJump rd (jalrTarget base imm) s

theorem linkAndJump_outcomes (rd : RegIdx) (x : Int) (s : State) :
    (x % 4 = 0 → ∃ t, linkAndJump rd (BitVec.ofInt 32 x) s = .next t ∧ OnlyRegWritten s t rd (s.pc + 4#32) ∧
      t.pc = BitVec.ofInt 32 x) ∧
    (x % 4 ≠ 0 → linkAndJump rd (BitVec.ofInt 32 x) s =
      .fault (.instructionAddressMisaligned s.pc (BitVec.ofInt 32 x))) :=
  ⟨fun hx => ⟨_, jumpTo_ofInt_of_aligned _ hx, setReg_setPc_only s rd _ _, rfl⟩,
    fun hx => jumpTo_ofInt_of_misaligned (s.setReg rd (s.pc + 4#32)) hx⟩

/-- Settles O28: each of the two is its row of the opcode map and the common end with its target. -/
theorem jumpOutcomes : Obligations.JumpOutcomes := by
  refine ⟨fun w => ?jalWord, fun w => ?jalrWord, fun rd offset s => ?jal, fun rd rs1 imm s h => ?jalr⟩
  case jalWord => exact decode_of_mask_match (row := rowsJumpUpper[3]) (by decide)
  case jalrWord => exact decode_of_mask_match (row := rowsJumpUpper[2]) (by decide)
  case jal =>
    rw [exec_jal]
    exact linkAndJump_outcomes rd _ s
  case jalr =>
    rw [exec_jalr_of_hasReg h, jalrTarget_eq_ofInt]
    exact linkAndJump_outcomes rd _ s

/-! ### The pairs of `li` and `call` (R202 to R204) -/

/-- `lo` is the word's low 12 bits read as a signed number, which is the word less the carry that `hi` adds (R204). -/
theorem loPart_toInt (c : Word) : (loPart c).toInt = ((c.toNat : Int) + 2048) % 4096 - 2048 := by
  have value : (loPart c).toNat = c.toNat % 4096 := BitVec.extractLsb'_toNat 0 12 c
  rw [BitVec.toInt_eq_toNat_cond, value]
  split <;> omega

theorem hiPart_toNat (c : Word) : (hiPart c).toNat = (c.toNat + 2048) % 2 ^ 32 / 4096 := by
  have value : (hiPart c).toNat = (c + 0x00000800#32).toNat >>> 12 % 2 ^ 20 := BitVec.extractLsb'_toNat 12 20 _
  rw [value, Nat.shiftRight_eq_div_pow, BitVec.toNat_add, BitVec.toNat_ofNat]
  omega

/-- The two parts of a constant make it again (R204). -/
theorem immU_hiPart_add_immI_loPart (c : Word) : immU (hiPart c) + immI (loPart c) = c := by
  apply BitVec.eq_of_toNat_eq
  have sum := ofInt_toNat ((immU (hiPart c)).toNat + (loPart c).toInt)
  rw [← add_immI_eq_ofInt, immU_eq_ofNat, BitVec.toNat_ofNat, hiPart_toNat, loPart_toInt] at sum
  have := c.isLt
  rw [immU_eq_ofNat, hiPart_toNat]
  omega

/-- The second of two writes to one register is the one that counts. -/
theorem onlyRegWritten_trans {s t u : State} {rd : RegIdx} {v v' : Word} (h : OnlyRegWritten s t rd v)
    (h' : OnlyRegWritten t u rd v') : OnlyRegWritten s u rd v' := by
  obtain ⟨hreg, hmem, hfault, hmap, hexit⟩ := h
  obtain ⟨hreg', hmem', hfault', hmap', hexit'⟩ := h'
  refine ⟨fun j => ⟨?_, ?_⟩, fun a => ⟨(hmem' a).1.trans (hmem a).1, (hmem' a).2.trans (hmem a).2⟩,
    hfault'.trans hfault, hmap'.trans hmap, hexit'.trans hexit⟩
  · rw [(hreg' j).1, (hreg j).1]
    split <;> rfl
  · rw [(hreg' j).2, (hreg j).2, Bool.or_assoc, Bool.or_self]

/-- The register that was written, if it is not `x0`, holds the value. -/
theorem onlyRegWritten_reg {s t : State} {rd : RegIdx} {v : Word} (h : OnlyRegWritten s t rd v) (hrd : rd ≠ 0#5) :
    t.reg rd = v ∧ t.hasReg rd = true := by
  obtain ⟨hreg, -⟩ := h
  rw [(hreg rd).1, (hreg rd).2, if_pos ⟨rfl, hrd⟩, beq_self_eq_true, Bool.or_true]
  exact ⟨rfl, rfl⟩

theorem exec_addi_of_hasReg {rs1 : RegIdx} {s : State} (h : s.hasReg rs1 = true) (rd : RegIdx) (imm : BitVec 12) :
    exec (.addi rd rs1 imm) s = .next (s.setReg rd (s.reg rs1 + immI imm)).advance :=
  aluImm_of_hasReg (fun a => a + immI imm) rd h

theorem add_four_add_four (a : Word) : a + 4#32 + 4#32 = a + 8#32 := BitVec.add_assoc a 4#32 4#32

/-- Settles O29: `lui` leaves the upper part in `rd`, and `addi` adds the lower part to it. -/
theorem liLoadsEveryConstant : Obligations.LiLoadsEveryConstant := by
  intro s rd c hrd
  obtain ⟨t, hlui, hwritten, hpc⟩ := writeAndAdvance_completes rd (immU (hiPart c)) s
  obtain ⟨hvalue, hhas⟩ := onlyRegWritten_reg hwritten hrd
  have haddi : exec (.addi rd rd (loPart c)) t = .next (t.setReg rd c).advance := by
    rw [exec_addi_of_hasReg hhas, hvalue, immU_hiPart_add_immI_loPart]
  refine ⟨rfl, t, _, hlui, haddi, onlyRegWritten_trans hwritten (setReg_advance_only t rd c), ?_⟩
  rw [advance_pc, setReg_pc, hpc, add_four_add_four]

/-- Settles O30: `auipc` leaves its own address plus the upper part of the distance in `ra`, and the lower part makes it
the target, which is aligned; the link value of `jalr` is the address after the pair. -/
theorem callReachesEveryTarget : Obligations.CallReachesEveryTarget := by
  intro s target ha
  obtain ⟨t, hauipc, hwritten, hpc⟩ := writeAndAdvance_completes 1#5 (s.pc + immU (hiPart (target - s.pc))) s
  obtain ⟨hvalue, hhas⟩ := onlyRegWritten_reg hwritten (by decide)
  have hsum : jalrTarget (t.reg 1#5) (loPart (target - s.pc)) = target := by
    rw [jalrTarget, hvalue, BitVec.add_assoc, immU_hiPart_add_immI_loPart, BitVec.add_comm, BitVec.sub_add_cancel]
  have hjalr : exec (.jalr 1#5 1#5 (loPart (target - s.pc))) t =
      .next ((t.setReg 1#5 (t.pc + 4#32)).setPc target) := by
    rw [exec_jalr_of_hasReg hhas, hsum]
    exact (linkAndJump_next_iff ..).mpr ⟨(aligned_word_iff _).mpr ha, rfl⟩
  refine ⟨rfl, t, _, hauipc, hjalr, ?_, rfl⟩
  rw [← add_four_add_four, ← hpc]
  exact onlyRegWritten_trans hwritten (setReg_setPc_only t 1#5 _ _)

end Sys2Proof
end

section
/-! The assembler's operands as fields, and the settled statement O9 (`30_encoding.md` R97 to R99). -/

namespace Sys2Proof
open Sys2Proof.Machine

/-! ### Numbers as fields (R98) -/

theorem asmImm12_toInt (imm : BitVec 12) : asmImm12 imm.toInt = some imm := by
  have lower : -2048 ≤ imm.toInt := imm.le_toInt
  have upper : imm.toInt ≤ 2047 := imm.toInt_le
  rw [asmImm12, if_pos (by omega), BitVec.ofInt_toInt]

theorem asmUimm_toNat (uimm : BitVec 5) : asmUimm uimm.toNat = some uimm := by
  rw [asmUimm, if_pos (by omega), BitVec.ofInt_natCast, BitVec.ofNat_toNat, BitVec.setWidth_eq]

theorem asmUpimm_toNat (upimm : BitVec 20) : asmUpimm upimm.toNat = some upimm := by
  rw [asmUpimm, if_pos (by omega), BitVec.ofInt_natCast, BitVec.ofNat_toNat, BitVec.setWidth_eq]

/-! ### Labels as offsets (R99) -/

theorem asmOffset_label {labels : List (List Char × Word)} {name : List Char} {a : Word}
    (h : labels.lookup name = some a) (pc : Word) : asmOffset labels pc (.label name) = some (a - pc).toInt := by
  rw [asmOffset, labelAddress, h, Option.map_some]

/-- An offset with bit 0 clear is an even number. -/
theorem toInt_emod_two_of_even {n : Nat} {offset : BitVec (n + 1)} (h : evenOffset offset = true) :
    offset.toInt % 2 = 0 := by
  have parity : offset.toNat % 2 = 0 := by
    have bit : offset.toNat.testBit 0 = false := by simpa [evenOffset, BitVec.getLsbD] using h
    rw [Nat.testBit_zero] at bit
    simpa using bit
  have halves : (2 : Int) ^ (n + 1) = 2 * 2 ^ n := by rw [Int.pow_succ, Int.mul_comm]
  rw [BitVec.toInt_eq_toNat_cond]
  push_cast
  split <;> omega

/-- What an even offset of a field says of the distance it stands for (R83, R85). -/
theorem distance_of_even_offset {n : Nat} {offset : BitVec (n + 1)} {d : Word} (h0 : 0 < n) (hn : n < 32)
    (he : evenOffset offset = true) (hd : d = offset.signExtend 32) :
    d.toInt = offset.toInt ∧ offset.toInt % 2 = 0 ∧ -2 ^ n ≤ offset.toInt ∧ offset.toInt ≤ 2 ^ n - 2 := by
  have sameNumber : (offset.signExtend 32).toInt = offset.toInt := BitVec.toInt_signExtend_of_le (by omega)
  have bounds := toInt_signExtend_word_bounds_of_even offset (by omega) (by omega) he
  rw [sameNumber] at bounds
  exact ⟨hd ▸ sameNumber, toInt_emod_two_of_even he, bounds⟩

section Label
variable {labels : List (List Char × Word)} {pc a : Word} {name : List Char} (hname : labels.lookup name = some a)
include hname

/-- A label at an encodable distance fills the field of a branch (R83, R99). -/
theorem asmBranchOffset_label {offset : BitVec 13} (he : evenOffset offset = true) (hd : a - pc = immB offset) :
    asmBranchOffset labels pc (.label name) = some offset := by
  obtain ⟨distance, inRange⟩ := distance_of_even_offset (by omega) (by omega) he hd
  simp only [asmBranchOffset, asmOffset_label hname, distance]
  exact (if_pos inRange).trans (congrArg some BitVec.ofInt_toInt)

/-- A label at an encodable distance fills the field of `jal` (R85, R99). -/
theorem asmJalOffset_label {offset : BitVec 21} (he : evenOffset offset = true) (hd : a - pc = immJ offset) :
    asmJalOffset labels pc (.label name) = some offset := by
  obtain ⟨distance, inRange⟩ := distance_of_even_offset (by omega) (by omega) he hd
  simp only [asmJalOffset, asmOffset_label hname, distance]
  exact (if_pos inRange).trans (congrArg some BitVec.ofInt_toInt)

end Label

/-! ### Statements format by format (R97) -/

section Statements
variable (rd rs1 rs2 : RegIdx)

theorem asmReg2Imm_toInt (mk : RegIdx → RegIdx → BitVec 12 → Instr) (imm : BitVec 12) :
    asmReg2Imm mk [.reg rd, .reg rs1, .num imm.toInt] = some [mk rd rs1 imm] := by
  rw [asmReg2Imm, asmImm12_toInt, Option.map_some]

theorem asmShift_toNat (mk : RegIdx → RegIdx → BitVec 5 → Instr) (uimm : BitVec 5) :
    asmShift mk [.reg rd, .reg rs1, .num uimm.toNat] = some [mk rd rs1 uimm] := by
  rw [asmShift, asmUimm_toNat, Option.map_some]

theorem asmLoad_toInt (mk : RegIdx → RegIdx → BitVec 12 → Instr) (imm : BitVec 12) :
    asmLoad mk [.reg rd, .based imm.toInt rs1] = some [mk rd rs1 imm] := by
  rw [asmLoad, asmImm12_toInt, Option.map_some]

theorem asmStore_toInt (mk : RegIdx → RegIdx → BitVec 12 → Instr) (imm : BitVec 12) :
    asmStore mk [.reg rs2, .based imm.toInt rs1] = some [mk rs1 rs2 imm] := by
  rw [asmStore, asmImm12_toInt, Option.map_some]

theorem asmUpper_toNat (mk : RegIdx → BitVec 20 → Instr) (upimm : BitVec 20) :
    asmUpper mk [.reg rd, .num upimm.toNat] = some [mk rd upimm] := by
  rw [asmUpper, asmUpimm_toNat, Option.map_some]

theorem asmBranch_of_offset {labels : List (List Char × Word)} {pc : Word} {o : AsmOperand} {offset : BitVec 13}
    (h : asmBranchOffset labels pc o = some offset) (mk : RegIdx → RegIdx → BitVec 13 → Instr) :
    asmBranch labels pc mk [.reg rs1, .reg rs2, o] = some [mk rs1 rs2 offset] := by
  rw [asmBranch, h, Option.map_some]

theorem asmJal_of_offset {labels : List (List Char × Word)} {pc : Word} {o : AsmOperand} {offset : BitVec 21}
    (h : asmJalOffset labels pc o = some offset) : asmJal labels pc [.reg rd, o] = some [.jal rd offset] := by
  rw [asmJal, h, Option.map_some]

end Statements

/-- Settles O9: each mnemonic is assembled by the form of its format. -/
theorem assemblerOperandsFillTheirFields : Obligations.AssemblerOperandsFillTheirFields := by
  intro labels pc
  refine ⟨?reg3, ?reg2Imm, ?shift, ?load, ?store, ?branch, ?jal, ?upper⟩
  case reg3 =>
    intro e he rd rs1 rs2
    fin_cases he <;> rfl
  case reg2Imm =>
    intro e he rd rs1 imm
    fin_cases he <;> exact asmReg2Imm_toInt rd rs1 _ imm
  case shift =>
    intro e he rd rs1 uimm
    fin_cases he <;> exact asmShift_toNat rd rs1 _ uimm
  case load =>
    intro e he rd rs1 imm
    fin_cases he <;> exact asmLoad_toInt rd rs1 _ imm
  case store =>
    intro e he rs1 rs2 imm
    fin_cases he <;> exact asmStore_toInt rs1 rs2 _ imm
  case branch =>
    intro e he rs1 rs2 offset name a heven hname hd
    have field := asmBranchOffset_label hname heven hd
    fin_cases he <;> exact asmBranch_of_offset rs1 rs2 field _
  case jal =>
    intro rd offset name a heven hname hd
    exact asmJal_of_offset rd (asmJalOffset_label hname heven hd)
  case upper =>
    intro e he rd upimm
    fin_cases he <;> exact asmUpper_toNat rd _ upimm

end Sys2Proof
end

section
/-! An instruction as the reading of its sources followed by one of five rules, and the settled statements O20, O38, O39
(`10_state.md` R24, `60_exceptions.md` R221 to R232). -/

namespace Sys2Proof
open Sys2Proof.Machine

/-! ### Reading the sources (R229, R232 (6)) -/

/-- The registers of a list are checked in order, then comes the rest of the rule. -/
def readSources (s : State) : List RegIdx → Result → Result
  | [], rest => rest
  | r :: rs, rest => readReg s r fun _ => readSources s rs rest

theorem readSources_of_hasReg {s : State} {rs : List RegIdx} (h : ∀ q ∈ rs, s.hasReg q = true) (rest : Result) :
    readSources s rs rest = rest := by
  induction rs with
  | nil => rfl
  | cons r rs ih =>
    obtain ⟨hr, hrs⟩ := List.forall_mem_cons.mp h
    rw [readSources, readReg_of_hasReg hr, ih hrs]

theorem readSources_of_first_without_value {s : State} {before after : List RegIdx} {r : RegIdx}
    (hbefore : ∀ q ∈ before, s.hasReg q = true) (hr : s.hasReg r = false) (rest : Result) :
    readSources s (before ++ r :: after) rest = .refused (.uninitialisedRead s.pc (.reg r)) := by
  induction before with
  | nil => exact readReg_of_no_value hr _
  | cons q before ih =>
    obtain ⟨hq, hrest⟩ := List.forall_mem_cons.mp hbefore
    rw [List.cons_append, readSources, readReg_of_hasReg hq, ih hrest]

/-- Every register of a list holds a value, or there is a first that holds none. -/
theorem all_hasReg_or_first_without_value (s : State) (rs : List RegIdx) :
    (∀ q ∈ rs, s.hasReg q = true) ∨ ∃ before q after, rs = before ++ q :: after ∧
      (∀ p ∈ before, s.hasReg p = true) ∧ s.hasReg q = false := by
  induction rs with
  | nil => exact .inl nofun
  | cons r rs ih =>
    cases hr : s.hasReg r with
    | false => exact .inr ⟨[], r, rs, rfl, nofun, hr⟩
    | true =>
      rcases ih with hall | ⟨before, q, after, rfl, hbefore, hq⟩
      · exact .inl (List.forall_mem_cons.mpr ⟨hr, hall⟩)
      · exact .inr ⟨r :: before, q, after, rfl, List.forall_mem_cons.mpr ⟨hr, hbefore⟩, hq⟩

/-! ### The rules after the sources -/

/-- The value depends on the state by its `pc` and the instruction's sources only. -/
def SeesOnlySources {α : Type} (i : Instr) (f : State → α) : Prop :=
  ∀ s u : State, s.pc = u.pc → (∀ r ∈ sources i, s.reg r = u.reg r) → f s = f u

theorem seesOnlySources_pc {α : Type} (i : Instr) (g : Word → α) : SeesOnlySources i fun s => g s.pc :=
  fun _ _ hpc _ => congrArg g hpc

theorem seesOnlySources_one {α : Type} {i : Instr} {rs1 : RegIdx} (hs : sources i = [rs1]) (g : Word → α) :
    SeesOnlySources i fun s => g (s.reg rs1) :=
  fun _ _ _ hr => congrArg g (hr rs1 (by simp [hs]))

theorem seesOnlySources_two {α : Type} {i : Instr} {rs1 rs2 : RegIdx} (hs : sources i = [rs1, rs2])
    (g : Word → Word → α) : SeesOnlySources i fun s => g (s.reg rs1) (s.reg rs2) :=
  fun _ _ _ hr => congrArg₂ g (hr rs1 (by simp [hs])) (hr rs2 (by simp [hs]))

/-- What an instruction does once its sources are read: one of five rules, whose operands depend on `pc` and the sources
only. -/
inductive Rule (i : Instr) : (State → Result) → Prop where
  | write (rd : RegIdx) (v : State → Word) (hd : destination i = some rd) (hv : SeesOnlySources i v) :
      Rule i fun s => writeAndAdvance rd (v s) s
  | load {w : Nat} (n : AccessSize) (get : Memory → Nat → Option (BitVec w)) (ext : BitVec w → Word) (rd : RegIdx)
      (addr : State → Word) (hd : destination i = some rd) (hv : SeesOnlySources i addr)
      (haccess : ∀ s, loadAccess i s = some (addr s, n)) (hget : ReadsBytes n get) :
      Rule i fun s => memRead s (addr s) n get fun v => writeAndAdvance rd (ext v) s
  | store (n : AccessSize) (addr : State → Word) (bytes : State → List Byte) (hd : destination i = none)
      (hv : SeesOnlySources i fun s => (addr s, bytes s)) (haccess : ∀ s, storeAccess i s = some (addr s, n)) :
      Rule i fun s => memWrite s (addr s) n (bytes s) fun t => .next t.advance
  | branch (taken : State → Bool) (target : State → Word) (hd : destination i = none)
      (htaken : SeesOnlySources i taken) (hv : SeesOnlySources i target)
      (htarget : ∀ s, transferTarget i s = if taken s then some (target s) else none) :
      Rule i fun s => if taken s then jumpTo s (target s) else .next s.advance
  | jump (rd : RegIdx) (target : State → Word) (hd : destination i = some rd) (hv : SeesOnlySources i target)
      (htarget : ∀ s, transferTarget i s = some (target s)) : Rule i fun s => linkAndJump rd (target s) s

/-- The meaning reads the instruction's sources and then follows one of the rules. -/
def FollowsARule (i : Instr) (meaning : State → Result) : Prop :=
  ∃ rule, Rule i rule ∧ ∀ s, meaning s = readSources s (sources i) (rule s)

section Families
variable {i : Instr} {rd rs1 rs2 : RegIdx}

theorem aluReg_followsARule {f : Word → Word → Word} (hs : sources i = [rs1, rs2]) (hd : destination i = some rd) :
    FollowsARule i (aluReg f rd rs1 rs2) :=
  ⟨_, .write rd (fun s => f (s.reg rs1) (s.reg rs2)) hd (seesOnlySources_two hs f), fun s => by rw [hs]; rfl⟩

theorem aluImm_followsARule {f : Word → Word} (hs : sources i = [rs1]) (hd : destination i = some rd) :
    FollowsARule i (aluImm f rd rs1) :=
  ⟨_, .write rd (fun s => f (s.reg rs1)) hd (seesOnlySources_one hs f), fun s => by rw [hs]; rfl⟩

theorem writeAndAdvance_followsARule (v : Word → Word) (hs : sources i = []) (hd : destination i = some rd) :
    FollowsARule i fun s => writeAndAdvance rd (v s.pc) s :=
  ⟨_, .write rd (fun s => v s.pc) hd (seesOnlySources_pc i v), fun s => by rw [hs]; rfl⟩

theorem loadInto_followsARule {w : Nat} {n : AccessSize} {get : Memory → Nat → Option (BitVec w)}
    {ext : BitVec w → Word} {imm : BitVec 12} (hget : ReadsBytes n get) (hs : sources i = [rs1])
    (hd : destination i = some rd) (haccess : ∀ s, loadAccess i s = some (loadAddress (s.reg rs1) imm, n)) :
    FollowsARule i (loadInto n get ext rd rs1 imm) :=
  ⟨_, .load n get ext rd (fun s => loadAddress (s.reg rs1) imm) hd (seesOnlySources_one hs (loadAddress · imm))
    haccess hget, fun s => by rw [hs]; rfl⟩

theorem storeFrom_followsARule {n : AccessSize} {bytesOf : Word → List Byte} {imm : BitVec 12}
    (hs : sources i = [rs1, rs2]) (hd : destination i = none)
    (haccess : ∀ s, storeAccess i s = some (storeAddress (s.reg rs1) imm, n)) :
    FollowsARule i (storeFrom n bytesOf rs1 rs2 imm) :=
  ⟨_, .store n (fun s => storeAddress (s.reg rs1) imm) (fun s => bytesOf (s.reg rs2)) hd
    (seesOnlySources_two hs fun a b => (storeAddress a imm, bytesOf b)) haccess, fun s => by rw [hs]; rfl⟩

theorem branchIf_followsARule {cond : Word → Word → Bool} {offset : BitVec 13} (hs : sources i = [rs1, rs2])
    (hd : destination i = none) (htarget : ∀ s, transferTarget i s =
      if cond (s.reg rs1) (s.reg rs2) then some (branchTarget s.pc offset) else none) :
    FollowsARule i (branchIf cond rs1 rs2 offset) :=
  ⟨_, .branch (fun s => cond (s.reg rs1) (s.reg rs2)) (fun s => branchTarget s.pc offset) hd
    (seesOnlySources_two hs cond) (seesOnlySources_pc i (branchTarget · offset)) htarget, fun s => by rw [hs]; rfl⟩

end Families

/-- Every instruction reads the sources of its table row and follows one of the five rules (R24). -/
theorem exec_followsARule (i : Instr) : FollowsARule i fun s => exec i s := by
  cases i with
  | add | sub | sll | slt | sltu | xor | srl | sra | or | and =>
    simp only [exec, execAdd, execSub, execSll, execSlt, execSltu, execXor, execSrl, execSra, execOr, execAnd]
    exact aluReg_followsARule rfl rfl
  | addi | slti | sltiu | xori | ori | andi | slli | srli | srai =>
    simp only [exec, execAddi, execSlti, execSltiu, execXori, execOri, execAndi, execSlli, execSrli, execSrai]
    exact aluImm_followsARule rfl rfl
  | lui rd upimm => exact writeAndAdvance_followsARule (fun _ => immU upimm) rfl rfl
  | auipc rd upimm => exact writeAndAdvance_followsARule (· + immU upimm) rfl rfl
  | lb | lbu =>
    simp only [exec, execLb, execLbu]
    exact loadInto_followsARule readByte_readsBytes rfl rfl fun _ => rfl
  | lh | lhu =>
    simp only [exec, execLh, execLhu]
    exact loadInto_followsARule readHalf_readsBytes rfl rfl fun _ => rfl
  | lw =>
    simp only [exec, execLw]
    exact loadInto_followsARule readWord_readsBytes rfl rfl fun _ => rfl
  | sb | sh | sw =>
    simp only [exec, execSb, execSh, execSw]
    exact storeFrom_followsARule rfl rfl fun _ => rfl
  | beq | bne | blt | bge | bltu | bgeu =>
    simp only [exec, execBeq, execBne, execBlt, execBge, execBltu, execBgeu]
    exact branchIf_followsARule rfl rfl fun _ => by
      simp [transferTarget, eqWords, neWords, ltSigned, geSigned, ltUnsigned, geUnsigned]
  | jal rd offset =>
    exact ⟨_, .jump rd (fun s => jalTarget s.pc offset) rfl (seesOnlySources_pc _ (jalTarget · offset)) fun _ => rfl,
      fun _ => rfl⟩
  | jalr rd rs1 imm =>
    exact ⟨_, .jump rd (fun s => jalrTarget (s.reg rs1) imm) rfl (seesOnlySources_one rfl (jalrTarget · imm))
      fun _ => rfl, fun _ => rfl⟩

theorem exists_rule (i : Instr) : ∃ rule, Rule i rule ∧ ∀ s, exec i s = readSources s (sources i) (rule s) :=
  exec_followsARule i

/-- Settles O20: reading the sources comes before the rule, and ends at the first without a value. -/
theorem firstSourceWithoutValueIsRefused : Obligations.FirstSourceWithoutValueIsRefused := by
  intro i s before after r hs hbefore hr
  obtain ⟨rule, -, hexec⟩ := exists_rule i
  rw [hexec, hs]
  exact readSources_of_first_without_value hbefore hr _

/-! ### The causes of a stop (R221 to R229) -/

/-- The causes that the table of R230 gives for a fault of an instruction whose sources are read. -/
def FaultCause (i : Instr) (s : State) (f : Fault) : Prop :=
  (∃ t, transferTarget i s = some t ∧ t.toNat % 4 ≠ 0 ∧ f = .instructionAddressMisaligned s.pc t) ∨
  (∃ a n, loadAccess i s = some (a, n) ∧
    ((a.toNat % AccessSize.bytes n ≠ 0 ∧ f = .loadAddressMisaligned s.pc a) ∨
      (a.toNat % AccessSize.bytes n = 0 ∧ memAdmits s.memMap a n .load = false ∧ f = .loadAccessFault s.pc a))) ∨
  (∃ a n, storeAccess i s = some (a, n) ∧
    ((a.toNat % AccessSize.bytes n ≠ 0 ∧ f = .storeAddressMisaligned s.pc a) ∨
      (a.toNat % AccessSize.bytes n = 0 ∧ memAdmits s.memMap a n .store = false ∧ f = .storeAccessFault s.pc a)))

/-- The cause of a refusal of an instruction whose sources are read: a load of a byte that holds no value (R229). -/
def RefusalCause (i : Instr) (s : State) (r : Refusal) : Prop :=
  ∃ a n, loadAccess i s = some (a, n) ∧ a.toNat % AccessSize.bytes n = 0 ∧ memAdmits s.memMap a n .load = true ∧
    (∃ k < AccessSize.bytes n, Memory.read s.mem (a.toNat + k) = none) ∧ r = .uninitialisedRead s.pc (.mem a)

/-- An outcome that, if it is a stop, has its cause. -/
inductive CausedIn (i : Instr) (s : State) : Result → Prop where
  | next (t : State) : CausedIn i s (.next t)
  | fault (f : Fault) (h : FaultCause i s f) : CausedIn i s (.fault f)
  | refused (r : Refusal) (h : RefusalCause i s r) : CausedIn i s (.refused r)

theorem jumpTo_caused {i : Instr} {s u : State} {t : Word} (hpc : u.pc = s.pc) (ht : transferTarget i s = some t) :
    CausedIn i s (jumpTo u t) := by
  rcases jumpTo_cases u t with ⟨-, h⟩ | ⟨ha, h⟩ <;> rw [h]
  · exact .next _
  · exact .fault _ (.inl ⟨t, ht, (aligned_eq_false_iff t .word).mp ha, by rw [hpc]⟩)

theorem rule_caused {i : Instr} {rule : State → Result} (h : Rule i rule) (s : State) : CausedIn i s (rule s) := by
  cases h with
  | write => exact .next _
  | load n get ext rd addr hd hv haccess hget =>
    dsimp only
    rcases memRead_cases s (addr s) n get fun v => writeAndAdvance rd (ext v) s with
      ⟨ha, e⟩ | ⟨ha, hm, e⟩ | ⟨ha, hm, hnone, e⟩ | ⟨-, -, v, -, e⟩ <;> rw [e]
    · exact .fault _ (.inr (.inl ⟨_, _, haccess s, .inl ⟨(aligned_eq_false_iff ..).mp ha, rfl⟩⟩))
    · exact .fault _ (.inr (.inl ⟨_, _, haccess s, .inr ⟨(aligned_iff ..).mp ha, hm, rfl⟩⟩))
    · exact .refused _ ⟨_, _, haccess s, (aligned_iff ..).mp ha, hm, (hget ..).mp hnone, rfl⟩
    · exact .next _
  | store n addr bytes hd hv haccess =>
    dsimp only
    rcases memWrite_cases s (addr s) n (bytes s) fun t => .next t.advance with ⟨ha, e⟩ | ⟨ha, hm, e⟩ | ⟨-, -, e⟩ <;>
      rw [e]
    · exact .fault _ (.inr (.inr ⟨_, _, haccess s, .inl ⟨(aligned_eq_false_iff ..).mp ha, rfl⟩⟩))
    · exact .fault _ (.inr (.inr ⟨_, _, haccess s, .inr ⟨(aligned_iff ..).mp ha, hm, rfl⟩⟩))
    · exact .next _
  | branch taken target hd htaken hv htarget =>
    dsimp only
    split
    · next hc => exact jumpTo_caused rfl (by rw [htarget, if_pos hc])
    · exact .next _
  | jump rd target hd hv htarget => exact jumpTo_caused (setReg_pc ..) (htarget s)

/-- Settles O39: a source without a value refuses the instruction, and otherwise its rule stops for a cause. -/
theorem everyStopHasItsCause : Obligations.EveryStopHasItsCause := by
  intro i s
  obtain ⟨rule, hrule, hexec⟩ := exists_rule i
  rcases all_hasReg_or_first_without_value s (sources i) with hall | ⟨before, q, after, hs, hbefore, hq⟩
  · have caused := rule_caused hrule s
    rw [hexec, readSources_of_hasReg hall]
    refine ⟨fun f hf => ⟨hall, ?_⟩, fun r hr => .inr ⟨hall, ?_⟩⟩
    · rw [hf] at caused
      cases caused with
      | fault _ h => exact h
    · rw [hr] at caused
      cases caused with
      | refused _ h => exact h
  · rw [hexec, hs, readSources_of_first_without_value hbefore hq]
    refine ⟨nofun, fun r hr => .inl ⟨before, q, after, rfl, hbefore, hq, ?_⟩⟩
    cases hr
    rfl

/-! ### Two states that agree on the sources -/

/-- The same stop, or next states with the same `pc`, the same memory and the same destination, the other registers of
the second as in `u`. -/
inductive SameOutcome (i : Instr) (u : State) : Result → Result → Prop where
  | next (t v : State) (hpc : v.pc = t.pc) (hmem : v.mem = t.mem)
      (hdest : ∀ rd, destination i = some rd → v.reg rd = t.reg rd)
      (hother : ∀ j, destination i ≠ some j → v.reg j = u.reg j) : SameOutcome i u (.next t) (.next v)
  | fault (f : Fault) : SameOutcome i u (.fault f) (.fault f)
  | refused (r : Refusal) : SameOutcome i u (.refused r) (.refused r)

/-- A register reads the same in two states after the same write to it. -/
theorem setReg_reg_congr (s u : State) (rd : RegIdx) (v : Word) : (u.setReg rd v).reg rd = (s.setReg rd v).reg rd := by
  rcases eq_or_ne rd 0#5 with rfl | h
  · rfl
  · rw [setReg_reg, setReg_reg, if_pos ⟨rfl, h⟩, if_pos ⟨rfl, h⟩]

section Agreeing
variable {i : Instr} {s u : State}

theorem sameOutcome_of_written {rd : RegIdx} (hd : destination i = some rd) (hmem : s.mem = u.mem) (v pc : Word) :
    SameOutcome i u (.next ((s.setReg rd v).setPc pc)) (.next ((u.setReg rd v).setPc pc)) := by
  refine .next _ _ rfl hmem.symm (fun r hr => ?_) fun j hj => ?_
  · obtain rfl : rd = r := Option.some.inj (hd.symm.trans hr)
    exact setReg_reg_congr s u rd v
  · rw [setPc_reg, setReg_reg, if_neg fun ⟨e, _⟩ => hj (e ▸ hd)]

theorem sameOutcome_of_moved (hd : destination i = none) (hmem : s.mem = u.mem) (pc : Word) :
    SameOutcome i u (.next (s.setPc pc)) (.next (u.setPc pc)) :=
  .next _ _ rfl hmem.symm (fun _ hr => by simp [hd] at hr) fun _ _ => rfl

theorem writeAndAdvance_sameOutcome {rd : RegIdx} (hd : destination i = some rd) (hpc : s.pc = u.pc)
    (hmem : s.mem = u.mem) (v : Word) : SameOutcome i u (writeAndAdvance rd v s) (writeAndAdvance rd v u) := by
  have written := sameOutcome_of_written hd hmem v (s.pc + 4#32)
  rwa [show (u.setReg rd v).setPc (s.pc + 4#32) = (u.setReg rd v).advance by rw [hpc]; rfl] at written

/-- A transfer of control goes on in both states, or in neither. -/
theorem jumpTo_sameOutcome {s' u' : State} (hpc : s'.pc = u'.pc) {t : Word}
    (hnext : SameOutcome i u (.next (s'.setPc t)) (.next (u'.setPc t))) :
    SameOutcome i u (jumpTo s' t) (jumpTo u' t) := by
  simp only [jumpTo, hpc]
  split
  · exact hnext
  · exact .fault _

/-- Both states read the same, or stop for the same reason. -/
theorem memRead_sameOutcome (hpc : s.pc = u.pc) (hmem : s.mem = u.mem) (hmap : s.memMap = u.memMap) {w : Nat}
    {a : Word} {n : AccessSize} {get : Memory → Nat → Option (BitVec w)} {k k' : BitVec w → Result}
    (hk : ∀ v, SameOutcome i u (k v) (k' v)) : SameOutcome i u (memRead s a n get k) (memRead u a n get k') := by
  simp only [memRead, hpc, hmem, hmap]
  split
  · split
    · cases get u.mem a.toNat with
      | some v => exact hk v
      | none => exact .refused _
    · exact .fault _
  · exact .fault _

/-- Both states are written alike, or stop for the same reason. -/
theorem memWrite_sameOutcome (hd : destination i = none) (hpc : s.pc = u.pc) (hmem : s.mem = u.mem)
    (hmap : s.memMap = u.memMap) (a : Word) (n : AccessSize) (bs : List Byte) :
    SameOutcome i u (memWrite s a n bs fun t => .next t.advance) (memWrite u a n bs fun t => .next t.advance) := by
  simp only [memWrite, hpc, hmap]
  split
  · split
    · exact .next _ _ (by simp [hpc]) (by simp [hmem]) (fun _ hr => by simp [hd] at hr) fun _ _ => rfl
    · exact .fault _
  · exact .fault _

theorem rule_sameOutcome {rule : State → Result} (h : Rule i rule) (hpc : s.pc = u.pc) (hmem : s.mem = u.mem)
    (hmap : s.memMap = u.memMap) (hr : ∀ r ∈ sources i, s.reg r = u.reg r) :
    SameOutcome i u (rule s) (rule u) := by
  cases h with
  | write rd v hd hv =>
    dsimp only
    rw [hv s u hpc hr]
    exact writeAndAdvance_sameOutcome hd hpc hmem _
  | load n get ext rd addr hd hv =>
    dsimp only
    rw [hv s u hpc hr]
    exact memRead_sameOutcome hpc hmem hmap fun v => writeAndAdvance_sameOutcome hd hpc hmem _
  | store n addr bytes hd hv =>
    obtain ⟨haddr, hbytes⟩ := Prod.mk.inj (hv s u hpc hr)
    dsimp only
    rw [haddr, hbytes]
    exact memWrite_sameOutcome hd hpc hmem hmap _ n _
  | branch taken target hd htaken hv =>
    dsimp only
    rw [htaken s u hpc hr, hv s u hpc hr]
    split
    · exact jumpTo_sameOutcome hpc (sameOutcome_of_moved hd hmem _)
    · rw [State.advance, State.advance, hpc]
      exact sameOutcome_of_moved hd hmem _
  | jump rd target hd hv =>
    dsimp only [linkAndJump]
    rw [hv s u hpc hr, hpc]
    exact jumpTo_sameOutcome (s' := s.setReg rd _) (u' := u.setReg rd _) hpc (sameOutcome_of_written hd hmem _ _)

/-- An instruction has the same outcome in two states that agree on what it sees: the same source is without a value in
both, or none is and its rule does the same. -/
theorem exec_sameOutcome (hpc : s.pc = u.pc) (hmem : s.mem = u.mem) (hmap : s.memMap = u.memMap)
    (hr : ∀ r ∈ sources i, s.reg r = u.reg r ∧ s.hasReg r = u.hasReg r) :
    SameOutcome i u (exec i s) (exec i u) := by
  obtain ⟨rule, hrule, hexec⟩ := exists_rule i
  have hasReg_u {r : RegIdx} (hmemr : r ∈ sources i) {b : Bool} (h : s.hasReg r = b) : u.hasReg r = b :=
    (hr r hmemr).2 ▸ h
  rw [hexec, hexec]
  rcases all_hasReg_or_first_without_value s (sources i) with hall | ⟨before, q, after, hs, hbefore, hq⟩
  · rw [readSources_of_hasReg hall, readSources_of_hasReg fun r h => hasReg_u h (hall r h)]
    exact rule_sameOutcome hrule hpc hmem hmap fun r h => (hr r h).1
  · have hbefore_u : ∀ p ∈ before, u.hasReg p = true := fun p h => hasReg_u (by simp [hs, h]) (hbefore p h)
    have hq_u : u.hasReg q = false := hasReg_u (by simp [hs]) hq
    rw [hs, readSources_of_first_without_value hbefore hq, readSources_of_first_without_value hbefore_u hq_u, hpc]
    exact .refused _

end Agreeing

/-- Settles O38: the three kinds of outcome that two such states share. -/
theorem onlySourcesMatter : Obligations.OnlySourcesMatter := by
  intro i s u hpc hmem hmap hr
  have same := exec_sameOutcome hpc hmem hmap hr
  generalize exec i s = outcome, exec i u = outcome' at same
  cases same with
  | next t v hpc' hmem' hdest hother =>
    refine ⟨fun t' ht => ?_, nofun, nofun⟩
    cases ht
    exact ⟨v, rfl, hpc', hmem', hdest, hother⟩
  | fault f => exact ⟨nofun, fun _ => id, nofun⟩
  | refused r => exact ⟨nofun, nofun, fun _ => id⟩

end Sys2Proof
end

section
/-! Where a run is after some number of steps, and the settled statements O41 to O44 (`70_reset_and_hazards.md` R266,
`60_exceptions.md` R233). -/

namespace Sys2Proof
open Sys2Proof.Machine

/-! ### A run by its first state -/

theorem atEnd_iff (s : State) : s.atEnd = true ↔ s.fault = none ∧ s.pc = s.exitPc := by
  simp [State.atEnd]

/-- A run whose state has a fault record stands still (R233). -/
theorem run_of_recorded {s : State} (h : s.fault.isSome = true) (k : Nat) : run k s = .stopped s := by
  cases k <;> simp [run, h]

/-- A run at its end stands still, whatever stands at `EXIT_PC` (R266). -/
theorem run_of_atEnd {s : State} (h : s.atEnd = true) (k : Nat) : run k s = .endedWell s := by
  obtain ⟨hf, -⟩ := (atEnd_iff s).mp h
  cases k <;> simp [run, h, hf]

/-- No fault is recorded and the run is not at its end, so that it goes on with a step. -/
def Live (s : State) : Prop := s.fault = none ∧ s.pc ≠ s.exitPc

theorem recorded_or_atEnd_or_live (s : State) : s.fault.isSome = true ∨ s.atEnd = true ∨ Live s := by
  rw [atEnd_iff, Live]
  cases s.fault with
  | some r => exact .inl rfl
  | none => simpa using em _

section LiveState
variable {s : State} (h : Live s)
include h

theorem run_zero_of_live : run 0 s = .running s := by
  obtain ⟨hf, he⟩ := h
  simp [run, State.atEnd, hf, he]

theorem run_succ_of_live (k : Nat) : run (k + 1) s = afterStep s (step s) (run k) := by
  obtain ⟨hf, he⟩ := h
  simp [run, State.atEnd, hf, he]

theorem run_succ_of_live_next {t : State} (hs : step s = .next t) (k : Nat) : run (k + 1) s = run k t := by
  rw [run_succ_of_live h, hs, afterStep]

/-- A step that stops ends the run with the record written into the state it began in (R233). -/
theorem run_succ_of_live_raise {r : FaultRecord} (hs : step s = raise r) (k : Nat) :
    run (k + 1) s = .stopped { s with fault := some r } := by
  have recorded : s.recordFault r = { s with fault := some r } := by simp [State.recordFault, h.1]
  rw [run_succ_of_live h, hs, ← recorded]
  cases r <;> rfl

end LiveState

/-- A step goes on or stops. -/
theorem step_next_or_raise (s : State) : (∃ t, step s = .next t) ∨ ∃ r, step s = raise r := by
  cases step s with
  | next t => exact .inl ⟨t, rfl⟩
  | fault f => exact .inr ⟨.fault f, rfl⟩
  | refused e => exact .inr ⟨.refusal e, rfl⟩

/-- Settles O41: the test for the end stands before the step. -/
theorem runEndsAtExitPc : Obligations.RunEndsAtExitPc :=
  fun k s hf he => run_of_atEnd ((atEnd_iff s).mpr ⟨hf, he⟩) k

/-! ### A run by its steps -/

/-- More steps change nothing once a run is over. -/
theorem run_add_of_over {k : Nat} {s : State} (m : Nat) (hover : ∀ u, run k s ≠ .running u) :
    run (k + m) s = run k s := by
  induction k generalizing s with
  | zero =>
    rcases recorded_or_atEnd_or_live s with h | h | h
    · rw [run_of_recorded h, run_of_recorded h]
    · rw [run_of_atEnd h, run_of_atEnd h]
    · exact absurd (run_zero_of_live h) (hover s)
  | succ k ih =>
    rw [Nat.add_right_comm]
    rcases recorded_or_atEnd_or_live s with h | h | h
    · rw [run_of_recorded h, run_of_recorded h]
    · rw [run_of_atEnd h, run_of_atEnd h]
    · rcases step_next_or_raise s with ⟨t, hs⟩ | ⟨r, hs⟩
      · rw [run_succ_of_live_next h hs] at hover ⊢
        rw [run_succ_of_live_next h hs]
        exact ih hover
      · rw [run_succ_of_live_raise h hs, run_succ_of_live_raise h hs]

/-- Settles O42: neither end of a run is a run that goes on. -/
theorem finishedRunsStayFinished : Obligations.FinishedRunsStayFinished := by
  refine fun k m s t => ⟨fun h => ?_, fun h => ?_⟩
  · rw [run_add_of_over m (by simp [h]), h]
  · rw [run_add_of_over m (by simp [h]), h]

/-- What has become of a run that came to the state `u` with some steps left: it is over there, its next step stops, or
no step is left. -/
inductive EndsAt (u : State) : Nat → RunResult → Prop where
  | well (left : Nat) (h : u.atEnd = true) : EndsAt u left (.endedWell u)
  | recorded (left : Nat) (h : u.fault.isSome = true) : EndsAt u left (.stopped u)
  | raised (left : Nat) (r : FaultRecord) (hs : step u = raise r) :
      EndsAt u (left + 1) (.stopped { u with fault := some r })
  | running (h : Live u) : EndsAt u 0 (.running u)

/-- Every run goes by single steps from live states to the state it ends at. -/
theorem run_course (k : Nat) (s : State) :
    ∃ j left u, j + left = k ∧ Host.Core.run core j s = .next u ∧
      (∀ n < j, ∀ v, Host.Core.run core n s = .next v → Live v) ∧ EndsAt u left (run k s) := by
  induction k generalizing s with
  | zero =>
    refine ⟨0, 0, s, rfl, rfl, nofun, ?_⟩
    rcases recorded_or_atEnd_or_live s with h | h | h
    · exact run_of_recorded h 0 ▸ .recorded 0 h
    · exact run_of_atEnd h 0 ▸ .well 0 h
    · exact run_zero_of_live h ▸ .running h
  | succ k ih =>
    rcases recorded_or_atEnd_or_live s with h | h | h
    · exact ⟨0, k + 1, s, by omega, rfl, nofun, run_of_recorded h _ ▸ .recorded _ h⟩
    · exact ⟨0, k + 1, s, by omega, rfl, nofun, run_of_atEnd h _ ▸ .well _ h⟩
    · rcases step_next_or_raise s with ⟨t, hs⟩ | ⟨r, hs⟩
      · obtain ⟨j, left, u, hsum, hreach, hlive, hend⟩ := ih t
        refine ⟨j + 1, left, u, by omega, (core_run_succ j hs).trans hreach, fun n hn v hv => ?_,
          run_succ_of_live_next h hs k ▸ hend⟩
        cases n with
        | zero =>
          cases hv
          exact h
        | succ n => exact hlive n (by omega) v ((core_run_succ n hs).symm.trans hv)
      · exact ⟨0, k + 1, s, by omega, rfl, nofun, run_succ_of_live_raise h hs k ▸ .raised k r hs⟩

/-- Settles O43: the course of a run that ends well leads to the end, and live states are not at `EXIT_PC`. -/
theorem goodRunsStopAtTheFirstExit : Obligations.GoodRunsStopAtTheFirstExit := by
  intro k s t hrun
  obtain ⟨j, left, u, hsum, hreach, hlive, hend⟩ := run_course k s
  rw [hrun] at hend
  cases hend with
  | well _ h =>
    obtain ⟨hf, he⟩ := (atEnd_iff t).mp h
    exact ⟨j, by omega, hreach, hf, he, fun n hn v hv => (hlive n hn v hv).2⟩

/-- A run that began with no fault recorded has none while it goes on (R233). -/
theorem core_run_noFault {j : Nat} {s u : State} (hf : s.fault = none) (h : Host.Core.run core j s = .next u) :
    u.fault = none := by
  induction j generalizing s with
  | zero =>
    cases h
    exact hf
  | succ j ih =>
    obtain ⟨t, hstep, hrun⟩ := core_run_succ_next h
    obtain ⟨-, -, htf, -⟩ := stepsOnlyAddKnowledge s t hstep
    exact ih htf hrun

/-- Settles O44: the course of a run that stops leads to a state whose step stops, because no record was there. -/
theorem stoppedRunsOnlyRecordTheFault : Obligations.StoppedRunsOnlyRecordTheFault := by
  intro k s t hf hrun
  obtain ⟨j, left, u, hsum, hreach, -, hend⟩ := run_course k s
  rw [hrun] at hend
  cases hend with
  | recorded _ h => simp [core_run_noFault hf hreach] at h
  | raised left r hs => exact ⟨j, by omega, u, r, hreach, hs, rfl⟩

end Sys2Proof
end
